-- ==== Sys2Proof/Word.lean ====
section
/-!
DEFINITION. Word.lean: the word types of the SWBB and the two-valued things of its line
(00_scope.md R8: every value is unsigned, bit 0 is the least significant).
-/

namespace Sys2Proof

/-- One byte: a field of the RawReading (00_scope.md R7, BYTE_W). -/
abbrev Byte := BitVec 8

/-- A host register (00_scope.md R7, REG_W). -/
abbrev Word := BitVec 32

/-- A register offset in the 64-byte window (00_scope.md R7, ADDR_W). -/
abbrev Offset := BitVec 6

/-- A host access word (30_encoding.md R87). -/
abbrev Haw := BitVec 41

/-- An FSM state code (30_encoding.md R90). -/
abbrev FsmCode := BitVec 4

/-- A line level: HIGH = 1, LOW = 0 (00_scope.md R8). -/
inductive Level where
  | low
  | high
  deriving DecidableEq, Repr, Inhabited

/-- The level as one bit (00_scope.md R8). -/
def Level.bit : Level → BitVec 1
  | .low => 0#1
  | .high => 1#1

/-- The direction of the line port: DIR = 0 is input, DIR = 1 is output (10_state.md R36). -/
inductive Direction where
  | input
  | output
  deriving DecidableEq, Repr

/-- The direction as the bit DIR (10_state.md R36). -/
def Direction.bit : Direction → BitVec 1
  | .input => 0#1
  | .output => 1#1

/-- The source's ReadOutcome: 0 = Success, 1 = ChecksumMismatch (10_state.md R23, R26). -/
inductive ReadOutcome where
  | success
  | checksumMismatch
  deriving DecidableEq, Repr

/-- The outcome as the bit STATUS.OUTCOME (10_state.md R23). -/
def ReadOutcome.bit : ReadOutcome → BitVec 1
  | .success => 0#1
  | .checksumMismatch => 1#1

end Sys2Proof
end

