-- ==== Sys2Proof/Syntax.lean ====
section
/-!
DEFINITION. Syntax.lean: the operations of the SWBB, one constructor per row of spec/opcode_table.json:
22 host accesses (30_encoding.md R88, R89) and 16 FSM codes (R90).
-/

namespace Sys2Proof

/-- One operation of the block: a host register access or one FSM state's operation. A write carries its
WDATA `d`; a read's WDATA is ignored and is not an operand (30_encoding.md R87). A reserved row carries
its offset; a refused row carries WE, ADDR and WDATA. -/
inductive Instr where
  /-- `rd CTRL` (42_host_interface.md R172). -/
  | rdCtrl
  /-- `wr CTRL, d` (42_host_interface.md R171). -/
  | wrCtrl (d : Word)
  /-- `rd STATUS` (42_host_interface.md R173). -/
  | rdStatus
  /-- `wr STATUS, d` (42_host_interface.md R174). -/
  | wrStatus (d : Word)
  /-- `rd DATA` (42_host_interface.md R175). -/
  | rdData
  /-- `wr DATA, d` (42_host_interface.md R176). -/
  | wrData (d : Word)
  /-- `rd CHK` (42_host_interface.md R177). -/
  | rdChk
  /-- `wr CHK, d` (42_host_interface.md R178). -/
  | wrChk (d : Word)
  /-- `rd BUDGET` (42_host_interface.md R179). -/
  | rdBudget
  /-- `wr BUDGET, d` (42_host_interface.md R180). -/
  | wrBudget (d : Word)
  /-- `rd PARAM` (42_host_interface.md R181). -/
  | rdParam
  /-- `wr PARAM, d` (42_host_interface.md R182). -/
  | wrParam (d : Word)
  /-- `rd @off` for offsets 0x18 and 0x1C (42_host_interface.md R183). -/
  | rdRsvdLow (off : Offset)
  /-- `wr @off, d` for offsets 0x18 and 0x1C (42_host_interface.md R184). -/
  | wrRsvdLow (off : Offset) (d : Word)
  /-- `rd @off` for offsets 0x20 to 0x3C (42_host_interface.md R183). -/
  | rdRsvdHigh (off : Offset)
  /-- `wr @off, d` for offsets 0x20 to 0x3C (42_host_interface.md R184). -/
  | wrRsvdHigh (off : Offset) (d : Word)
  /-- SIZE = 0b00, an 8-bit access (30_encoding.md R89). -/
  | badSize8 (we : Bool) (off : Offset) (d : Word)
  /-- SIZE = 0b01, a 16-bit access (30_encoding.md R89). -/
  | badSize16 (we : Bool) (off : Offset) (d : Word)
  /-- SIZE = 0b11, reserved (30_encoding.md R89). -/
  | badSizeRsvd (we : Bool) (off : Offset) (d : Word)
  /-- ADDR[1:0] = 0b01 (30_encoding.md R89). -/
  | badAlign1 (we : Bool) (off : Offset) (d : Word)
  /-- ADDR[1:0] = 0b10 (30_encoding.md R89). -/
  | badAlign2 (we : Bool) (off : Offset) (d : Word)
  /-- ADDR[1:0] = 0b11 (30_encoding.md R89). -/
  | badAlign3 (we : Bool) (off : Offset) (d : Word)
  /-- Code 0x0 (41_frame_decoder.md R147). -/
  | idle
  /-- Code 0x1 (41_frame_decoder.md R132). -/
  | sDirOut
  /-- Code 0x2 (41_frame_decoder.md R133). -/
  | sDriveLow
  /-- Code 0x3 (41_frame_decoder.md R134). -/
  | sHoldLow
  /-- Code 0x4 (41_frame_decoder.md R135). -/
  | sDriveHigh
  /-- Code 0x5 (41_frame_decoder.md R136). -/
  | sHoldHigh
  /-- Code 0x6 (41_frame_decoder.md R137). -/
  | sDirIn
  /-- Code 0x7 (41_frame_decoder.md R138). -/
  | sRespWait
  /-- Code 0x8 (41_frame_decoder.md R139). -/
  | sSettle
  /-- Code 0x9 (41_frame_decoder.md R140). -/
  | sBitRise
  /-- Code 0xA (41_frame_decoder.md R141). -/
  | sBitDelay
  /-- Code 0xB (41_frame_decoder.md R142). -/
  | sBitSample
  /-- Code 0xC (41_frame_decoder.md R143). -/
  | sBitFall
  /-- Code 0xD (41_frame_decoder.md R144). -/
  | sByteEnd
  /-- Code 0xE (41_frame_decoder.md R146). -/
  | sCheck
  /-- Code 0xF, the illegal code (41_frame_decoder.md R150). -/
  | reservedF
  deriving DecidableEq, Repr

end Sys2Proof
end

