-- ==== Sys2Proof/WellFormed.lean ====
section
/-!
DEFINITION. WellFormed.lean: which terms of Instr are operations of the SWBB: a reserved row's offset is one
of that row's offsets (42_host_interface.md R183, R184), a misaligned row's offset has that row's low bits
(30_encoding.md R89), and a read carries no WDATA (30_encoding.md R87: written as 0 in canonical form).
-/

namespace Sys2Proof

/-- The offsets of the row 0x18, 0x1C (30_encoding.md R88). -/
def rsvdLowOffset (off : Offset) : Bool := off == 0x18#6 || off == 0x1C#6

/-- The offsets of the row 0x20..0x3C, aligned (30_encoding.md R88). -/
def rsvdHighOffset (off : Offset) : Bool := off.getLsbD 5 && off.extractLsb' 0 2 == 0#2

/-- The low offset bits of a misaligned row (30_encoding.md R89). -/
def lowBitsAre (k : BitVec 2) (off : Offset) : Bool := off.extractLsb' 0 2 == k

/-- A read's WDATA is 0 in canonical form (30_encoding.md R87). -/
def canonicalWdata (we : Bool) (d : Word) : Bool := we || d == 0#32

/-- The check of one term. -/
def Instr.wellFormed : Instr → Bool
  | .rdCtrl => true
  | .wrCtrl _ => true
  | .rdStatus => true
  | .wrStatus _ => true
  | .rdData => true
  | .wrData _ => true
  | .rdChk => true
  | .wrChk _ => true
  | .rdBudget => true
  | .wrBudget _ => true
  | .rdParam => true
  | .wrParam _ => true
  | .rdRsvdLow off => rsvdLowOffset off
  | .wrRsvdLow off _ => rsvdLowOffset off
  | .rdRsvdHigh off => rsvdHighOffset off
  | .wrRsvdHigh off _ => rsvdHighOffset off
  | .badSize8 we _ d => canonicalWdata we d
  | .badSize16 we _ d => canonicalWdata we d
  | .badSizeRsvd we _ d => canonicalWdata we d
  | .badAlign1 we off d => lowBitsAre 1#2 off && canonicalWdata we d
  | .badAlign2 we off d => lowBitsAre 2#2 off && canonicalWdata we d
  | .badAlign3 we off d => lowBitsAre 3#2 off && canonicalWdata we d
  | .idle => true
  | .sDirOut => true
  | .sDriveLow => true
  | .sHoldLow => true
  | .sDriveHigh => true
  | .sHoldHigh => true
  | .sDirIn => true
  | .sRespWait => true
  | .sSettle => true
  | .sBitRise => true
  | .sBitDelay => true
  | .sBitSample => true
  | .sBitFall => true
  | .sByteEnd => true
  | .sCheck => true
  | .reservedF => true

end Sys2Proof
end

