-- ==== Sys2Proof/Decode.lean ====
section
/-!
DEFINITION. Decode.lean: the decoder of host access words and FSM codes, total on words and on bytes, and
the encoder written from the same tables (30_encoding.md R87 to R90). The rows of spec/opcode_table.json
stand here once more as mask and match, so that decoder and table can be held against each other.
-/

namespace Sys2Proof

/-! ## Fields of the host access word (30_encoding.md R87) -/

/-- SIZE, bits 40:39. -/
def hawSize (w : Haw) : BitVec 2 := w.extractLsb' 39 2

/-- WE, bit 38: 1 is a write. -/
def hawWe (w : Haw) : Bool := w.getLsbD 38

/-- ADDR, bits 37:32. -/
def hawAddr (w : Haw) : Offset := w.extractLsb' 32 6

/-- WDATA, bits 31:0. -/
def hawWdata (w : Haw) : Word := w.extractLsb' 0 32

/-- The word with the four fields. -/
def mkHaw (size : BitVec 2) (we : Bool) (off : Offset) (d : Word) : Haw :=
  size ++ BitVec.ofBool we ++ off ++ d

/-- SIZE of a defined, 32-bit access (30_encoding.md R87). -/
abbrev size32 : BitVec 2 := 0b10#2

/-! ## Register offsets (20_memory.md R61) -/

abbrev offCtrl : Offset := 0x00#6
abbrev offStatus : Offset := 0x04#6
abbrev offData : Offset := 0x08#6
abbrev offChk : Offset := 0x0C#6
abbrev offBudget : Offset := 0x10#6
abbrev offParam : Offset := 0x14#6

/-! ## FSM codes (30_encoding.md R90) -/

namespace Code
abbrev idle : FsmCode := 0x0#4
abbrev sDirOut : FsmCode := 0x1#4
abbrev sDriveLow : FsmCode := 0x2#4
abbrev sHoldLow : FsmCode := 0x3#4
abbrev sDriveHigh : FsmCode := 0x4#4
abbrev sHoldHigh : FsmCode := 0x5#4
abbrev sDirIn : FsmCode := 0x6#4
abbrev sRespWait : FsmCode := 0x7#4
abbrev sSettle : FsmCode := 0x8#4
abbrev sBitRise : FsmCode := 0x9#4
abbrev sBitDelay : FsmCode := 0xA#4
abbrev sBitSample : FsmCode := 0xB#4
abbrev sBitFall : FsmCode := 0xC#4
abbrev sByteEnd : FsmCode := 0xD#4
abbrev sCheck : FsmCode := 0xE#4
abbrev reservedF : FsmCode := 0xF#4
end Code

/-! ## Decoding words -/

/-- A defined read, by offset (30_encoding.md R88). -/
def decodeRead (off : Offset) : Instr :=
  if off = offCtrl then .rdCtrl
  else if off = offStatus then .rdStatus
  else if off = offData then .rdData
  else if off = offChk then .rdChk
  else if off = offBudget then .rdBudget
  else if off = offParam then .rdParam
  else if rsvdLowOffset off then .rdRsvdLow off
  else .rdRsvdHigh off

/-- A defined write, by offset (30_encoding.md R88). -/
def decodeWrite (off : Offset) (d : Word) : Instr :=
  if off = offCtrl then .wrCtrl d
  else if off = offStatus then .wrStatus d
  else if off = offData then .wrData d
  else if off = offChk then .wrChk d
  else if off = offBudget then .wrBudget d
  else if off = offParam then .wrParam d
  else if rsvdLowOffset off then .wrRsvdLow off d
  else .wrRsvdHigh off d

/-- An access with SIZE = 0b10: the misaligned rows first, then the defined ones (30_encoding.md R88, R89). -/
def decodeSize32 (we : Bool) (off : Offset) (d : Word) : Instr :=
  if lowBitsAre 1#2 off then .badAlign1 we off d
  else if lowBitsAre 2#2 off then .badAlign2 we off d
  else if lowBitsAre 3#2 off then .badAlign3 we off d
  else if we then decodeWrite off d
  else decodeRead off

/-- An access by its four fields. -/
def decodeFields (size : BitVec 2) (we : Bool) (off : Offset) (d : Word) : Instr :=
  if size = 0b00#2 then .badSize8 we off d
  else if size = 0b01#2 then .badSize16 we off d
  else if size = 0b11#2 then .badSizeRsvd we off d
  else decodeSize32 we off d

/-- WDATA as the access carries it: a read's is ignored (30_encoding.md R87; log 11). -/
def carriedWdata (we : Bool) (d : Word) : Word := if we then d else 0#32

/-- The decoder of host access words: total, since every word matches exactly one row (30_encoding.md R88). -/
def decodeHaw (w : Haw) : Instr :=
  decodeFields (hawSize w) (hawWe w) (hawAddr w) (carriedWdata (hawWe w) (hawWdata w))

/-- The decoder of FSM codes: total on the 16 codes (30_encoding.md R90). -/
def decodeFsm (c : FsmCode) : Instr :=
  if c = Code.idle then .idle
  else if c = Code.sDirOut then .sDirOut
  else if c = Code.sDriveLow then .sDriveLow
  else if c = Code.sHoldLow then .sHoldLow
  else if c = Code.sDriveHigh then .sDriveHigh
  else if c = Code.sHoldHigh then .sHoldHigh
  else if c = Code.sDirIn then .sDirIn
  else if c = Code.sRespWait then .sRespWait
  else if c = Code.sSettle then .sSettle
  else if c = Code.sBitRise then .sBitRise
  else if c = Code.sBitDelay then .sBitDelay
  else if c = Code.sBitSample then .sBitSample
  else if c = Code.sBitFall then .sBitFall
  else if c = Code.sByteEnd then .sByteEnd
  else if c = Code.sCheck then .sCheck
  else .reservedF

/-! ## Encoding -/

/-- A word of one of the two formats of spec/opcode_table.json. -/
inductive CodeWord where
  /-- Format HAW (30_encoding.md R87). -/
  | haw (w : Haw)
  /-- Format FSM (30_encoding.md R90). -/
  | fsm (c : FsmCode)
  deriving DecidableEq, Repr

/-- The canonical encoding of a defined read (30_encoding.md R92). -/
def encRead (off : Offset) : CodeWord := .haw (mkHaw size32 false off 0#32)

/-- The encoding of a defined write (30_encoding.md R92). -/
def encWrite (off : Offset) (d : Word) : CodeWord := .haw (mkHaw size32 true off d)

/-- The encoder. -/
def encode : Instr → CodeWord
  | .rdCtrl => encRead offCtrl
  | .wrCtrl d => encWrite offCtrl d
  | .rdStatus => encRead offStatus
  | .wrStatus d => encWrite offStatus d
  | .rdData => encRead offData
  | .wrData d => encWrite offData d
  | .rdChk => encRead offChk
  | .wrChk d => encWrite offChk d
  | .rdBudget => encRead offBudget
  | .wrBudget d => encWrite offBudget d
  | .rdParam => encRead offParam
  | .wrParam d => encWrite offParam d
  | .rdRsvdLow off => encRead off
  | .wrRsvdLow off d => encWrite off d
  | .rdRsvdHigh off => encRead off
  | .wrRsvdHigh off d => encWrite off d
  | .badSize8 we off d => .haw (mkHaw 0b00#2 we off d)
  | .badSize16 we off d => .haw (mkHaw 0b01#2 we off d)
  | .badSizeRsvd we off d => .haw (mkHaw 0b11#2 we off d)
  | .badAlign1 we off d => .haw (mkHaw size32 we off d)
  | .badAlign2 we off d => .haw (mkHaw size32 we off d)
  | .badAlign3 we off d => .haw (mkHaw size32 we off d)
  | .idle => .fsm Code.idle
  | .sDirOut => .fsm Code.sDirOut
  | .sDriveLow => .fsm Code.sDriveLow
  | .sHoldLow => .fsm Code.sHoldLow
  | .sDriveHigh => .fsm Code.sDriveHigh
  | .sHoldHigh => .fsm Code.sHoldHigh
  | .sDirIn => .fsm Code.sDirIn
  | .sRespWait => .fsm Code.sRespWait
  | .sSettle => .fsm Code.sSettle
  | .sBitRise => .fsm Code.sBitRise
  | .sBitDelay => .fsm Code.sBitDelay
  | .sBitSample => .fsm Code.sBitSample
  | .sBitFall => .fsm Code.sBitFall
  | .sByteEnd => .fsm Code.sByteEnd
  | .sCheck => .fsm Code.sCheck
  | .reservedF => .fsm Code.reservedF

/-- The decoder of a word of either format. -/
def decode : CodeWord → Instr
  | .haw w => decodeHaw w
  | .fsm c => decodeFsm c

/-! ## Bytes (log 10) -/

/-- Why a string of bytes is no word of the SWBB. -/
inductive DecodeError where
  /-- Neither one byte (an FSM code) nor six (a host access word). -/
  | badLength
  /-- An FSM code with one of the byte's upper four bits set. -/
  | fsmPadding
  /-- A host access word with one of bits 47:41 set. -/
  | hawPadding
  deriving DecidableEq, Repr

/-- `n` bytes of a number, the least significant first. -/
def littleEndian : Nat → Nat → List Byte
  | 0, _ => []
  | n + 1, v => BitVec.ofNat 8 v :: littleEndian n (v / 256)

/-- The number that bytes spell, the least significant first. -/
def fromLittleEndian : List Byte → Nat
  | [] => 0
  | b :: bs => b.toNat + 256 * fromLittleEndian bs

/-- A host access word from its number, unless a bit above bit 40 is set. -/
def hawOfNat (v : Nat) : Except DecodeError Instr :=
  if v < 2 ^ 41 then .ok (decodeHaw (BitVec.ofNat 41 v)) else .error .hawPadding

/-- An FSM code from its number, unless a bit above bit 3 is set. -/
def fsmOfNat (v : Nat) : Except DecodeError Instr :=
  if v < 16 then .ok (decodeFsm (BitVec.ofNat 4 v)) else .error .fsmPadding

/-- The decoder of bytes: one byte is an FSM code, six are a host access word, anything else is rejected. -/
def decodeBytes (bs : List Byte) : Except DecodeError Instr :=
  if bs.length = 1 then fsmOfNat (fromLittleEndian bs)
  else if bs.length = 6 then hawOfNat (fromLittleEndian bs)
  else .error .badLength

/-- The bytes of an instruction. -/
def encodeBytes (i : Instr) : List Byte :=
  match encode i with
  | .haw w => littleEndian 6 w.toNat
  | .fsm c => littleEndian 1 c.toNat

/-- Whether a table row of `nbits` bits is of the FSM format: an FSM row fixes 4 bits, a HAW row fixes bits
40:39 and so has more than 40. -/
def isFsmWidth (nbits : Nat) : Bool := nbits ≤ 32

/-- The instruction the decoder reads from a table word of `nbits` bits whose bits are `w`. -/
def decodeTableWord (nbits w : Nat) : Option Instr :=
  let n := if isFsmWidth nbits then 1 else 6
  if w < 256 ^ n then
    match decodeBytes (littleEndian n w) with
    | .ok i => some i
    | .error _ => none
  else none

/-! ## The opcode table as data (30_encoding.md R88 to R90) -/

/-- One row of spec/opcode_table.json: a word `w` is of the row when `w &&& mask = pattern`;
an FSM code is its four bits with zeros above. -/
structure Row where
  mask : Haw
  pattern : Haw
  deriving DecidableEq, Repr

/-- The mask SIZE, WE and ADDR (30_encoding.md R88). -/
abbrev maskFull : Haw := 0x1FF00000000#41

/-- The row an instruction stands for. -/
def tableRow : Instr → Row
  | .rdCtrl => ⟨maskFull, 0x10000000000#41⟩
  | .wrCtrl _ => ⟨maskFull, 0x14000000000#41⟩
  | .rdStatus => ⟨maskFull, 0x10400000000#41⟩
  | .wrStatus _ => ⟨maskFull, 0x14400000000#41⟩
  | .rdData => ⟨maskFull, 0x10800000000#41⟩
  | .wrData _ => ⟨maskFull, 0x14800000000#41⟩
  | .rdChk => ⟨maskFull, 0x10C00000000#41⟩
  | .wrChk _ => ⟨maskFull, 0x14C00000000#41⟩
  | .rdBudget => ⟨maskFull, 0x11000000000#41⟩
  | .wrBudget _ => ⟨maskFull, 0x15000000000#41⟩
  | .rdParam => ⟨maskFull, 0x11400000000#41⟩
  | .wrParam _ => ⟨maskFull, 0x15400000000#41⟩
  | .rdRsvdLow _ => ⟨0x1FB00000000#41, 0x11800000000#41⟩
  | .wrRsvdLow _ _ => ⟨0x1FB00000000#41, 0x15800000000#41⟩
  | .rdRsvdHigh _ => ⟨0x1E300000000#41, 0x12000000000#41⟩
  | .wrRsvdHigh _ _ => ⟨0x1E300000000#41, 0x16000000000#41⟩
  | .badSize8 _ _ _ => ⟨0x18000000000#41, 0x0#41⟩
  | .badSize16 _ _ _ => ⟨0x18000000000#41, 0x8000000000#41⟩
  | .badSizeRsvd _ _ _ => ⟨0x18000000000#41, 0x18000000000#41⟩
  | .badAlign1 _ _ _ => ⟨0x18300000000#41, 0x10100000000#41⟩
  | .badAlign2 _ _ _ => ⟨0x18300000000#41, 0x10200000000#41⟩
  | .badAlign3 _ _ _ => ⟨0x18300000000#41, 0x10300000000#41⟩
  | .idle => ⟨0xF#41, 0x0#41⟩
  | .sDirOut => ⟨0xF#41, 0x1#41⟩
  | .sDriveLow => ⟨0xF#41, 0x2#41⟩
  | .sHoldLow => ⟨0xF#41, 0x3#41⟩
  | .sDriveHigh => ⟨0xF#41, 0x4#41⟩
  | .sHoldHigh => ⟨0xF#41, 0x5#41⟩
  | .sDirIn => ⟨0xF#41, 0x6#41⟩
  | .sRespWait => ⟨0xF#41, 0x7#41⟩
  | .sSettle => ⟨0xF#41, 0x8#41⟩
  | .sBitRise => ⟨0xF#41, 0x9#41⟩
  | .sBitDelay => ⟨0xF#41, 0xA#41⟩
  | .sBitSample => ⟨0xF#41, 0xB#41⟩
  | .sBitFall => ⟨0xF#41, 0xC#41⟩
  | .sByteEnd => ⟨0xF#41, 0xD#41⟩
  | .sCheck => ⟨0xF#41, 0xE#41⟩
  | .reservedF => ⟨0xF#41, 0xF#41⟩

/-- Whether an instruction is a host access, of format HAW (30_encoding.md R88, R89), or an FSM code. -/
def Instr.isHostAccess (i : Instr) : Bool :=
  match encode i with
  | .haw _ => true
  | .fsm _ => false

/-- A word's bits, numbered as the table numbers them. -/
def CodeWord.bits : CodeWord → Haw
  | .haw w => w
  | .fsm c => c.setWidth 41

/-- Whether a word is of a row. -/
def Row.hits (r : Row) (w : Haw) : Bool := w &&& r.mask == r.pattern

end Sys2Proof
end

