-- ==== Sys2Proof/Config.lean ====
section
/-!
DEFINITION. Config.lean: what an implementation fixes (the parameters of 00_scope.md R7) and the free
values of the model. A parameter the spec leaves open is a constant with no body, so that a claim holds
whatever it is; where R7 gives it a constraint, the constraint is kept.
-/

namespace Sys2Proof.Config

/-- `BUDGET_RESET`: OPEN in 00_scope.md R7, any 32-bit value (log 5). -/
opaque budgetReset : Word

/-- A free byte behind `T_START_MS` (log 6). -/
opaque tStartFree : Byte

/-- A free byte behind `T_REL_US` (log 6). -/
opaque tRelFree : Byte

/-- `T_SETTLE_US`: any byte (00_scope.md R7, default 160; log 6). -/
opaque tSettleUs : Byte

/-- `T_BIT_US`: any byte (00_scope.md R7, default 30; log 6). -/
opaque tBitUs : Byte

/-- The constraint of `T_START_MS`, at least 18 (00_scope.md R7): every value that meets it is kept. -/
def keepStart (v : Byte) : Byte := if 18#8 ≤ v then v else 18#8

/-- The constraint of `T_REL_US`, 20 to 30 (00_scope.md R7): every value that meets it is kept. -/
def keepRel (v : Byte) : Byte := if 20#8 ≤ v ∧ v ≤ 30#8 then v else 25#8

/-- `T_START_MS` (00_scope.md R7). -/
def tStartMs : Byte := keepStart tStartFree

/-- `T_REL_US` (00_scope.md R7). -/
def tRelUs : Byte := keepRel tRelFree

/-- The number of the 64-byte block of the platform's address space that holds the window (log 7). -/
opaque windowBlock : Nat

/-- `SWBB_BASE`: OPEN and 64-byte aligned (00_scope.md R7, 20_memory.md R60). -/
def swbbBase : Nat := 64 * windowBlock

/-- The free value of a line read: the level the line environment answers to draw `n`, under no law
(40_sampler.md R124, 93_implementation_defined.md I1; log 2). -/
opaque lineDraw : Nat → Level

end Sys2Proof.Config
end

