-- ==== Sys2Proof/Machine/State.lean ====
section
/-!
DEFINITION. Machine/State.lean: the state of the SWBB as plain data (10_state.md R20 to R43), the reasons a
step can stop, and the state after reset. PARAM (R32) is hardwired and IRQ (R37) is a function of two
fields, so neither is a field here.
-/

namespace Sys2Proof.Machine

/-- The faults of the SWBB model (00_scope.md R11). -/
inductive Fault where
  /-- `F_ILLEGAL_STATE`: raised by the meaning of the FSM code 0xF (41_frame_decoder.md R150), and by the
  step of a state whose fault mark is set. Safe: no rule enters the code, and the model stops where the
  hardware's recovery is OPEN. -/
  | illegalState
  deriving DecidableEq, Repr

/-- The refusals of the SWBB model (00_scope.md R11). -/
inductive Refusal where
  /-- `RF_BAD_ACCESS`: raised by the meanings of the six rows whose access is not 32-bit aligned
  (20_memory.md R62). Safe: the bus response of a real SWBB is OPEN, and the mark it leaves says so. -/
  | badAccess
  /-- No meaning yet for the instruction; raised by no arm. Safe. -/
  | notModelled (mnemonic : String)
  deriving DecidableEq, Repr

/-- An event of the pin trace (00_scope.md R10). -/
inductive Event where
  /-- `Dir(OUT)`, `Dir(IN)`. -/
  | dir (d : Direction)
  /-- `Lvl(HIGH)`, `Lvl(LOW)`. -/
  | lvl (l : Level)
  /-- `DelayMs(n)`. -/
  | delayMs (n : Nat)
  /-- `DelayUs(n)`. -/
  | delayUs (n : Nat)
  /-- `Read(v)`. -/
  | read (l : Level)
  deriving DecidableEq, Repr

/-- One move of one agent (00_scope.md R6): a host access, the FSM's step, or the reset input
(70_reset_and_hazards.md R230). -/
inductive Move where
  | host (w : Haw)
  | fsm
  | reset
  deriving DecidableEq, Repr

/-- The state of the SWBB. The last four fields are the model's own (logs 1 to 4). -/
structure State where
  /-- CTRL.IE (10_state.md R22). -/
  ie : Bool
  /-- STATUS.BUSY (10_state.md R24). -/
  busy : Bool
  /-- STATUS.DONE (10_state.md R25). -/
  done : Bool
  /-- STATUS.VALID (10_state.md R26). -/
  valid : Bool
  /-- STATUS.OUTCOME (10_state.md R26). -/
  outcome : ReadOutcome
  /-- STATUS.RESP_TO (10_state.md R27). -/
  respTo : Bool
  /-- STATUS.BYTE_TO[4:0] (10_state.md R27). -/
  byteTo : BitVec 5
  /-- STATUS.SOVR (10_state.md R28). -/
  sovr : Bool
  /-- DATA (10_state.md R29). -/
  data : Word
  /-- CHK.SUM (10_state.md R30). -/
  sum : Byte
  /-- CHK.CRC (10_state.md R30). -/
  crc : Byte
  /-- BUDGET (10_state.md R31). -/
  budget : Word
  /-- W0, the humidity-integer byte (10_state.md R33). -/
  w0 : Byte
  /-- W1, the humidity-fraction byte. -/
  w1 : Byte
  /-- W2, the temperature-integer byte. -/
  w2 : Byte
  /-- W3, the temperature-fraction byte. -/
  w3 : Byte
  /-- W4, the checksum byte. -/
  w4 : Byte
  /-- SH, the bit-assembly shift register (10_state.md R33). -/
  sh : Byte
  /-- BIT_IDX (10_state.md R33). -/
  bitIdx : BitVec 3
  /-- BYTE_IDX (10_state.md R33). -/
  byteIdx : BitVec 3
  /-- CNT, the iteration counter (10_state.md R33). -/
  cnt : Word
  /-- BUD_L, the latched budget (10_state.md R33). -/
  budL : Word
  /-- ACC, the checksum accumulator (10_state.md R33). -/
  acc : Byte
  /-- ABRT (10_state.md R33). -/
  abrt : Bool
  /-- W_RESP_TO (10_state.md R33). -/
  wRespTo : Bool
  /-- W_BYTE_TO (10_state.md R33). -/
  wByteTo : BitVec 5
  /-- STATE, the program-counter analogue (10_state.md R35). -/
  fsmState : FsmCode
  /-- DIR (10_state.md R36). -/
  dir : Direction
  /-- OUT (10_state.md R36). -/
  out : Level
  /-- The pin trace, oldest event first (00_scope.md R10, 10_state.md R41). -/
  trace : List Event
  /-- The fault mark (10_state.md R41). -/
  faultMark : Option Fault
  /-- The refused mark (10_state.md R41). -/
  refusedMark : Option Refusal
  /-- The RDATA values returned to the host so far, oldest first (30_encoding.md R87; log 4). -/
  responses : List Word
  /-- The moves of the agents to come; where it is empty the FSM moves (20_memory.md R69; log 1). -/
  agenda : List Move
  /-- The line environment's next answers; past its end each answer is free (40_sampler.md R124; log 2). -/
  lineIn : List Level
  /-- How many free answers have been taken (log 3). -/
  drawCount : Nat
  deriving DecidableEq, Repr

/-- The state after reset (10_state.md R43, 70_reset_and_hazards.md R230). -/
def State.reset : State where
  ie := false
  busy := false
  done := false
  valid := false
  outcome := .success
  respTo := false
  byteTo := 0#5
  sovr := false
  data := 0#32
  sum := 0#8
  crc := 0#8
  budget := Config.budgetReset
  w0 := 0#8
  w1 := 0#8
  w2 := 0#8
  w3 := 0#8
  w4 := 0#8
  sh := 0#8
  bitIdx := 0#3
  byteIdx := 0#3
  cnt := 0#32
  budL := 0#32
  acc := 0#8
  abrt := false
  wRespTo := false
  wByteTo := 0#5
  fsmState := 0x0#4
  dir := .input
  out := .high
  trace := []
  faultMark := none
  refusedMark := none
  responses := []
  agenda := []
  lineIn := []
  drawCount := 0

end Sys2Proof.Machine
end

