-- ==== Sys2Proof/Machine/Flags.lean ====
section
/-!
DEFINITION. Machine/Flags.lean: every flag and status computation of the SWBB: the CTRL and STATUS words, IRQ,
write-1-to-clear, the timeout flags and the checksum comparison.
-/

namespace Sys2Proof.Machine

/-- CTRL as it reads: `{30'b0, IE, 1'b0}` (42_host_interface.md R172). -/
def ctrlWord (s : State) : Word := 0#30 ++ BitVec.ofBool s.ie ++ 0#1

/-- STATUS as it reads (42_host_interface.md R173): `{12'b0, STATE, 5'b0, SOVR, BYTE_TO, RESP_TO, OUTCOME,
VALID, DONE, BUSY}`. -/
def statusWord (s : State) : Word :=
  0#12 ++ s.fsmState ++ 0#5 ++ BitVec.ofBool s.sovr ++ s.byteTo ++ BitVec.ofBool s.respTo
    ++ s.outcome.bit ++ BitVec.ofBool s.valid ++ BitVec.ofBool s.done ++ BitVec.ofBool s.busy

/-- The interrupt output: `IRQ = CTRL.IE AND STATUS.DONE` (10_state.md R37). -/
def irq (s : State) : Bool := s.ie && s.done

/-- A write-1-to-clear flag after a write whose bit for it is `b` (42_host_interface.md R174). -/
def w1c (b flag : Bool) : Bool := flag && !b

/-- A START request, bit 0 of what is written to CTRL (10_state.md R22). -/
def startBit (d : Word) : Bool := d.getLsbD 0

/-- The IE bit of what is written to CTRL (10_state.md R22). -/
def ieBit (d : Word) : Bool := d.getLsbD 1

/-- The working timeout flags with byte `k`'s set: `W_BYTE_TO[k] <- 1` (41_frame_decoder.md R144). -/
def markByte (flags : BitVec 5) (k : BitVec 3) : BitVec 5 := flags ||| 1#5 <<< k.toNat

/-- `mismatch <- (ACC != W4)` as the two-valued outcome (41_frame_decoder.md R146). -/
def checkOutcome (acc crc : Byte) : ReadOutcome := if acc = crc then .success else .checksumMismatch

/-- The events of 60_exceptions.md R201: what each is, and the STATUS bit that reports it. -/
inductive ErrorEvent where
  | lineTimeoutResponse
  | lineTimeoutByte (k : Fin 5)
  | checksumMismatch
  | startOverrun
  deriving DecidableEq, Repr

/-- The code of an event: the position of its STATUS bit (60_exceptions.md R201). -/
def ErrorEvent.code : ErrorEvent → Nat
  | .lineTimeoutResponse => 4
  | .lineTimeoutByte k => 5 + k.val
  | .checksumMismatch => 3
  | .startOverrun => 10

/-- Whether STATUS reports an event (60_exceptions.md R201). -/
def reported (e : ErrorEvent) (s : State) : Bool := (statusWord s).getLsbD e.code

end Sys2Proof.Machine
end

