-- ==== Sys2Proof/Machine/Operands.lean ====
section
/-!
DEFINITION. Machine/Operands.lean: the operand forms: the window's registers as words and byte lanes, the
platform addresses that name them, and the constants an FSM state takes from the parameters.
-/

namespace Sys2Proof.Machine

/-- CHK as it reads: `{16'b0, SUM, CRC}` (42_host_interface.md R177). -/
def chkWord (s : State) : Word := 0#16 ++ s.sum ++ s.crc

/-- PARAM's layout (10_state.md R32). -/
def paramOf (tBit tSettle tRel tStart : Byte) : Word := tBit ++ tSettle ++ tRel ++ tStart

/-- PARAM, hardwired (42_host_interface.md R181). -/
def paramWord : Word := paramOf Config.tBitUs Config.tSettleUs Config.tRelUs Config.tStartMs

/-- DATA's layout: byte k of the frame in byte lane k (10_state.md R29). -/
def dataOf (b0 b1 b2 b3 : Byte) : Word := b3 ++ b2 ++ b1 ++ b0

/-- Byte lane `i` of a register: bits `[8i+7:8i]` (20_memory.md R65). -/
def byteLane (i : Fin 4) (w : Word) : Byte := w.extractLsb' (8 * i.val) 8

/-- The offset a platform address names, if it lies in the window (20_memory.md R60). -/
def offsetOf (base addr : Nat) : Option Offset :=
  if base ≤ addr ∧ addr < base + 64 then some (BitVec.ofNat 6 (addr - base)) else none

/-- The host access word of an access at a platform address (20_memory.md R60, 30_encoding.md R87). -/
def accessAt (addr : Nat) (size : BitVec 2) (we : Bool) (d : Word) : Option Haw :=
  (offsetOf Config.swbbBase addr).map fun off => mkHaw size we off d

/-- `{SH[6:0], b}` (41_frame_decoder.md R142). -/
def shiftIn (sh : Byte) (b : Level) : Byte := sh.extractLsb' 0 7 ++ b.bit

/-- The sentinel (00_scope.md R7). -/
def sentinel : Byte := 0xFF#8

/-- The byte a byte commit stores: the sentinel where the byte was aborted (41_frame_decoder.md R144). -/
def storedByte (abrt : Bool) (sh : Byte) : Byte := if abrt then sentinel else sh

end Sys2Proof.Machine
end

