-- ==== Sys2Proof/Machine/Ops.lean ====
section
/-!
DEFINITION. Machine/Ops.lean: the shared operations: the register window's one read and one write, the line
primitives and the WaitStep of 40_sampler.md, the byte and checksum commits of 41_frame_decoder.md, and the
recording of a fault or a refusal (00_scope.md R9). The SWBB takes no exceptions (60_exceptions.md R209).
-/

namespace Sys2Proof.Machine

/-- What a step or a meaning answers. -/
abbrev Result := Host.Outcome State Fault Refusal

/-! ## The FSM state register and the pin trace -/

/-- `state <- c` (00_scope.md R9). -/
def State.goto (c : FsmCode) (s : State) : State := { s with fsmState := c }

/-- Entry to a wait state clears the counter (40_sampler.md R113). -/
def State.enterWait (c : FsmCode) (s : State) : State := { s with cnt := 0#32, fsmState := c }

/-- Record an event in the pin trace (00_scope.md R10). -/
def State.emit (e : Event) (s : State) : State := { s with trace := s.trace ++ [e] }

/-! ## Line primitives (40_sampler.md R120 to R124) -/

/-- `SetDir(d)` (R122). -/
def setDir (d : Direction) (s : State) : State := State.emit (.dir d) { s with dir := d }

/-- `SetLvl(l)` (R123). -/
def setLvl (l : Level) (s : State) : State := State.emit (.lvl l) { s with out := l }

/-- `DelayMs(n)` (R120). -/
def delayMs (n : Byte) (s : State) : State := s.emit (.delayMs n.toNat)

/-- `DelayUs(n)` (R121). -/
def delayUs (n : Byte) (s : State) : State := s.emit (.delayUs n.toNat)

/-- `draw()`: the level the line environment answers now (R124; log 2). -/
def drawn (s : State) : Level := s.lineIn.headD (Config.lineDraw s.drawCount)

/-- The state once that answer is taken (log 2). -/
def takeDraw (s : State) : State :=
  { s with
    lineIn := s.lineIn.tail
    drawCount := if s.lineIn.isEmpty then s.drawCount + 1 else s.drawCount }

/-- The state after `LineRead()`, whose result is `drawn s` (R124). -/
def lineRead (s : State) : State := State.emit (.read (drawn s)) (takeDraw s)

/-! ## The wait (40_sampler.md R112) -/

/-- One pass of a wait for `target`: `timedOut` where the budget is used up, else one read, then `ok` where
the level is the target and one more failed poll where it is not (R112). -/
def waitStep (target : Level) (ok timedOut : State → State) (s : State) : State :=
  if s.budL ≤ s.cnt then timedOut s
  else if drawn s = target then ok (lineRead s)
  else { lineRead s with cnt := s.cnt + 1 }

/-! ## Bytes and the checksum (41_frame_decoder.md R139, R143 to R146) -/

/-- The start of a byte's first bit (R139, R144). -/
def beginByte (s : State) : State :=
  State.enterWait Code.sBitRise { s with bitIdx := 0#3, sh := 0#8, abrt := false }

/-- A bit wait's timeout: `ABRT <- 1; state <- S_BYTE_END` (R140, R143). -/
def abortByte (s : State) : State := State.goto Code.sByteEnd { s with abrt := true }

/-- The end of a bit whose fall was seen: the eighth bit ends the byte (R143). -/
def endBit (s : State) : State :=
  if s.bitIdx = 7#3 then s.goto Code.sByteEnd
  else State.enterWait Code.sBitRise { s with bitIdx := s.bitIdx + 1 }

/-- `W[k] <- v` (R144). There is no W5 to W7 (log 12). -/
def setByte (k : BitVec 3) (v : Byte) (s : State) : State :=
  { s with
    w0 := if k = 0#3 then v else s.w0
    w1 := if k = 1#3 then v else s.w1
    w2 := if k = 2#3 then v else s.w2
    w3 := if k = 3#3 then v else s.w3
    w4 := if k = 4#3 then v else s.w4 }

/-- The byte commit's first half: W, W_BYTE_TO and ACC (R144). -/
def commitByte (s : State) : State :=
  { setByte s.byteIdx (storedByte s.abrt s.sh) s with
    wByteTo := if s.abrt then markByte s.wByteTo s.byteIdx else s.wByteTo
    acc := if s.byteIdx < 4#3 then s.acc + storedByte s.abrt s.sh else s.acc }

/-- The byte commit's second half: the next byte, or the checksum after byte 4 (R144). -/
def nextByte (s : State) : State :=
  if s.byteIdx = 4#3 then s.goto Code.sCheck
  else beginByte { s with byteIdx := s.byteIdx + 1 }

/-- The atomic commit of the results (R146). -/
def commitResults (s : State) : State :=
  { s with
    data := dataOf s.w0 s.w1 s.w2 s.w3
    sum := s.acc
    crc := s.w4
    outcome := checkOutcome s.acc s.w4
    respTo := s.wRespTo
    byteTo := s.wByteTo
    valid := true
    done := true
    busy := false
    fsmState := Code.idle }

/-! ## The register window (20_memory.md R61, R64) -/

/-- The register at an offset as it reads. The one read of the window; it changes nothing (R68). -/
def readReg (off : Offset) (s : State) : Word :=
  if off = offCtrl then ctrlWord s
  else if off = offStatus then statusWord s
  else if off = offData then s.data
  else if off = offChk then chkWord s
  else if off = offBudget then s.budget
  else if off = offParam then paramWord
  else 0#32

/-- The window's byte at lane `i` of the register at `off` (20_memory.md R65). -/
def readLane (off : Offset) (i : Fin 4) (s : State) : Byte := byteLane i (readReg off s)

/-- The accepted START: the budget is latched and the working registers cleared (42_host_interface.md R171). -/
def acceptStart (s : State) : State :=
  { s with
    budL := s.budget
    w0 := 0#8
    w1 := 0#8
    w2 := 0#8
    w3 := 0#8
    w4 := 0#8
    sh := 0#8
    acc := 0#8
    bitIdx := 0#3
    byteIdx := 0#3
    cnt := 0#32
    abrt := false
    wRespTo := false
    wByteTo := 0#5
    busy := true
    done := false
    fsmState := Code.sDirOut }

/-- A START request: accepted in IDLE, else recorded as an overrun (42_host_interface.md R171). -/
def requestStart (s : State) : State :=
  if s.fsmState = Code.idle then acceptStart s else { s with sovr := true }

/-- A write of CTRL (42_host_interface.md R171). -/
def writeCtrl (d : Word) (s : State) : State :=
  if startBit d then requestStart { s with ie := ieBit d } else { s with ie := ieBit d }

/-- A write of STATUS (42_host_interface.md R174). -/
def writeStatus (d : Word) (s : State) : State :=
  { s with done := w1c (d.getLsbD 1) s.done, sovr := w1c (d.getLsbD 10) s.sovr }

/-- A write of BUDGET (42_host_interface.md R180). -/
def writeBudget (d : Word) (s : State) : State := { s with budget := d }

/-- The one write of the window: every offset but CTRL, STATUS and BUDGET ignores it (R64, R68). -/
def writeReg (off : Offset) (d : Word) (s : State) : State :=
  if off = offCtrl then writeCtrl d s
  else if off = offStatus then writeStatus d s
  else if off = offBudget then writeBudget d s
  else s

/-- Return RDATA to the host (30_encoding.md R87; log 4). -/
def State.respond (r : Word) (s : State) : State := { s with responses := s.responses ++ [r] }

/-- A defined read access (42_host_interface.md R170). -/
def hostRead (off : Offset) (s : State) : Result := .next (s.respond (readReg off s))

/-- A defined write access (42_host_interface.md R170). -/
def hostWrite (off : Offset) (d : Word) (s : State) : Result := .next (writeReg off d s)

/-! ## Faults, refusals and reset -/

/-- `refuse RF` marks the state refused (00_scope.md R9; log 8). -/
def State.markRefused (r : Refusal) (s : State) : State := { s with refusedMark := some r }

/-- `raise Fault(F)` leaves the fault mark (41_frame_decoder.md R150; log 9). -/
def State.markFault (f : Fault) (s : State) : State := { s with faultMark := some f }

/-- What the machine records of an agent's step: a fault or RF_BAD_ACCESS leaves its mark in the state the
step started from, and nothing else (20_memory.md R62, 41_frame_decoder.md R150; logs 8, 9). -/
def record (s : State) : Result → Result
  | .next t => .next t
  | .fault f => .next (s.markFault f)
  | .refused .badAccess => .next (s.markRefused .badAccess)
  | .refused r => .refused r

/-- The reset input: every piece of state at its reset value; the moves and the line's answers still to come
are the environment's and stay (70_reset_and_hazards.md R230, R231; log 13). -/
def resetInput (s : State) : State :=
  { State.reset with agenda := s.agenda, lineIn := s.lineIn, drawCount := s.drawCount }

/-- The move that comes next: the head of the agenda, and the FSM's where the agenda is empty (log 1). -/
def nextMove (s : State) : Move := s.agenda.headD .fsm

/-- The state once that move is taken off the agenda. -/
def State.popMove (s : State) : State := { s with agenda := s.agenda.tail }

/-- A host access and an FSM step in one clock cycle: the host access first (60_exceptions.md R207). -/
def sameCycle (w : Haw) : List Move := [.host w, .fsm]

end Sys2Proof.Machine
end

