-- ==== Sys2Proof/Machine/BadAccess.lean ====
section
/-!
DEFINITION. Machine/BadAccess.lean: the meanings of the accesses that are not 32-bit aligned. The spec refuses
them with RF_BAD_ACCESS, whatever the state and the operands (20_memory.md R62, 30_encoding.md R89); the step
records the mark (log 8).
-/

namespace Sys2Proof.Machine

/-- The refusal of an access, which the state and the operands do not change (20_memory.md R62). -/
def refuseAccess (_we : Bool) (_off : Offset) (_d : Word) (_s : State) : Result := .refused .badAccess

/-- SIZE = 0b00 (R89). -/
def execBadSize8 (we : Bool) (off : Offset) (d : Word) (s : State) : Result := refuseAccess we off d s

/-- SIZE = 0b01 (R89). -/
def execBadSize16 (we : Bool) (off : Offset) (d : Word) (s : State) : Result := refuseAccess we off d s

/-- SIZE = 0b11 (R89). -/
def execBadSizeRsvd (we : Bool) (off : Offset) (d : Word) (s : State) : Result := refuseAccess we off d s

/-- ADDR[1:0] = 0b01 (R89). -/
def execBadAlign1 (we : Bool) (off : Offset) (d : Word) (s : State) : Result := refuseAccess we off d s

/-- ADDR[1:0] = 0b10 (R89). -/
def execBadAlign2 (we : Bool) (off : Offset) (d : Word) (s : State) : Result := refuseAccess we off d s

/-- ADDR[1:0] = 0b11 (R89). -/
def execBadAlign3 (we : Bool) (off : Offset) (d : Word) (s : State) : Result := refuseAccess we off d s

end Sys2Proof.Machine
end

