-- ==== Sys2Proof/Machine/BitDecode.lean ====
section
/-!
DEFINITION. Machine/BitDecode.lean: the meanings of the response wait, the settle delay and the bit decode,
codes 0x7 to 0xC (41_frame_decoder.md).
-/

namespace Sys2Proof.Machine

/-- R138: one poll of the response wait; a timeout is recorded and the transaction proceeds. -/
def execSRespWait (s : State) : Result :=
  .next (waitStep .high (State.goto Code.sSettle)
    (fun t => State.goto Code.sSettle { t with wRespTo := true }) s)

/-- R139: `DelayUs(T_SETTLE_US)`, then byte 0, bit 0. -/
def execSSettle (s : State) : Result :=
  .next (beginByte { delayUs Config.tSettleUs s with byteIdx := 0#3 })

/-- R140: one poll for the start-of-bit marker. -/
def execSBitRise (s : State) : Result := .next (waitStep .high (State.goto Code.sBitDelay) abortByte s)

/-- R141: `DelayUs(T_BIT_US)`. -/
def execSBitDelay (s : State) : Result := .next ((delayUs Config.tBitUs s).goto Code.sBitSample)

/-- R142: one sample, shifted into SH. -/
def execSBitSample (s : State) : Result :=
  .next (State.enterWait Code.sBitFall { lineRead s with sh := shiftIn s.sh (drawn s) })

/-- R143: one poll for the end-of-bit marker. -/
def execSBitFall (s : State) : Result := .next (waitStep .low endBit abortByte s)

end Sys2Proof.Machine
end

