-- ==== Sys2Proof/Machine/Commit.lean ====
section
/-!
DEFINITION. Machine/Commit.lean: the meanings of the byte commit, the checksum validation and the illegal code,
codes 0xD to 0xF (41_frame_decoder.md).
-/

namespace Sys2Proof.Machine

/-- R144: the byte or the sentinel is stored and accumulated, then the next byte or the checksum. -/
def execSByteEnd (s : State) : Result := .next (nextByte (commitByte s))

/-- R146: the atomic commit of the results. -/
def execSCheck (s : State) : Result := .next (commitResults s)

/-- R150: `Fault(F_ILLEGAL_STATE)`, nothing written; the step records the mark (log 9). -/
def execReservedF (_s : State) : Result := .fault .illegalState

end Sys2Proof.Machine
end

