-- ==== Sys2Proof/Machine/HostRead.lean ====
section
/-!
DEFINITION. Machine/HostRead.lean: the meanings of the defined reads (42_host_interface.md).
-/

namespace Sys2Proof.Machine

/-- R172. -/
def execRdCtrl (s : State) : Result := hostRead offCtrl s

/-- R173. -/
def execRdStatus (s : State) : Result := hostRead offStatus s

/-- R175. -/
def execRdData (s : State) : Result := hostRead offData s

/-- R177. -/
def execRdChk (s : State) : Result := hostRead offChk s

/-- R179. -/
def execRdBudget (s : State) : Result := hostRead offBudget s

/-- R181. -/
def execRdParam (s : State) : Result := hostRead offParam s

/-- R183, offsets 0x18 and 0x1C. -/
def execRdRsvdLow (off : Offset) (s : State) : Result := hostRead off s

/-- R183, offsets 0x20 to 0x3C. -/
def execRdRsvdHigh (off : Offset) (s : State) : Result := hostRead off s

end Sys2Proof.Machine
end

