-- ==== Sys2Proof/Machine/HostWrite.lean ====
section
/-!
DEFINITION. Machine/HostWrite.lean: the meanings of the defined writes (42_host_interface.md).
-/

namespace Sys2Proof.Machine

/-- R171. -/
def execWrCtrl (d : Word) (s : State) : Result := hostWrite offCtrl d s

/-- R174. -/
def execWrStatus (d : Word) (s : State) : Result := hostWrite offStatus d s

/-- R176: ignored. -/
def execWrData (d : Word) (s : State) : Result := hostWrite offData d s

/-- R178: ignored. -/
def execWrChk (d : Word) (s : State) : Result := hostWrite offChk d s

/-- R180. -/
def execWrBudget (d : Word) (s : State) : Result := hostWrite offBudget d s

/-- R182: ignored. -/
def execWrParam (d : Word) (s : State) : Result := hostWrite offParam d s

/-- R184, offsets 0x18 and 0x1C: ignored. -/
def execWrRsvdLow (off : Offset) (d : Word) (s : State) : Result := hostWrite off d s

/-- R184, offsets 0x20 to 0x3C: ignored. -/
def execWrRsvdHigh (off : Offset) (d : Word) (s : State) : Result := hostWrite off d s

end Sys2Proof.Machine
end

