-- ==== Sys2Proof/Machine/StartSignal.lean ====
section
/-!
DEFINITION. Machine/StartSignal.lean: the meanings of IDLE and of the start signal and release, codes 0x0 to 0x6
(41_frame_decoder.md).
-/

namespace Sys2Proof.Machine

/-- R147: nothing happens in IDLE (log 14). -/
def execIdle (s : State) : Result := .next s

/-- R132: `SetDir(OUT)`. -/
def execSDirOut (s : State) : Result := .next ((setDir .output s).goto Code.sDriveLow)

/-- R133: `SetLvl(LOW)`. -/
def execSDriveLow (s : State) : Result := .next ((setLvl .low s).goto Code.sHoldLow)

/-- R134: `DelayMs(T_START_MS)`. -/
def execSHoldLow (s : State) : Result := .next ((delayMs Config.tStartMs s).goto Code.sDriveHigh)

/-- R135: `SetLvl(HIGH)`. -/
def execSDriveHigh (s : State) : Result := .next ((setLvl .high s).goto Code.sHoldHigh)

/-- R136: `DelayUs(T_REL_US)`. -/
def execSHoldHigh (s : State) : Result := .next ((delayUs Config.tRelUs s).goto Code.sDirIn)

/-- R137: `SetDir(IN)`. -/
def execSDirIn (s : State) : Result := .next ((setDir .input s).enterWait Code.sRespWait)

end Sys2Proof.Machine
end

