-- ==== Sys2Proof/Machine/Dispatch.lean ====
section
/-!
DEFINITION. Machine/Dispatch.lean: one arm per constructor of Instr.
-/

namespace Sys2Proof.Machine

def exec (i : Instr) (s : State) : Host.Outcome State Fault Refusal :=
  match i with
  | .rdCtrl => Sys2Proof.Machine.execRdCtrl s
  | .wrCtrl d => Sys2Proof.Machine.execWrCtrl d s
  | .rdStatus => Sys2Proof.Machine.execRdStatus s
  | .wrStatus d => Sys2Proof.Machine.execWrStatus d s
  | .rdData => Sys2Proof.Machine.execRdData s
  | .wrData d => Sys2Proof.Machine.execWrData d s
  | .rdChk => Sys2Proof.Machine.execRdChk s
  | .wrChk d => Sys2Proof.Machine.execWrChk d s
  | .rdBudget => Sys2Proof.Machine.execRdBudget s
  | .wrBudget d => Sys2Proof.Machine.execWrBudget d s
  | .rdParam => Sys2Proof.Machine.execRdParam s
  | .wrParam d => Sys2Proof.Machine.execWrParam d s
  | .rdRsvdLow off => Sys2Proof.Machine.execRdRsvdLow off s
  | .wrRsvdLow off d => Sys2Proof.Machine.execWrRsvdLow off d s
  | .rdRsvdHigh off => Sys2Proof.Machine.execRdRsvdHigh off s
  | .wrRsvdHigh off d => Sys2Proof.Machine.execWrRsvdHigh off d s
  | .badSize8 we off d => Sys2Proof.Machine.execBadSize8 we off d s
  | .badSize16 we off d => Sys2Proof.Machine.execBadSize16 we off d s
  | .badSizeRsvd we off d => Sys2Proof.Machine.execBadSizeRsvd we off d s
  | .badAlign1 we off d => Sys2Proof.Machine.execBadAlign1 we off d s
  | .badAlign2 we off d => Sys2Proof.Machine.execBadAlign2 we off d s
  | .badAlign3 we off d => Sys2Proof.Machine.execBadAlign3 we off d s
  | .idle => Sys2Proof.Machine.execIdle s
  | .sDirOut => Sys2Proof.Machine.execSDirOut s
  | .sDriveLow => Sys2Proof.Machine.execSDriveLow s
  | .sHoldLow => Sys2Proof.Machine.execSHoldLow s
  | .sDriveHigh => Sys2Proof.Machine.execSDriveHigh s
  | .sHoldHigh => Sys2Proof.Machine.execSHoldHigh s
  | .sDirIn => Sys2Proof.Machine.execSDirIn s
  | .sRespWait => Sys2Proof.Machine.execSRespWait s
  | .sSettle => Sys2Proof.Machine.execSSettle s
  | .sBitRise => Sys2Proof.Machine.execSBitRise s
  | .sBitDelay => Sys2Proof.Machine.execSBitDelay s
  | .sBitSample => Sys2Proof.Machine.execSBitSample s
  | .sBitFall => Sys2Proof.Machine.execSBitFall s
  | .sByteEnd => Sys2Proof.Machine.execSByteEnd s
  | .sCheck => Sys2Proof.Machine.execSCheck s
  | .reservedF => Sys2Proof.Machine.execReservedF s

end Sys2Proof.Machine
end

