-- ==== Sys2Proof/Machine/Step.lean ====
section
/-!
DEFINITION. Machine/Step.lean: one step of the whole machine: the head of the agenda moves, and where the agenda
is empty the FSM does (00_scope.md R6, 20_memory.md R69; log 1).
-/

namespace Sys2Proof.Machine

/-- One host access (42_host_interface.md R170). -/
def hostMove (w : Haw) (s : State) : Result := record s (exec (decodeHaw w) s)

/-- One FSM step: the rule of the current state (41_frame_decoder.md R131). -/
def fsmMove (s : State) : Result := record s (exec (decodeFsm s.fsmState) s)

/-- One move of one agent. A set fault mark has ended the run: only a reset goes on from it (00_scope.md R9,
10_state.md R41; log 9). -/
def moveStep (m : Move) (s : State) : Result :=
  match m, s.faultMark with
  | .reset, _ => .next (resetInput s)
  | _, some f => .fault f
  | .host w, none => hostMove w s
  | .fsm, none => fsmMove s

/-- One step. -/
def step (s : State) : Host.Outcome State Fault Refusal := moveStep (nextMove s) s.popMove

/-- The state with a table word placed where the next step fetches: an FSM code in STATE with the FSM's move
first, a host access word as the host's move first (log 17). -/
def State.withFetchWord (s : State) (nbits w : Nat) : State :=
  if isFsmWidth nbits then { s with fsmState := BitVec.ofNat 4 w, agenda := .fsm :: s.agenda }
  else { s with agenda := .host (BitVec.ofNat 41 w) :: s.agenda }

end Sys2Proof.Machine
end

