-- ==== Sys2Proof/Machine/Reading.lean ====
section
/-!
DEFINITION. Machine/Reading.lean: what the host's READ makes of the words it read (42_host_interface.md R185),
and the order in which a consumer publishes the bytes (30_encoding.md R86, informative).
-/

namespace Sys2Proof.Machine

/-- The source's RawReading (00_scope.md, glossary; 10_state.md R39). -/
structure RawReading where
  humidityInteger : Byte
  humidityFraction : Byte
  temperatureInteger : Byte
  temperatureFraction : Byte
  checksum : Byte
  deriving DecidableEq, Repr

/-- The reading in the words of DATA and CHK (42_host_interface.md R185). -/
def readingOf (d c : Word) : RawReading :=
  ⟨byteLane 0 d, byteLane 1 d, byteLane 2 d, byteLane 3 d, byteLane 0 c⟩

/-- The outcome in the word of STATUS (42_host_interface.md R185). -/
def outcomeOf (status : Word) : ReadOutcome :=
  if status.getLsbD 3 then .checksumMismatch else .success

/-- The consumer's order `temp_high, temp_low, hum_high, hum_low, crc` (30_encoding.md R86). -/
def published (r : RawReading) : List Byte :=
  [r.temperatureInteger, r.temperatureFraction, r.humidityInteger, r.humidityFraction, r.checksum]

/-- The checksum relation (30_encoding.md R85). -/
def RawReading.checksumHolds (r : RawReading) : Bool :=
  r.checksum == r.humidityInteger + r.humidityFraction + r.temperatureInteger + r.temperatureFraction

end Sys2Proof.Machine
end

