-- ==== Sys2Proof/Machine/Transaction.lean ====
section
/-!
DEFINITION. Machine/Transaction.lean: `wait_for_level` (40_sampler.md R111) and a whole transaction
(41_frame_decoder.md R130) as functions of the levels the line answers. The machine does not run them: they
are the procedures the spec says the state sequence equals.
-/

namespace Sys2Proof.Machine

/-- The levels the line environment will answer from this state on: answer `n` is taken by the `n`-th read
to come, counting from 0. -/
def upcoming (s : State) (n : Nat) : Level :=
  (s.lineIn.drop n).headD (Config.lineDraw (s.drawCount + (n - s.lineIn.length)))

/-- What `wait_for_level` answers, and the levels it read. -/
structure WaitResult where
  reached : Bool
  seen : List Level
  deriving DecidableEq, Repr

/-- The events its reads leave in the pin trace. -/
def WaitResult.events (r : WaitResult) : List Event := r.seen.map Event.read

/-- `wait_for_level(target, budget)` (R111), by recursion on the budget not yet used: no read at 0. -/
def waitForLevel (target : Level) : Nat → (Nat → Level) → WaitResult
  | 0, _ => ⟨false, []⟩
  | budget + 1, line =>
    if line 0 = target then ⟨true, [line 0]⟩
    else
      let r := waitForLevel target budget fun n => line (n + 1)
      ⟨r.reached, line 0 :: r.seen⟩

/-- Where a wait state goes when its wait ends (41_frame_decoder.md R138, R140, R143). -/
def waitExit (reached : Bool) (s : State) : FsmCode :=
  if s.fsmState = Code.sRespWait then Code.sSettle
  else if reached = false then Code.sByteEnd
  else if s.fsmState = Code.sBitRise then Code.sBitDelay
  else if s.bitIdx = 7#3 then Code.sByteEnd
  else Code.sBitRise

/-- What decoding some bits of a byte leaves: SH, ABRT, the number of the next read, and the events. -/
structure BitsResult where
  sh : Byte
  abrt : Bool
  next : Nat
  events : List Event
  deriving DecidableEq, Repr

/-- The loop over the bits of a byte (R130, step 5), from read number `pos` and with SH = `sh`. -/
def decodeBits (budget : Nat) (line : Nat → Level) : (bits : Nat) → (pos : Nat) → (sh : Byte) → BitsResult
  | 0, pos, sh => ⟨sh, false, pos, []⟩
  | bits + 1, pos, sh =>
    let rise := waitForLevel .high budget fun n => line (pos + n)
    let sample := pos + rise.seen.length
    let fall := waitForLevel .low budget fun n => line (sample + 1 + n)
    let after := sample + 1 + fall.seen.length
    let sh' := shiftIn sh (line sample)
    let events := rise.events ++ [.delayUs Config.tBitUs.toNat, .read (line sample)] ++ fall.events
    if rise.reached = false then ⟨sh, true, sample, rise.events⟩
    else if fall.reached = false then ⟨sh', true, after, events⟩
    else
      let r := decodeBits budget line bits after sh'
      ⟨r.sh, r.abrt, r.next, events ++ r.events⟩

/-- What decoding some bytes leaves: each byte as stored with its timeout flag, the number of the next read,
and the events. -/
structure BytesResult where
  bytes : List (Byte × Bool)
  next : Nat
  events : List Event
  deriving DecidableEq, Repr

/-- The loop over the bytes of a frame (R130, step 5). -/
def decodeFrame (budget : Nat) (line : Nat → Level) : (count : Nat) → (pos : Nat) → BytesResult
  | 0, pos => ⟨[], pos, []⟩
  | count + 1, pos =>
    let b := decodeBits budget line 8 pos 0#8
    let r := decodeFrame budget line count b.next
    ⟨(storedByte b.abrt b.sh, b.abrt) :: r.bytes, r.next, b.events ++ r.events⟩

/-- What a transaction leaves: RESP_TO, the five bytes with their timeout flags, the number of reads it made,
and its pin trace. -/
structure TransactionResult where
  respTo : Bool
  bytes : List (Byte × Bool)
  reads : Nat
  events : List Event
  deriving DecidableEq, Repr

/-- The transaction (R130). -/
def transaction (budget : Nat) (line : Nat → Level) : TransactionResult :=
  let resp := waitForLevel .high budget line
  let frame := decodeFrame budget line 5 resp.seen.length
  ⟨!resp.reached, frame.bytes, frame.next,
    [.dir .output, .lvl .low, .delayMs Config.tStartMs.toNat, .lvl .high, .delayUs Config.tRelUs.toNat, .dir .input]
      ++ resp.events ++ [.delayUs Config.tSettleUs.toNat] ++ frame.events⟩

/-- Byte `k` of a transaction as stored, and whether it timed out. -/
def TransactionResult.byte (r : TransactionResult) (k : Nat) : Byte := (r.bytes.getD k (0#8, false)).1
def TransactionResult.timedOut (r : TransactionResult) (k : Nat) : Bool := (r.bytes.getD k (0#8, false)).2

/-- How many reads a pin trace holds. -/
def readCount (events : List Event) : Nat := (events.filter fun e => e matches .read _).length

/-- The bits of a byte, most significant first (30_encoding.md R84). -/
def bitsMsbFirst (b : Byte) : List Level :=
  [7, 6, 5, 4, 3, 2, 1, 0].map fun i => if b.getLsbD i then Level.high else Level.low

/-- The reads of one bit cell when every poll succeeds at once: rise, sample, fall (95_test_vectors.md). -/
def bitReads (b : Level) : List Level := [.high, b, .low]

/-- The reads of one byte when every poll succeeds at once. -/
def byteReads (b : Byte) : List Level := (bitsMsbFirst b).flatMap bitReads

/-- The frame line `F(b0, b1, b2, b3, b4)` (95_test_vectors.md). -/
def frameReads (b0 b1 b2 b3 b4 : Byte) : List Level :=
  .high :: (byteReads b0 ++ byteReads b1 ++ byteReads b2 ++ byteReads b3 ++ byteReads b4)

end Sys2Proof.Machine
end

