-- ==== Sys2Proof/Safety.lean ====
section
/-!
DEFINITION. Safety.lean: what counts as a safe run, in the terms claims use: the marks (60_exceptions.md R217),
the FSM running alone, and the invariants of the registers (10_state.md R24, R34, R35 and what the FSM's rules
give).
-/

namespace Sys2Proof.Machine

/-- "No fault or refusal recorded" (60_exceptions.md R217). -/
abbrev Unmarked (s : State) : Prop := s.faultMark = none ∧ s.refusedMark = none

/-- The FSM runs alone: no host access or reset is to come, and no fault mark stops it. -/
abbrev Alone (s : State) : Prop := s.agenda = [] ∧ s.faultMark = none

/-- The host's run of `n` steps from a state. -/
abbrev run (n : Nat) (s : State) : Result := Sys2Proof.core.run n s

/-- Working byte W_k (10_state.md R33). -/
def workByte (k : Nat) (s : State) : Byte :=
  match k with
  | 0 => s.w0
  | 1 => s.w1
  | 2 => s.w2
  | 3 => s.w3
  | _ => s.w4

/-- Byte k of the committed reading: DATA's four bytes and CRC (10_state.md R39). -/
def committedByte (k : Nat) (s : State) : Byte :=
  match k with
  | 0 => byteLane 0 s.data
  | 1 => byteLane 1 s.data
  | 2 => byteLane 2 s.data
  | 3 => byteLane 3 s.data
  | _ => s.crc

/-- The sum of the data bytes before byte `k` (41_frame_decoder.md R145). -/
def sumBelow (k : BitVec 3) (s : State) : Byte :=
  match k.toNat with
  | 0 => 0#8
  | 1 => s.w0
  | 2 => s.w0 + s.w1
  | 3 => s.w0 + s.w1 + s.w2
  | _ => s.w0 + s.w1 + s.w2 + s.w3

/-- Control: STATE, BUSY, the indices, the counter and the working timeout flags. -/
structure ControlInv (s : State) : Prop where
  /-- Code 0xF is never entered (10_state.md R35). -/
  legal : s.fsmState ≠ Code.reservedF
  /-- BUSY = 1 exactly when STATE ≠ IDLE (10_state.md R24). -/
  busyIff : s.busy = true ↔ s.fsmState ≠ Code.idle
  /-- BYTE_IDX ∈ 0..4 (10_state.md R34). -/
  byteIdxLe : s.byteIdx ≤ 4#3
  /-- CNT ≤ BUD_L (10_state.md R34). -/
  cntLe : s.cnt ≤ s.budL
  /-- Before the first byte, BYTE_IDX is 0. -/
  firstByte : s.fsmState ≤ Code.sSettle → s.fsmState ≠ Code.idle → s.byteIdx = 0#3
  /-- The checksum is checked after byte 4 (41_frame_decoder.md R144). -/
  lastByte : s.fsmState = Code.sCheck → s.byteIdx = 4#3
  /-- No timeout flag of the current byte or a later one is set before that byte's commit
  (10_state.md R34 says it of the later ones). -/
  laterClear : s.fsmState ≠ Code.idle → s.fsmState ≠ Code.sCheck →
    ∀ k, s.byteIdx.toNat ≤ k → s.wByteTo.getLsbD k = false

/-- The line port: the line is driven in the states after S_DIR_OUT up to S_DIR_IN, LOW in those between
S_DRIVE_LOW and S_DRIVE_HIGH (41_frame_decoder.md R132 to R137). -/
structure LineInv (s : State) : Prop where
  dirIff : s.dir = .output ↔ Code.sDriveLow ≤ s.fsmState ∧ s.fsmState ≤ Code.sDirIn
  outIff : s.out = .low ↔ Code.sHoldLow ≤ s.fsmState ∧ s.fsmState ≤ Code.sDriveHigh

/-- The byte being decoded: SH holds no more bits than have been sampled, and ABRT is clear until a wait of the
byte times out (41_frame_decoder.md R139, R142, R144). -/
structure DecodeInv (s : State) : Prop where
  shBefore : Code.sBitRise ≤ s.fsmState → s.fsmState ≤ Code.sBitSample → s.sh.toNat < 2 ^ s.bitIdx.toNat
  shAfter : s.fsmState = Code.sBitFall → s.sh.toNat < 2 ^ (s.bitIdx.toNat + 1)
  notAborted : Code.sBitRise ≤ s.fsmState → s.fsmState ≤ Code.sBitFall → s.abrt = false

/-- The results: ACC and the sentinel during a transaction, and the committed words after it. -/
structure ResultInv (s : State) : Prop where
  /-- ACC is the sum of the data bytes committed so far (10_state.md R33, 41_frame_decoder.md R145). -/
  accSum : s.fsmState ≠ Code.idle → s.acc = sumBelow s.byteIdx s
  /-- A byte whose working flag is set holds the sentinel (41_frame_decoder.md R149). -/
  workSentinel : s.fsmState ≠ Code.idle → ∀ k < 5, s.wByteTo.getLsbD k = true → workByte k s = sentinel
  /-- CHK.SUM is the sum of DATA's bytes (10_state.md R30). -/
  sumData : s.sum = byteLane 0 s.data + byteLane 1 s.data + byteLane 2 s.data + byteLane 3 s.data
  /-- OUTCOME compares CHK.SUM and CHK.CRC (41_frame_decoder.md R151). -/
  outcomeCheck : s.outcome = checkOutcome s.sum s.crc
  /-- A byte whose BYTE_TO flag is set holds the sentinel (10_state.md R27). -/
  sentinelHeld : ∀ k < 5, s.byteTo.getLsbD k = true → committedByte k s = sentinel
  /-- While VALID = 0 the result fields hold their reset values (10_state.md R26). -/
  invalidZero : s.valid = false →
    s.data = 0#32 ∧ s.crc = 0#8 ∧ s.respTo = false ∧ s.byteTo = 0#5 ∧ s.done = false
  /-- DONE is clear while BUSY (42_host_interface.md R174). -/
  busyNotDone : s.busy = true → s.done = false

/-- The invariant of the SWBB. -/
structure Inv (s : State) : Prop where
  control : ControlInv s
  line : LineInv s
  decode : DecodeInv s
  result : ResultInv s

end Sys2Proof.Machine
end

