-- ==== Sys2Proof/Certificates/Slice0/Obligations.lean ====
section
/-!
DEFINITION. Certificates/Slice0/Obligations.lean: the statements for the provers.
-/

open Sys2Proof Sys2Proof.Machine

/-! ## Encoding -/

/-- Decoding an encoded well-formed instruction gives it back, every operand at every value the encoding admits
(30_encoding.md R87, R88, R90). -/
def Obligations.DecodeOfEncodeIsIdentity : Prop :=
  ∀ i : Instr, i.wellFormed = true → decode (encode i) = i

/-- The same through bytes and through table words. The byte layout is the model's choice (log 10). -/
def Obligations.DecodeOfBytesAndTableWords : Prop :=
  (∀ i : Instr, i.wellFormed = true → decodeBytes (encodeBytes i) = .ok i) ∧
  (∀ w : Haw, decodeTableWord 48 w.toNat = some (decodeHaw w)) ∧
  (∀ c : FsmCode, decodeTableWord 8 c.toNat = some (decodeFsm c))

/-- Every word matches exactly one row, and SIZE, WE and ADDR alone select it (30_encoding.md R88). -/
def Obligations.EveryWordMatchesExactlyOneRow : Prop :=
  ∀ w : Haw,
    (tableRow (decodeHaw w)).hits w = true ∧
    (∀ i : Instr, i.isHostAccess = true → (tableRow i).hits w = true → tableRow i = tableRow (decodeHaw w)) ∧
    (∀ v : Haw, hawSize v = hawSize w → hawWe v = hawWe w → hawAddr v = hawAddr w →
      tableRow (decodeHaw v) = tableRow (decodeHaw w))

/-- What the decoder reads is well formed, and encodes to the word in canonical form: a read's WDATA is written
as 0 (30_encoding.md R87). -/
def Obligations.DecodedInstructionIsCanonical : Prop :=
  (∀ w : Haw, (decodeHaw w).wellFormed = true ∧
    encode (decodeHaw w) =
      .haw (mkHaw (hawSize w) (hawWe w) (hawAddr w) (if hawWe w then hawWdata w else 0#32))) ∧
  (∀ c : FsmCode, (decodeFsm c).wellFormed = true ∧ encode (decodeFsm c) = .fsm c)

/-- Words of 95_test_vectors.md, section 5, and codes of 30_encoding.md R90. -/
def Obligations.SpecWordsDecodeToTheirInstructions : Prop :=
  decodeHaw 0x10400000000#41 = .rdStatus ∧
  decodeHaw 0x14000000003#41 = .wrCtrl 3#32 ∧
  decodeHaw 0x144FFFFFFFD#41 = .wrStatus 0xFFFFFFFD#32 ∧
  decodeHaw 0x13C00000000#41 = .rdRsvdHigh 0x3C#6 ∧
  decodeHaw 0x0C400000002#41 = .badSize16 true 0x04#6 2#32 ∧
  decodeHaw 0x10600000000#41 = .badAlign2 false 0x06#6 0#32 ∧
  decodeFsm 0xB#4 = .sBitSample ∧
  decodeFsm 0xF#4 = .reservedF

/-! ## The step -/

/-- A host access at the head of the agenda runs as the instruction its word decodes to (42_host_interface.md
R170). A refusal leaves its mark and nothing else, and the machine goes on (log 8). -/
def Obligations.StepRunsTheHostAccess : Prop :=
  ∀ (s : State) (w : Haw) (rest : List Move), s.agenda = .host w :: rest → s.faultMark = none →
    let s' := { s with agenda := rest }
    (∀ t, exec (decodeHaw w) s' = .next t → step s = .next t) ∧
    (exec (decodeHaw w) s' = .refused .badAccess → step s = .next { s' with refusedMark := some .badAccess })

/-- The FSM's move, at the head of the agenda or where the agenda is empty, runs the operation of the code in
STATE (41_frame_decoder.md R131). -/
def Obligations.StepRunsTheFsmState : Prop :=
  ∀ (s : State) (rest : List Move), (s.agenda = .fsm :: rest ∨ (s.agenda = [] ∧ rest = [])) → s.faultMark = none →
    let s' := { s with agenda := rest }
    (∀ t, exec (decodeFsm s.fsmState) s' = .next t → step s = .next t) ∧
    (∀ f, exec (decodeFsm s.fsmState) s' = .fault f → step s = .next { s' with faultMark := some f })

/-- A table word placed by `withFetchWord` is the one the very next step runs (log 17). -/
def Obligations.FetchWordRunsNext : Prop :=
  ∀ s : State, s.faultMark = none →
    (∀ (w : Haw) (t : State), exec (decodeHaw w) s = .next t → step (s.withFetchWord 48 w.toNat) = .next t) ∧
    (∀ (c : FsmCode) (t : State), exec (decodeFsm c) { s with fsmState := c } = .next t →
      step (s.withFetchWord 8 c.toNat) = .next t)

/-- The state after reset (10_state.md R43). -/
def Obligations.ResetHoldsTheSpecsValues : Prop :=
  let s := State.reset
  readReg offCtrl s = 0#32 ∧ readReg offStatus s = 0#32 ∧ readReg offData s = 0#32 ∧ readReg offChk s = 0#32 ∧
  readReg offBudget s = Config.budgetReset ∧
  readReg offParam s = Config.tBitUs ++ Config.tSettleUs ++ Config.tRelUs ++ Config.tStartMs ∧
  (∀ k < 5, workByte k s = 0#8) ∧ s.sh = 0#8 ∧ s.acc = 0#8 ∧
  s.bitIdx = 0#3 ∧ s.byteIdx = 0#3 ∧ s.abrt = false ∧ s.wRespTo = false ∧ s.wByteTo = 0#5 ∧
  s.cnt = 0#32 ∧ s.budL = 0#32 ∧ s.fsmState = Code.idle ∧ s.dir = .input ∧ s.out = .high ∧ irq s = false ∧
  s.trace = [] ∧ s.faultMark = none ∧ s.refusedMark = none

/-- The reset input puts every piece of SWBB state at its reset value, in the middle of a transaction and under
a fault mark alike (70_reset_and_hazards.md R231). The moves and line answers to come stay (log 13). -/
def Obligations.ResetInputAbandonsTheTransaction : Prop :=
  ∀ (s : State) (rest : List Move), s.agenda = .reset :: rest →
    step s = .next
      { State.reset with agenda := rest, lineIn := s.lineIn, drawCount := s.drawCount }

/-- A set fault mark has ended the run: every move but a reset answers the fault (00_scope.md R9; log 9). -/
def Obligations.FaultMarkEndsTheRun : Prop :=
  ∀ (s : State) (f : Fault), s.faultMark = some f → s.agenda.head? ≠ some .reset → step s = .fault f

/-! ## Host reads -/

/-- `rd STATUS` returns the flags, each at its bit, and changes nothing (42_host_interface.md R173). -/
def Obligations.RdStatusReturnsEveryField : Prop :=
  ∀ s : State, ∃ r : Word, exec .rdStatus s = .next { s with responses := s.responses ++ [r] } ∧
    r.getLsbD 0 = s.busy ∧ r.getLsbD 1 = s.done ∧ r.getLsbD 2 = s.valid ∧
    (r.getLsbD 3 = true ↔ s.outcome = .checksumMismatch) ∧ r.getLsbD 4 = s.respTo ∧
    r.extractLsb' 5 5 = s.byteTo ∧ r.getLsbD 10 = s.sovr ∧ r.extractLsb' 11 5 = 0#5 ∧
    r.extractLsb' 16 4 = s.fsmState ∧ r.extractLsb' 20 12 = 0#12

/-- `rd CTRL`, `rd DATA`, `rd CHK`, `rd BUDGET` and `rd PARAM` return their registers and change nothing
(42_host_interface.md R172, R175, R177, R179, R181). -/
def Obligations.ReadsReturnTheirRegisters : Prop :=
  ∀ s : State,
    exec .rdCtrl s = .next { s with responses := s.responses ++ [0#30 ++ BitVec.ofBool s.ie ++ 0#1] } ∧
    exec .rdData s = .next { s with responses := s.responses ++ [s.data] } ∧
    exec .rdChk s = .next { s with responses := s.responses ++ [0#16 ++ s.sum ++ s.crc] } ∧
    exec .rdBudget s = .next { s with responses := s.responses ++ [s.budget] } ∧
    exec .rdParam s = .next { s with responses := s.responses ++
      [Config.tBitUs ++ Config.tSettleUs ++ Config.tRelUs ++ Config.tStartMs] }

/-- A read of a reserved offset returns 0 and changes nothing (42_host_interface.md R183). -/
def Obligations.ReservedReadsReturnZero : Prop :=
  ∀ (s : State) (off : Offset),
    (off = 0x18#6 ∨ off = 0x1C#6 → exec (.rdRsvdLow off) s = .next { s with responses := s.responses ++ [0#32] }) ∧
    (0x20#6 ≤ off ∧ off.extractLsb' 0 2 = 0#2 →
      exec (.rdRsvdHigh off) s = .next { s with responses := s.responses ++ [0#32] })

/-! ## Host writes -/

/-- `wr CTRL, d`: IE, and the START request accepted in IDLE and recorded as an overrun elsewhere
(42_host_interface.md R171). -/
def Obligations.WrCtrlSetsEnableAndRequestsStart : Prop :=
  ∀ (d : Word) (s : State),
    (d.getLsbD 0 = false → exec (.wrCtrl d) s = .next { s with ie := d.getLsbD 1 }) ∧
    (d.getLsbD 0 = true → s.fsmState = Code.idle → exec (.wrCtrl d) s = .next { s with
      ie := d.getLsbD 1, budL := s.budget,
      w0 := 0#8, w1 := 0#8, w2 := 0#8, w3 := 0#8, w4 := 0#8, sh := 0#8, acc := 0#8,
      bitIdx := 0#3, byteIdx := 0#3, cnt := 0#32, abrt := false, wRespTo := false, wByteTo := 0#5,
      busy := true, done := false, fsmState := Code.sDirOut }) ∧
    (d.getLsbD 0 = true → s.fsmState ≠ Code.idle →
      exec (.wrCtrl d) s = .next { s with ie := d.getLsbD 1, sovr := true })

/-- `wr STATUS, d` clears DONE where bit 1 is 1 and SOVR where bit 10 is 1, and nothing else
(42_host_interface.md R174). -/
def Obligations.WrStatusClearsByWritingOne : Prop :=
  ∀ (d : Word) (s : State), exec (.wrStatus d) s = .next { s with
    done := if d.getLsbD 1 then false else s.done
    sovr := if d.getLsbD 10 then false else s.sovr }

/-- `wr BUDGET, d` sets BUDGET and leaves BUD_L, so the transaction in progress keeps its budget
(42_host_interface.md R180). -/
def Obligations.WrBudgetSetsTheRegisterOnly : Prop :=
  ∀ (d : Word) (s : State), exec (.wrBudget d) s = .next { s with budget := d }

/-- Writes of DATA, CHK, PARAM and the reserved offsets are ignored (42_host_interface.md R176, R178, R182,
R184). -/
def Obligations.WritesOfReadOnlySpaceAreIgnored : Prop :=
  ∀ (d : Word) (s : State),
    exec (.wrData d) s = .next s ∧ exec (.wrChk d) s = .next s ∧ exec (.wrParam d) s = .next s ∧
    (∀ off : Offset, off = 0x18#6 ∨ off = 0x1C#6 → exec (.wrRsvdLow off d) s = .next s) ∧
    (∀ off : Offset, 0x20#6 ≤ off ∧ off.extractLsb' 0 2 = 0#2 → exec (.wrRsvdHigh off d) s = .next s)

/-- The six rows of 30_encoding.md R89 are refused with RF_BAD_ACCESS, in every state and for every operand. -/
def Obligations.BadAccessRowsAreRefused : Prop :=
  ∀ (we : Bool) (off : Offset) (d : Word) (s : State),
    exec (.badSize8 we off d) s = .refused .badAccess ∧ exec (.badSize16 we off d) s = .refused .badAccess ∧
    exec (.badSizeRsvd we off d) s = .refused .badAccess ∧ exec (.badAlign1 we off d) s = .refused .badAccess ∧
    exec (.badAlign2 we off d) s = .refused .badAccess ∧ exec (.badAlign3 we off d) s = .refused .badAccess

/-- An access is refused exactly when it is not 32 bits wide at an aligned offset; the refused access leaves
its mark and no other change (20_memory.md R62; log 8). -/
def Obligations.OnlyAlignedWordAccessesAreDefined : Prop :=
  ∀ (w : Haw) (s : State),
    (exec (decodeHaw w) s = .refused .badAccess ↔ ¬ (hawSize w = 0b10#2 ∧ (hawAddr w).extractLsb' 0 2 = 0b00#2)) ∧
    (s.agenda.head? = some (.host w) → s.faultMark = none →
      ¬ (hawSize w = 0b10#2 ∧ (hawAddr w).extractLsb' 0 2 = 0b00#2) →
      step s = .next { s with agenda := s.agenda.tail, refusedMark := some .badAccess })

/-- A write changes no byte of the register window but those of the register it names, and of STATUS for a
write of CTRL; a read changes none (20_memory.md R68). -/
def Obligations.AccessesKeepTheOtherWindowBytes : Prop :=
  ∀ (w : Haw) (s t : State) (off : Offset) (k : Fin 4), exec (decodeHaw w) s = .next t →
    (hawWe w = true → off ≠ hawAddr w → ¬ (hawAddr w = offCtrl ∧ off = offStatus) →
      readLane off k t = readLane off k s) ∧
    (hawWe w = false → readLane off k t = readLane off k s)

/-! ## The FSM's operations -/

/-- The start signal (41_frame_decoder.md R132, R133, R134). -/
def Obligations.StartSignalDrivesTheLineLow : Prop :=
  ∀ s : State,
    exec .sDirOut s = .next { s with
      dir := .output, trace := s.trace ++ [.dir .output], fsmState := Code.sDriveLow } ∧
    exec .sDriveLow s = .next { s with
      out := .low, trace := s.trace ++ [.lvl .low], fsmState := Code.sHoldLow } ∧
    exec .sHoldLow s = .next { s with
      trace := s.trace ++ [.delayMs Config.tStartMs.toNat], fsmState := Code.sDriveHigh } ∧
    18 ≤ Config.tStartMs.toNat

/-- The release (41_frame_decoder.md R135, R136, R137). -/
def Obligations.ReleaseHandsTheLineOver : Prop :=
  ∀ s : State,
    exec .sDriveHigh s = .next { s with
      out := .high, trace := s.trace ++ [.lvl .high], fsmState := Code.sHoldHigh } ∧
    exec .sHoldHigh s = .next { s with
      trace := s.trace ++ [.delayUs Config.tRelUs.toNat], fsmState := Code.sDirIn } ∧
    exec .sDirIn s = .next { s with
      dir := .input, trace := s.trace ++ [.dir .input], cnt := 0#32, fsmState := Code.sRespWait } ∧
    20 ≤ Config.tRelUs.toNat ∧ Config.tRelUs.toNat ≤ 30

/-- A line read takes the environment's next answer and records it; where none is waiting the answer is the
free value (40_sampler.md R124; log 2). -/
def Obligations.LineReadRecordsTheDrawnLevel : Prop :=
  (∀ (s : State) (l : Level) (rest : List Level), s.lineIn = l :: rest →
    drawn s = l ∧ lineRead s = { s with trace := s.trace ++ [.read l], lineIn := rest }) ∧
  (∀ s : State, s.lineIn = [] →
    drawn s = Config.lineDraw s.drawCount ∧
    lineRead s = { s with
      trace := s.trace ++ [.read (Config.lineDraw s.drawCount)], drawCount := s.drawCount + 1 })

/-- One poll of the response wait: a timeout is recorded and the transaction proceeds (41_frame_decoder.md
R138). -/
def Obligations.RespWaitPollsOrProceeds : Prop :=
  ∀ s : State,
    (s.budL ≤ s.cnt → exec .sRespWait s = .next { s with wRespTo := true, fsmState := Code.sSettle }) ∧
    (s.cnt < s.budL → drawn s = .high → exec .sRespWait s = .next { lineRead s with fsmState := Code.sSettle }) ∧
    (s.cnt < s.budL → drawn s = .low → exec .sRespWait s = .next { lineRead s with cnt := s.cnt + 1 })

/-- The settle delay and the rise-to-sample delay (41_frame_decoder.md R139, R141). -/
def Obligations.SettleAndBitDelayOnlyDelay : Prop :=
  ∀ s : State,
    exec .sSettle s = .next { s with
      trace := s.trace ++ [.delayUs Config.tSettleUs.toNat], byteIdx := 0#3, bitIdx := 0#3, sh := 0#8,
      abrt := false, cnt := 0#32, fsmState := Code.sBitRise } ∧
    exec .sBitDelay s = .next { s with
      trace := s.trace ++ [.delayUs Config.tBitUs.toNat], fsmState := Code.sBitSample }

/-- One poll for the start-of-bit marker (41_frame_decoder.md R140). -/
def Obligations.BitRisePollsOrAborts : Prop :=
  ∀ s : State,
    (s.budL ≤ s.cnt → exec .sBitRise s = .next { s with abrt := true, fsmState := Code.sByteEnd }) ∧
    (s.cnt < s.budL → drawn s = .high → exec .sBitRise s = .next { lineRead s with fsmState := Code.sBitDelay }) ∧
    (s.cnt < s.budL → drawn s = .low → exec .sBitRise s = .next { lineRead s with cnt := s.cnt + 1 })

/-- The one sample of a bit, shifted into SH (41_frame_decoder.md R142). -/
def Obligations.BitSampleShiftsOneReadIn : Prop :=
  ∀ s : State, exec .sBitSample s = .next { lineRead s with
    sh := s.sh.extractLsb' 0 7 ++ (drawn s).bit, cnt := 0#32, fsmState := Code.sBitFall }

/-- One poll for the end-of-bit marker: the next bit, or the byte's end after the eighth
(41_frame_decoder.md R143). -/
def Obligations.BitFallPollsOrAborts : Prop :=
  ∀ s : State,
    (s.budL ≤ s.cnt → exec .sBitFall s = .next { s with abrt := true, fsmState := Code.sByteEnd }) ∧
    (s.cnt < s.budL → drawn s = .low → s.bitIdx = 7#3 →
      exec .sBitFall s = .next { lineRead s with fsmState := Code.sByteEnd }) ∧
    (s.cnt < s.budL → drawn s = .low → s.bitIdx ≠ 7#3 →
      exec .sBitFall s = .next { lineRead s with
        bitIdx := s.bitIdx + 1, cnt := 0#32, fsmState := Code.sBitRise }) ∧
    (s.cnt < s.budL → drawn s = .high → exec .sBitFall s = .next { lineRead s with cnt := s.cnt + 1 })

/-- The byte commit (41_frame_decoder.md R144), for BYTE_IDX in 0..4 (10_state.md R34). -/
def Obligations.ByteEndStoresAndAccumulates : Prop :=
  ∀ s : State, s.byteIdx ≤ 4#3 → ∃ t : State,
    let k := s.byteIdx.toNat
    let v := if s.abrt then 0xFF#8 else s.sh
    exec .sByteEnd s = .next t ∧
    (∀ j < 5, workByte j t = if j = k then v else workByte j s) ∧
    (∀ j < 5, t.wByteTo.getLsbD j = if j = k then s.abrt || s.wByteTo.getLsbD j else s.wByteTo.getLsbD j) ∧
    t.acc = (if k < 4 then s.acc + v else s.acc) ∧
    (if k = 4 then
      t = { s with
        w0 := t.w0, w1 := t.w1, w2 := t.w2, w3 := t.w3, w4 := t.w4, wByteTo := t.wByteTo, acc := t.acc,
        fsmState := Code.sCheck }
    else
      t = { s with
        w0 := t.w0, w1 := t.w1, w2 := t.w2, w3 := t.w3, w4 := t.w4, wByteTo := t.wByteTo, acc := t.acc,
        byteIdx := s.byteIdx + 1, bitIdx := 0#3, sh := 0#8, abrt := false, cnt := 0#32,
        fsmState := Code.sBitRise })

/-- The checksum validation and the atomic commit (41_frame_decoder.md R146). -/
def Obligations.CheckCommitsTheResults : Prop :=
  ∀ s : State, exec .sCheck s = .next { s with
    data := s.w3 ++ s.w2 ++ s.w1 ++ s.w0, sum := s.acc, crc := s.w4,
    outcome := if s.acc = s.w4 then .success else .checksumMismatch,
    respTo := s.wRespTo, byteTo := s.wByteTo, valid := true, done := true, busy := false,
    fsmState := Code.idle }

/-- In IDLE the FSM does nothing (41_frame_decoder.md R147; log 14). -/
def Obligations.IdleChangesNothing : Prop := ∀ s : State, exec .idle s = .next s

/-- The illegal code faults and writes nothing but the mark (41_frame_decoder.md R150; log 9). -/
def Obligations.IllegalCodeFaults : Prop :=
  ∀ s : State,
    exec .reservedF s = .fault .illegalState ∧
    (s.fsmState = Code.reservedF → nextMove s = .fsm → s.faultMark = none →
      step s = .next { s with agenda := s.agenda.tail, faultMark := some .illegalState })

/-! ## Whole-machine rules -/

/-- Only the commit step writes DATA, CHK, OUTCOME, RESP_TO, BYTE_TO and VALID (10_state.md R26, R27, R29,
R30). -/
def Obligations.OnlyTheCommitWritesResults : Prop :=
  ∀ (s t : State), step s = .next t → s.agenda.head? ≠ some .reset →
    ¬ (nextMove s = .fsm ∧ s.fsmState = Code.sCheck) →
    t.data = s.data ∧ t.sum = s.sum ∧ t.crc = s.crc ∧ t.outcome = s.outcome ∧ t.respTo = s.respTo ∧
      t.byteTo = s.byteTo ∧ t.valid = s.valid

/-- Only an accepted START leaves IDLE, and only the commit step or a reset enters it (10_state.md R35,
41_frame_decoder.md R131). -/
def Obligations.OnlyStartLeavesIdleAndOnlyCommitEntersIt : Prop :=
  ∀ (s t : State), step s = .next t →
    (s.fsmState = Code.idle → t.fsmState ≠ Code.idle →
      ∃ w d, nextMove s = .host w ∧ decodeHaw w = .wrCtrl d ∧ d.getLsbD 0 = true) ∧
    (s.fsmState ≠ Code.idle → t.fsmState = Code.idle →
      nextMove s = .reset ∨ (nextMove s = .fsm ∧ s.fsmState = Code.sCheck))

/-- No host access disturbs a transaction in progress: it can change IE, DONE, SOVR, BUDGET, the refused mark
and what has been returned to the host, and nothing else (41_frame_decoder.md R131, 42_host_interface.md R187). -/
def Obligations.HostAccessLeavesTheTransactionAlone : Prop :=
  ∀ (s t : State) (w : Haw), nextMove s = .host w → s.fsmState ≠ Code.idle → step s = .next t →
    t = { s with
      agenda := s.agenda.tail, ie := t.ie, done := t.done, sovr := t.sovr, budget := t.budget,
      refusedMark := t.refusedMark, responses := t.responses }

/-- The FSM reads none of the STATUS flags, nor IE, BUDGET, the refused mark, the returned words and the moves to
come: an operation has the same effect whatever they hold. It leaves them as they are, but for the commit step,
which writes BUSY, DONE, VALID, OUTCOME, RESP_TO and BYTE_TO, the same values in both runs (10_state.md R38,
42_host_interface.md R180). -/
def Obligations.FsmIgnoresTheHostRegisters : Prop :=
  ∀ (c : FsmCode) (s t : State), exec (decodeFsm c) s = .next t →
    ∀ (busy done valid respTo sovr : Bool) (outcome : ReadOutcome) (byteTo : BitVec 5)
      (ie : Bool) (budget : Word) (responses : List Word) (mark : Option Refusal) (agenda : List Move),
      exec (decodeFsm c)
        { s with busy, done, valid, outcome, respTo, byteTo, sovr,
                 ie, budget, responses, refusedMark := mark, agenda } =
      .next (if c = Code.sCheck then
          { t with sovr, ie, budget, responses, refusedMark := mark, agenda }
        else
          { t with busy, done, valid, outcome, respTo, byteTo, sovr,
                   ie, budget, responses, refusedMark := mark, agenda })

/-- A refused mark is never cleared but by a reset, and the pin trace only grows (10_state.md R41, 00_scope.md
R10). The model's own readings: the words returned to the host, a field of the model, only grow (log 4), and a
step that goes on without a reset starts without a fault mark (log 9). -/
def Obligations.MarksPersistAndTracesGrow : Prop :=
  ∀ (s t : State), step s = .next t → s.agenda.head? ≠ some .reset →
    (s.refusedMark ≠ none → t.refusedMark ≠ none) ∧ s.faultMark = none ∧
    s.trace <+: t.trace ∧ s.responses <+: t.responses

/-- SOVR is cleared only by a STATUS write with bit 10 = 1, or a reset, and is set only by a START written
while STATE ≠ IDLE (10_state.md R28, 60_exceptions.md R205). -/
def Obligations.OverrunIsStickyUntilCleared : Prop :=
  ∀ (s t : State), step s = .next t →
    (s.sovr = true → t.sovr = false →
      nextMove s = .reset ∨ ∃ w d, nextMove s = .host w ∧ decodeHaw w = .wrStatus d ∧ d.getLsbD 10 = true) ∧
    (s.sovr = false → t.sovr = true →
      s.fsmState ≠ Code.idle ∧ ∃ w d, nextMove s = .host w ∧ decodeHaw w = .wrCtrl d ∧ d.getLsbD 0 = true)

/-- DONE is set only by the commit step, and cleared only by a STATUS write with bit 1 = 1, an accepted START
or a reset (10_state.md R25). -/
def Obligations.DoneIsSetByTheCommitOnly : Prop :=
  ∀ (s t : State), step s = .next t →
    (s.done = false → t.done = true → nextMove s = .fsm ∧ s.fsmState = Code.sCheck) ∧
    (s.done = true → t.done = false →
      nextMove s = .reset ∨
      (∃ w d, nextMove s = .host w ∧ decodeHaw w = .wrStatus d ∧ d.getLsbD 1 = true) ∨
      (s.fsmState = Code.idle ∧ ∃ w d, nextMove s = .host w ∧ decodeHaw w = .wrCtrl d ∧ d.getLsbD 0 = true))

/-- IRQ is IE AND DONE: a commit raises it exactly when IE = 1, and it falls when DONE is cleared or IE is
written 0 (10_state.md R37, 60_exceptions.md R206). -/
def Obligations.IrqFollowsDoneAndEnable : Prop :=
  ∀ s t : State,
    (irq s = true ↔ s.ie = true ∧ s.done = true) ∧
    (exec .sCheck s = .next t → irq t = s.ie) ∧
    (∀ d : Word, d.getLsbD 1 = true → exec (.wrStatus d) s = .next t → irq t = false) ∧
    (∀ d : Word, d.getLsbD 1 = false → exec (.wrCtrl d) s = .next t → irq t = false) ∧
    (∀ d : Word, d.getLsbD 0 = true → s.fsmState = Code.idle → exec (.wrCtrl d) s = .next t → irq t = false)

/-- A host access in the commit's cycle comes first: clearing DONE loses no completion, a START is refused and
sets SOVR, and a read returns the values from before the commit (60_exceptions.md R207). -/
def Obligations.HostAccessPrecedesTheCommit : Prop :=
  ∀ (s : State) (w : Haw) (rest : List Move), s.fsmState = Code.sCheck → s.faultMark = none →
    s.agenda = sameCycle w ++ rest →
    ∃ t, run 2 s = .next t ∧ t.fsmState = Code.idle ∧ t.done = true ∧
      (∀ d, decodeHaw w = .wrCtrl d → d.getLsbD 0 = true → t.sovr = true ∧ t.busy = false) ∧
      (hawSize w = size32 → hawWe w = false → (hawAddr w).extractLsb' 0 2 = 0#2 →
        t.responses = s.responses ++ [readReg (hawAddr w) s])

/-- The window: a platform address in it names the offset it lies at, no other address names one, and byte
lane i of a register carries its bits 8i+7 to 8i (20_memory.md R60, R65). -/
def Obligations.AddressesNameOffsetsAndLanes : Prop :=
  (∀ k : Nat, k < 64 → offsetOf Config.swbbBase (Config.swbbBase + k) = some (BitVec.ofNat 6 k)) ∧
  (∀ a : Nat, a < Config.swbbBase ∨ Config.swbbBase + 64 ≤ a → offsetOf Config.swbbBase a = none) ∧
  Config.swbbBase % 64 = 0 ∧
  (∀ (r : Word) (i : Fin 4) (j : Nat), j < 8 → (byteLane i r).getLsbD j = r.getLsbD (8 * i.val + j)) ∧
  (∀ s : State,
    readLane offData 0 (commitResults s) = s.w0 ∧ readLane offData 1 (commitResults s) = s.w1 ∧
    readLane offData 2 (commitResults s) = s.w2 ∧ readLane offData 3 (commitResults s) = s.w3)

/-- STATUS reports each error event at the bit that is its code (60_exceptions.md R201). -/
def Obligations.StatusBitsAreTheEventCodes : Prop :=
  ∀ s : State,
    reported .lineTimeoutResponse s = s.respTo ∧ (∀ k : Fin 5, reported (.lineTimeoutByte k) s = s.byteTo.getLsbD k) ∧
    (reported .checksumMismatch s = true ↔ s.outcome = .checksumMismatch) ∧ reported .startOverrun s = s.sovr

/-! ## Invariants -/

/-- The invariant holds after reset (10_state.md R43). -/
def Obligations.ResetMeetsTheInvariant : Prop := Inv State.reset

/-- Every step keeps the control invariant: STATE is never 0xF, BUSY = 1 exactly when STATE ≠ IDLE, BYTE_IDX ≤ 4,
CNT ≤ BUD_L, and no flag of a later byte is set (10_state.md R24, R34, R35). -/
def Obligations.StepKeepsControlInvariant : Prop :=
  ∀ s t : State, ControlInv s → step s = .next t → ControlInv t

/-- Every step keeps the line invariant: the line is driven only during the start signal and release
(41_frame_decoder.md R132 to R137). -/
def Obligations.StepKeepsLineInvariant : Prop :=
  ∀ s t : State, ControlInv s → LineInv s → step s = .next t → LineInv t

/-- Every step keeps the whole invariant: control, line, decode and results. -/
def Obligations.StepKeepsTheInvariant : Prop :=
  ∀ s t : State, Inv s → step s = .next t → Inv t

/-- From a legal state without a fault mark, every step goes on and no fault arises: no rule enters 0xF
(41_frame_decoder.md R150). That a refused access and the FSM's move in IDLE go on is the model's reading (log 8,
log 14). -/
def Obligations.LegalStatesNeverFault : Prop :=
  ∀ s : State, ControlInv s → s.faultMark = none → ∃ t, step s = .next t ∧ t.faultMark = none

/-- The line is read only while it is not driven: a step that records a read starts with DIR = 0 and is one of
the four reading states (40_sampler.md R124). -/
def Obligations.ReadsHappenOnlyWhileUndriven : Prop :=
  ∀ (s t : State) (l : Level), Inv s → step s = .next t → t.trace = s.trace ++ [.read l] →
    s.dir = .input ∧ (s.fsmState = Code.sRespWait ∨ s.fsmState = Code.sBitRise ∨ s.fsmState = Code.sBitSample ∨
      s.fsmState = Code.sBitFall)

/-- The checksum law: after the commit, OUTCOME = 0 exactly when DATA's four bytes sum to CHK[7:0] modulo 256,
equivalently when CHK[15:8] = CHK[7:0] (41_frame_decoder.md R151). -/
def Obligations.OutcomeIsTheChecksumLaw : Prop :=
  ∀ s t : State, Inv s → s.fsmState = Code.sCheck → exec .sCheck s = .next t →
    (t.outcome = .success ↔
      byteLane 0 t.data + byteLane 1 t.data + byteLane 2 t.data + byteLane 3 t.data = byteLane 0 (chkWord t)) ∧
    (t.outcome = .success ↔ byteLane 1 (chkWord t) = byteLane 0 (chkWord t))

/-- A transaction in which every byte timed out reports ChecksumMismatch, with sum 0xFC (41_frame_decoder.md
R152). -/
def Obligations.FiveSentinelsAreAMismatch : Prop :=
  ∀ s t : State, Inv s → s.fsmState = Code.sCheck → s.wByteTo = 0b11111#5 → exec .sCheck s = .next t →
    t.outcome = .checksumMismatch ∧ t.sum = 0xFC#8 ∧ t.crc = 0xFF#8 ∧ t.data = 0xFFFFFFFF#32

/-- The response wait's result changes nothing but W_RESP_TO and what it commits (41_frame_decoder.md R153): two
runs from states that differ in W_RESP_TO alone reach the same states, read the same levels and store the same
bytes; and so do two runs from S_SETTLE, where the line's answers still to come are the same, whatever the two
waits left in W_RESP_TO, the pin trace and CNT, as a timed-out and a successful wait do. -/
def Obligations.ResponseTimeoutChangesItsFlagOnly : Prop :=
  (∀ (n : Nat) (s t : State) (b : Bool), Alone s → run n s = .next t →
    ∃ u, run n { s with wRespTo := b } = .next u ∧ u = { t with wRespTo := u.wRespTo, respTo := u.respTo }) ∧
  (∀ (n : Nat) (s t : State) (b : Bool) (trace : List Event) (cnt : Word) (lineIn : List Level) (drawCount : Nat),
    Alone s → s.fsmState = Code.sSettle →
    let s' := { s with wRespTo := b, trace, cnt, lineIn, drawCount }
    upcoming s' = upcoming s → run n s = .next t →
    ∃ u, run n s' = .next u ∧
      u = { t with
        wRespTo := b, respTo := u.respTo, trace := u.trace, cnt := u.cnt, lineIn := u.lineIn,
        drawCount := u.drawCount } ∧
      (∃ events, t.trace = s.trace ++ events ∧ u.trace = trace ++ events) ∧
      upcoming u = upcoming t ∧ (0 < n → u.cnt = t.cnt) ∧
      (if t.fsmState = Code.idle then t.respTo = s.wRespTo ∧ u.respTo = b else u.respTo = t.respTo))

/-! ## The sampler and whole transactions -/

/-- `wait_for_level(L, B)`: true after exactly j+1 reads where the first match is read j+1 with j < B, false
after exactly B reads where none of B matches, whatever the polarity, and so no read at B = 0
(40_sampler.md R111, R114, R115). -/
def Obligations.WaitForLevelReadsAtMostItsBudget : Prop :=
  ∀ (target : Level) (budget : Nat) (line : Nat → Level),
    (∀ j < budget, (∀ i < j, line i ≠ target) → line j = target →
      waitForLevel target budget line = ⟨true, (List.range (j + 1)).map line⟩) ∧
    ((∀ i < budget, line i ≠ target) →
      waitForLevel target budget line = ⟨false, (List.range budget).map line⟩)

/-- The WaitSteps of a wait state, from entry to exit, perform `wait_for_level`: the same reads in the same
order, the same result, one step a read and one more for a timeout (40_sampler.md R112). -/
def Obligations.WaitStatesPerformWaitForLevel : Prop :=
  ∀ (s : State) (target : Level), Alone s → s.cnt = 0#32 →
    (((s.fsmState = Code.sRespWait ∨ s.fsmState = Code.sBitRise) ∧ target = .high) ∨
      (s.fsmState = Code.sBitFall ∧ target = .low)) →
    let r := waitForLevel target s.budL.toNat (upcoming s)
    let n := r.seen.length + (if r.reached then 0 else 1)
    (∀ j < n, ∃ t, run j s = .next t ∧ t.fsmState = s.fsmState) ∧
    ∃ t, run n s = .next t ∧ t.fsmState = waitExit r.reached s ∧ t.trace = s.trace ++ r.events ∧
      (∀ k, upcoming t k = upcoming s (r.seen.length + k)) ∧
      t.wRespTo = (s.wRespTo || (s.fsmState == Code.sRespWait && !r.reached)) ∧
      t.abrt = (s.abrt || (s.fsmState != Code.sRespWait && !r.reached))

/-- The samples of a byte in time order are its bits from the most significant down (41_frame_decoder.md R148,
30_encoding.md R84). -/
def Obligations.FirstSampleIsTheMostSignificantBit : Prop :=
  ∀ samples : List Level, samples.length ≤ 8 →
    (samples.foldl shiftIn 0#8).toNat =
      samples.foldl (fun v l => 2 * v + (if l = .high then 1 else 0)) 0

/-- A transaction, run by the FSM from the state an accepted START leaves, is the procedure of
41_frame_decoder.md R130: the same pin trace, bytes, flags and outcome, and the same number of reads. -/
def Obligations.TransactionIsTheProcedure : Prop :=
  ∀ s : State, Alone s → s.fsmState = Code.sDirOut → s.acc = 0#8 → s.wRespTo = false → s.wByteTo = 0#5 →
    let r := transaction s.budL.toNat (upcoming s)
    ∃ (n : Nat) (t : State), run n s = .next t ∧
      (∀ j < n, ∃ u, run j s = .next u ∧ u.fsmState ≠ Code.idle) ∧
      t.fsmState = Code.idle ∧ t.busy = false ∧ t.done = true ∧ t.valid = true ∧
      t.trace = s.trace ++ r.events ∧ (∀ k, upcoming t k = upcoming s (r.reads + k)) ∧
      t.data = dataOf (r.byte 0) (r.byte 1) (r.byte 2) (r.byte 3) ∧ t.crc = r.byte 4 ∧
      t.sum = r.byte 0 + r.byte 1 + r.byte 2 + r.byte 3 ∧
      t.outcome = checkOutcome t.sum t.crc ∧ t.respTo = r.respTo ∧
      (∀ k < 5, t.byteTo.getLsbD k = r.timedOut k)

/-- Every transaction ends: from S_DIR_OUT it takes at least 19 and at most 81·B + 99 FSM steps and makes at
most 81·B + 40 line reads, B being BUD_L (41_frame_decoder.md R154). -/
def Obligations.EveryTransactionEndsInBound : Prop :=
  ∀ s : State, Alone s → s.fsmState = Code.sDirOut →
    ∃ (n : Nat) (t : State) (events : List Event), 19 ≤ n ∧ n ≤ 81 * s.budL.toNat + 99 ∧ run n s = .next t ∧
      (∀ j < n, ∃ u, run j s = .next u ∧ u.fsmState ≠ Code.idle) ∧ t.fsmState = Code.idle ∧
      t.done = true ∧ t.valid = true ∧ t.trace = s.trace ++ events ∧
      readCount events ≤ 81 * s.budL.toNat + 40

/-- A frame whose every poll succeeds at once is read in 174 FSM steps after the START, for every five bytes and
every budget from 1 on: the host's READ gives the five bytes, and Success exactly when the checksum law holds
(95_test_vectors.md V-L1-1, 42_host_interface.md R185). -/
def Obligations.CleanFrameIsReadCorrectly : Prop :=
  ∀ (s : State) (w : Haw) (d : Word) (b0 b1 b2 b3 b4 : Byte) (rest : List Level),
    s.faultMark = none → s.fsmState = Code.idle → 1#32 ≤ s.budget → s.agenda = [.host w] →
    decodeHaw w = .wrCtrl d → d.getLsbD 0 = true → s.lineIn = frameReads b0 b1 b2 b3 b4 ++ rest →
    ∃ t, run 175 s = .next t ∧ t.fsmState = Code.idle ∧ t.done = true ∧ t.valid = true ∧ t.lineIn = rest ∧
      readingOf (readReg offData t) (readReg offChk t) = ⟨b0, b1, b2, b3, b4⟩ ∧
      (outcomeOf (readReg offStatus t) = .success ↔ b4 = b0 + b1 + b2 + b3) ∧
      t.respTo = false ∧ t.byteTo = 0#5

/-- With BUDGET = 0 every wait times out at its first step: a transaction takes 19 FSM steps, reads nothing and
commits five sentinels (40_sampler.md R115, 95_test_vectors.md V-E2E-Z). -/
def Obligations.BudgetZeroCommitsFiveSentinels : Prop :=
  ∀ s : State, Alone s → s.fsmState = Code.sDirOut → s.budL = 0#32 → s.acc = 0#8 → s.wByteTo = 0#5 →
    ∃ t, run 19 s = .next t ∧ t.fsmState = Code.idle ∧ t.lineIn = s.lineIn ∧ t.drawCount = s.drawCount ∧
      t.data = 0xFFFFFFFF#32 ∧ t.sum = 0xFC#8 ∧ t.crc = 0xFF#8 ∧ t.outcome = .checksumMismatch ∧
      t.respTo = true ∧ t.byteTo = 0b11111#5 ∧
      t.trace = s.trace ++ [.dir .output, .lvl .low, .delayMs Config.tStartMs.toNat, .lvl .high,
        .delayUs Config.tRelUs.toNat, .dir .input, .delayUs Config.tSettleUs.toNat]
end

