-- ==== Sys2Proof/Laws/Encoding.lean ====
section
/-!
SUPPORT. Laws/Encoding.lean: the bits and the four fields of a host access word, and what the decoder answers
on them.
-/

namespace Sys2Proof

/-- Every bit of a host access word (30_encoding.md R87). -/
theorem mkHaw_getLsbD (size : BitVec 2) (we : Bool) (off : Offset) (d : Word) (i : Nat) :
    (mkHaw size we off d).getLsbD i =
      if i < 32 then d.getLsbD i
      else if i < 38 then off.getLsbD (i - 32)
      else if i < 39 then we
      else size.getLsbD (i - 39) := by
  show BitVec.getLsbD (w := 2 + 1 + 6 + 32) (size ++ BitVec.ofBool we ++ off ++ d) i = _
  simp only [BitVec.getLsbD_append]
  by_cases h1 : i < 32
  · simp [h1]
  · by_cases h2 : i < 38
    · simp [h1, h2, show i - 32 < 6 by omega]
    · by_cases h3 : i < 39
      · obtain rfl : i = 38 := by omega
        simp
      · simp [h1, h2, h3, show ¬ i - 32 < 6 by omega, show ¬ i - 32 - 6 < 1 by omega,
          show i - 32 - 6 - 1 = i - 39 by omega]

@[simp] theorem hawSize_mkHaw (size : BitVec 2) (we : Bool) (off : Offset) (d : Word) :
    hawSize (mkHaw size we off d) = size := by
  ext i hi
  simp [hawSize, ← BitVec.getLsbD_eq_getElem, mkHaw_getLsbD, hi, show ¬ 39 + i < 32 by omega,
    show ¬ 39 + i < 38 by omega]

@[simp] theorem hawWe_mkHaw (size : BitVec 2) (we : Bool) (off : Offset) (d : Word) :
    hawWe (mkHaw size we off d) = we := by
  rw [hawWe, mkHaw_getLsbD]
  rfl

@[simp] theorem hawAddr_mkHaw (size : BitVec 2) (we : Bool) (off : Offset) (d : Word) :
    hawAddr (mkHaw size we off d) = off := by
  ext i hi
  simp [hawAddr, ← BitVec.getLsbD_eq_getElem, mkHaw_getLsbD, hi, show 32 + i < 38 by omega]

@[simp] theorem hawWdata_mkHaw (size : BitVec 2) (we : Bool) (off : Offset) (d : Word) :
    hawWdata (mkHaw size we off d) = d := by
  ext i hi
  simp [hawWdata, ← BitVec.getLsbD_eq_getElem, mkHaw_getLsbD, hi]

/-- A word is its four fields. -/
theorem mkHaw_fields (w : Haw) : mkHaw (hawSize w) (hawWe w) (hawAddr w) (hawWdata w) = w := by
  ext i hi
  rw [← BitVec.getLsbD_eq_getElem, ← BitVec.getLsbD_eq_getElem, mkHaw_getLsbD]
  simp only [hawSize, hawWe, hawAddr, hawWdata, BitVec.getLsbD_extractLsb']
  split_ifs with h1 h2 h3
  · simp [h1]
  · simp [show i - 32 < 6 by omega, show 32 + (i - 32) = i by omega]
  · obtain rfl : i = 38 := by omega
    rfl
  · simp [show i - 39 < 2 by omega, show 39 + (i - 39) = i by omega]

/-- The decoder on a word given by its fields. -/
theorem decodeHaw_mkHaw (size : BitVec 2) (we : Bool) (off : Offset) (d : Word) :
    decodeHaw (mkHaw size we off d) = decodeFields size we off (carriedWdata we d) := by
  simp [decodeHaw]

/-- Whether a word is of a row depends on the row's bits only. -/
theorem Row.hits_iff (r : Row) (w : Haw) :
    r.hits w = true ↔ ∀ i < 41, (w.getLsbD i && r.mask.getLsbD i) = r.pattern.getLsbD i := by
  simp only [Row.hits, beq_iff_eq]
  constructor
  · intro h i _
    rw [← h, BitVec.getLsbD_and]
  · intro h
    ext i hi
    simpa [← BitVec.getLsbD_eq_getElem] using h i hi

end Sys2Proof
end

