-- ==== Sys2Proof/Laws/State.lean ====
section
/-!
SUPPORT. Laws/State.lean: what each named update of the state leaves in each field, so that no later proof
unfolds a record update.
-/

namespace Sys2Proof.Machine

variable (s : State)

@[simp] theorem goto_ie (c : FsmCode) : (s.goto c).ie = s.ie := rfl
@[simp] theorem goto_busy (c : FsmCode) : (s.goto c).busy = s.busy := rfl
@[simp] theorem goto_done (c : FsmCode) : (s.goto c).done = s.done := rfl
@[simp] theorem goto_valid (c : FsmCode) : (s.goto c).valid = s.valid := rfl
@[simp] theorem goto_outcome (c : FsmCode) : (s.goto c).outcome = s.outcome := rfl
@[simp] theorem goto_respTo (c : FsmCode) : (s.goto c).respTo = s.respTo := rfl
@[simp] theorem goto_byteTo (c : FsmCode) : (s.goto c).byteTo = s.byteTo := rfl
@[simp] theorem goto_sovr (c : FsmCode) : (s.goto c).sovr = s.sovr := rfl
@[simp] theorem goto_data (c : FsmCode) : (s.goto c).data = s.data := rfl
@[simp] theorem goto_sum (c : FsmCode) : (s.goto c).sum = s.sum := rfl
@[simp] theorem goto_crc (c : FsmCode) : (s.goto c).crc = s.crc := rfl
@[simp] theorem goto_budget (c : FsmCode) : (s.goto c).budget = s.budget := rfl
@[simp] theorem goto_w0 (c : FsmCode) : (s.goto c).w0 = s.w0 := rfl
@[simp] theorem goto_w1 (c : FsmCode) : (s.goto c).w1 = s.w1 := rfl
@[simp] theorem goto_w2 (c : FsmCode) : (s.goto c).w2 = s.w2 := rfl
@[simp] theorem goto_w3 (c : FsmCode) : (s.goto c).w3 = s.w3 := rfl
@[simp] theorem goto_w4 (c : FsmCode) : (s.goto c).w4 = s.w4 := rfl
@[simp] theorem goto_sh (c : FsmCode) : (s.goto c).sh = s.sh := rfl
@[simp] theorem goto_bitIdx (c : FsmCode) : (s.goto c).bitIdx = s.bitIdx := rfl
@[simp] theorem goto_byteIdx (c : FsmCode) : (s.goto c).byteIdx = s.byteIdx := rfl
@[simp] theorem goto_cnt (c : FsmCode) : (s.goto c).cnt = s.cnt := rfl
@[simp] theorem goto_budL (c : FsmCode) : (s.goto c).budL = s.budL := rfl
@[simp] theorem goto_acc (c : FsmCode) : (s.goto c).acc = s.acc := rfl
@[simp] theorem goto_abrt (c : FsmCode) : (s.goto c).abrt = s.abrt := rfl
@[simp] theorem goto_wRespTo (c : FsmCode) : (s.goto c).wRespTo = s.wRespTo := rfl
@[simp] theorem goto_wByteTo (c : FsmCode) : (s.goto c).wByteTo = s.wByteTo := rfl
@[simp] theorem goto_fsmState (c : FsmCode) : (s.goto c).fsmState = c := rfl
@[simp] theorem goto_dir (c : FsmCode) : (s.goto c).dir = s.dir := rfl
@[simp] theorem goto_out (c : FsmCode) : (s.goto c).out = s.out := rfl
@[simp] theorem goto_trace (c : FsmCode) : (s.goto c).trace = s.trace := rfl
@[simp] theorem goto_faultMark (c : FsmCode) : (s.goto c).faultMark = s.faultMark := rfl
@[simp] theorem goto_refusedMark (c : FsmCode) : (s.goto c).refusedMark = s.refusedMark := rfl
@[simp] theorem goto_responses (c : FsmCode) : (s.goto c).responses = s.responses := rfl
@[simp] theorem goto_agenda (c : FsmCode) : (s.goto c).agenda = s.agenda := rfl
@[simp] theorem goto_lineIn (c : FsmCode) : (s.goto c).lineIn = s.lineIn := rfl
@[simp] theorem goto_drawCount (c : FsmCode) : (s.goto c).drawCount = s.drawCount := rfl

@[simp] theorem enterWait_ie (c : FsmCode) : (s.enterWait c).ie = s.ie := rfl
@[simp] theorem enterWait_busy (c : FsmCode) : (s.enterWait c).busy = s.busy := rfl
@[simp] theorem enterWait_done (c : FsmCode) : (s.enterWait c).done = s.done := rfl
@[simp] theorem enterWait_valid (c : FsmCode) : (s.enterWait c).valid = s.valid := rfl
@[simp] theorem enterWait_outcome (c : FsmCode) : (s.enterWait c).outcome = s.outcome := rfl
@[simp] theorem enterWait_respTo (c : FsmCode) : (s.enterWait c).respTo = s.respTo := rfl
@[simp] theorem enterWait_byteTo (c : FsmCode) : (s.enterWait c).byteTo = s.byteTo := rfl
@[simp] theorem enterWait_sovr (c : FsmCode) : (s.enterWait c).sovr = s.sovr := rfl
@[simp] theorem enterWait_data (c : FsmCode) : (s.enterWait c).data = s.data := rfl
@[simp] theorem enterWait_sum (c : FsmCode) : (s.enterWait c).sum = s.sum := rfl
@[simp] theorem enterWait_crc (c : FsmCode) : (s.enterWait c).crc = s.crc := rfl
@[simp] theorem enterWait_budget (c : FsmCode) : (s.enterWait c).budget = s.budget := rfl
@[simp] theorem enterWait_w0 (c : FsmCode) : (s.enterWait c).w0 = s.w0 := rfl
@[simp] theorem enterWait_w1 (c : FsmCode) : (s.enterWait c).w1 = s.w1 := rfl
@[simp] theorem enterWait_w2 (c : FsmCode) : (s.enterWait c).w2 = s.w2 := rfl
@[simp] theorem enterWait_w3 (c : FsmCode) : (s.enterWait c).w3 = s.w3 := rfl
@[simp] theorem enterWait_w4 (c : FsmCode) : (s.enterWait c).w4 = s.w4 := rfl
@[simp] theorem enterWait_sh (c : FsmCode) : (s.enterWait c).sh = s.sh := rfl
@[simp] theorem enterWait_bitIdx (c : FsmCode) : (s.enterWait c).bitIdx = s.bitIdx := rfl
@[simp] theorem enterWait_byteIdx (c : FsmCode) : (s.enterWait c).byteIdx = s.byteIdx := rfl
@[simp] theorem enterWait_cnt (c : FsmCode) : (s.enterWait c).cnt = 0#32 := rfl
@[simp] theorem enterWait_budL (c : FsmCode) : (s.enterWait c).budL = s.budL := rfl
@[simp] theorem enterWait_acc (c : FsmCode) : (s.enterWait c).acc = s.acc := rfl
@[simp] theorem enterWait_abrt (c : FsmCode) : (s.enterWait c).abrt = s.abrt := rfl
@[simp] theorem enterWait_wRespTo (c : FsmCode) : (s.enterWait c).wRespTo = s.wRespTo := rfl
@[simp] theorem enterWait_wByteTo (c : FsmCode) : (s.enterWait c).wByteTo = s.wByteTo := rfl
@[simp] theorem enterWait_fsmState (c : FsmCode) : (s.enterWait c).fsmState = c := rfl
@[simp] theorem enterWait_dir (c : FsmCode) : (s.enterWait c).dir = s.dir := rfl
@[simp] theorem enterWait_out (c : FsmCode) : (s.enterWait c).out = s.out := rfl
@[simp] theorem enterWait_trace (c : FsmCode) : (s.enterWait c).trace = s.trace := rfl
@[simp] theorem enterWait_faultMark (c : FsmCode) : (s.enterWait c).faultMark = s.faultMark := rfl
@[simp] theorem enterWait_refusedMark (c : FsmCode) : (s.enterWait c).refusedMark = s.refusedMark := rfl
@[simp] theorem enterWait_responses (c : FsmCode) : (s.enterWait c).responses = s.responses := rfl
@[simp] theorem enterWait_agenda (c : FsmCode) : (s.enterWait c).agenda = s.agenda := rfl
@[simp] theorem enterWait_lineIn (c : FsmCode) : (s.enterWait c).lineIn = s.lineIn := rfl
@[simp] theorem enterWait_drawCount (c : FsmCode) : (s.enterWait c).drawCount = s.drawCount := rfl

@[simp] theorem emit_ie (e : Event) : (s.emit e).ie = s.ie := rfl
@[simp] theorem emit_busy (e : Event) : (s.emit e).busy = s.busy := rfl
@[simp] theorem emit_done (e : Event) : (s.emit e).done = s.done := rfl
@[simp] theorem emit_valid (e : Event) : (s.emit e).valid = s.valid := rfl
@[simp] theorem emit_outcome (e : Event) : (s.emit e).outcome = s.outcome := rfl
@[simp] theorem emit_respTo (e : Event) : (s.emit e).respTo = s.respTo := rfl
@[simp] theorem emit_byteTo (e : Event) : (s.emit e).byteTo = s.byteTo := rfl
@[simp] theorem emit_sovr (e : Event) : (s.emit e).sovr = s.sovr := rfl
@[simp] theorem emit_data (e : Event) : (s.emit e).data = s.data := rfl
@[simp] theorem emit_sum (e : Event) : (s.emit e).sum = s.sum := rfl
@[simp] theorem emit_crc (e : Event) : (s.emit e).crc = s.crc := rfl
@[simp] theorem emit_budget (e : Event) : (s.emit e).budget = s.budget := rfl
@[simp] theorem emit_w0 (e : Event) : (s.emit e).w0 = s.w0 := rfl
@[simp] theorem emit_w1 (e : Event) : (s.emit e).w1 = s.w1 := rfl
@[simp] theorem emit_w2 (e : Event) : (s.emit e).w2 = s.w2 := rfl
@[simp] theorem emit_w3 (e : Event) : (s.emit e).w3 = s.w3 := rfl
@[simp] theorem emit_w4 (e : Event) : (s.emit e).w4 = s.w4 := rfl
@[simp] theorem emit_sh (e : Event) : (s.emit e).sh = s.sh := rfl
@[simp] theorem emit_bitIdx (e : Event) : (s.emit e).bitIdx = s.bitIdx := rfl
@[simp] theorem emit_byteIdx (e : Event) : (s.emit e).byteIdx = s.byteIdx := rfl
@[simp] theorem emit_cnt (e : Event) : (s.emit e).cnt = s.cnt := rfl
@[simp] theorem emit_budL (e : Event) : (s.emit e).budL = s.budL := rfl
@[simp] theorem emit_acc (e : Event) : (s.emit e).acc = s.acc := rfl
@[simp] theorem emit_abrt (e : Event) : (s.emit e).abrt = s.abrt := rfl
@[simp] theorem emit_wRespTo (e : Event) : (s.emit e).wRespTo = s.wRespTo := rfl
@[simp] theorem emit_wByteTo (e : Event) : (s.emit e).wByteTo = s.wByteTo := rfl
@[simp] theorem emit_fsmState (e : Event) : (s.emit e).fsmState = s.fsmState := rfl
@[simp] theorem emit_dir (e : Event) : (s.emit e).dir = s.dir := rfl
@[simp] theorem emit_out (e : Event) : (s.emit e).out = s.out := rfl
@[simp] theorem emit_trace (e : Event) : (s.emit e).trace = s.trace ++ [e] := rfl
@[simp] theorem emit_faultMark (e : Event) : (s.emit e).faultMark = s.faultMark := rfl
@[simp] theorem emit_refusedMark (e : Event) : (s.emit e).refusedMark = s.refusedMark := rfl
@[simp] theorem emit_responses (e : Event) : (s.emit e).responses = s.responses := rfl
@[simp] theorem emit_agenda (e : Event) : (s.emit e).agenda = s.agenda := rfl
@[simp] theorem emit_lineIn (e : Event) : (s.emit e).lineIn = s.lineIn := rfl
@[simp] theorem emit_drawCount (e : Event) : (s.emit e).drawCount = s.drawCount := rfl

@[simp] theorem respond_ie (r : Word) : (s.respond r).ie = s.ie := rfl
@[simp] theorem respond_busy (r : Word) : (s.respond r).busy = s.busy := rfl
@[simp] theorem respond_done (r : Word) : (s.respond r).done = s.done := rfl
@[simp] theorem respond_valid (r : Word) : (s.respond r).valid = s.valid := rfl
@[simp] theorem respond_outcome (r : Word) : (s.respond r).outcome = s.outcome := rfl
@[simp] theorem respond_respTo (r : Word) : (s.respond r).respTo = s.respTo := rfl
@[simp] theorem respond_byteTo (r : Word) : (s.respond r).byteTo = s.byteTo := rfl
@[simp] theorem respond_sovr (r : Word) : (s.respond r).sovr = s.sovr := rfl
@[simp] theorem respond_data (r : Word) : (s.respond r).data = s.data := rfl
@[simp] theorem respond_sum (r : Word) : (s.respond r).sum = s.sum := rfl
@[simp] theorem respond_crc (r : Word) : (s.respond r).crc = s.crc := rfl
@[simp] theorem respond_budget (r : Word) : (s.respond r).budget = s.budget := rfl
@[simp] theorem respond_w0 (r : Word) : (s.respond r).w0 = s.w0 := rfl
@[simp] theorem respond_w1 (r : Word) : (s.respond r).w1 = s.w1 := rfl
@[simp] theorem respond_w2 (r : Word) : (s.respond r).w2 = s.w2 := rfl
@[simp] theorem respond_w3 (r : Word) : (s.respond r).w3 = s.w3 := rfl
@[simp] theorem respond_w4 (r : Word) : (s.respond r).w4 = s.w4 := rfl
@[simp] theorem respond_sh (r : Word) : (s.respond r).sh = s.sh := rfl
@[simp] theorem respond_bitIdx (r : Word) : (s.respond r).bitIdx = s.bitIdx := rfl
@[simp] theorem respond_byteIdx (r : Word) : (s.respond r).byteIdx = s.byteIdx := rfl
@[simp] theorem respond_cnt (r : Word) : (s.respond r).cnt = s.cnt := rfl
@[simp] theorem respond_budL (r : Word) : (s.respond r).budL = s.budL := rfl
@[simp] theorem respond_acc (r : Word) : (s.respond r).acc = s.acc := rfl
@[simp] theorem respond_abrt (r : Word) : (s.respond r).abrt = s.abrt := rfl
@[simp] theorem respond_wRespTo (r : Word) : (s.respond r).wRespTo = s.wRespTo := rfl
@[simp] theorem respond_wByteTo (r : Word) : (s.respond r).wByteTo = s.wByteTo := rfl
@[simp] theorem respond_fsmState (r : Word) : (s.respond r).fsmState = s.fsmState := rfl
@[simp] theorem respond_dir (r : Word) : (s.respond r).dir = s.dir := rfl
@[simp] theorem respond_out (r : Word) : (s.respond r).out = s.out := rfl
@[simp] theorem respond_trace (r : Word) : (s.respond r).trace = s.trace := rfl
@[simp] theorem respond_faultMark (r : Word) : (s.respond r).faultMark = s.faultMark := rfl
@[simp] theorem respond_refusedMark (r : Word) : (s.respond r).refusedMark = s.refusedMark := rfl
@[simp] theorem respond_responses (r : Word) : (s.respond r).responses = s.responses ++ [r] := rfl
@[simp] theorem respond_agenda (r : Word) : (s.respond r).agenda = s.agenda := rfl
@[simp] theorem respond_lineIn (r : Word) : (s.respond r).lineIn = s.lineIn := rfl
@[simp] theorem respond_drawCount (r : Word) : (s.respond r).drawCount = s.drawCount := rfl

@[simp] theorem markRefused_ie (r : Refusal) : (s.markRefused r).ie = s.ie := rfl
@[simp] theorem markRefused_busy (r : Refusal) : (s.markRefused r).busy = s.busy := rfl
@[simp] theorem markRefused_done (r : Refusal) : (s.markRefused r).done = s.done := rfl
@[simp] theorem markRefused_valid (r : Refusal) : (s.markRefused r).valid = s.valid := rfl
@[simp] theorem markRefused_outcome (r : Refusal) : (s.markRefused r).outcome = s.outcome := rfl
@[simp] theorem markRefused_respTo (r : Refusal) : (s.markRefused r).respTo = s.respTo := rfl
@[simp] theorem markRefused_byteTo (r : Refusal) : (s.markRefused r).byteTo = s.byteTo := rfl
@[simp] theorem markRefused_sovr (r : Refusal) : (s.markRefused r).sovr = s.sovr := rfl
@[simp] theorem markRefused_data (r : Refusal) : (s.markRefused r).data = s.data := rfl
@[simp] theorem markRefused_sum (r : Refusal) : (s.markRefused r).sum = s.sum := rfl
@[simp] theorem markRefused_crc (r : Refusal) : (s.markRefused r).crc = s.crc := rfl
@[simp] theorem markRefused_budget (r : Refusal) : (s.markRefused r).budget = s.budget := rfl
@[simp] theorem markRefused_w0 (r : Refusal) : (s.markRefused r).w0 = s.w0 := rfl
@[simp] theorem markRefused_w1 (r : Refusal) : (s.markRefused r).w1 = s.w1 := rfl
@[simp] theorem markRefused_w2 (r : Refusal) : (s.markRefused r).w2 = s.w2 := rfl
@[simp] theorem markRefused_w3 (r : Refusal) : (s.markRefused r).w3 = s.w3 := rfl
@[simp] theorem markRefused_w4 (r : Refusal) : (s.markRefused r).w4 = s.w4 := rfl
@[simp] theorem markRefused_sh (r : Refusal) : (s.markRefused r).sh = s.sh := rfl
@[simp] theorem markRefused_bitIdx (r : Refusal) : (s.markRefused r).bitIdx = s.bitIdx := rfl
@[simp] theorem markRefused_byteIdx (r : Refusal) : (s.markRefused r).byteIdx = s.byteIdx := rfl
@[simp] theorem markRefused_cnt (r : Refusal) : (s.markRefused r).cnt = s.cnt := rfl
@[simp] theorem markRefused_budL (r : Refusal) : (s.markRefused r).budL = s.budL := rfl
@[simp] theorem markRefused_acc (r : Refusal) : (s.markRefused r).acc = s.acc := rfl
@[simp] theorem markRefused_abrt (r : Refusal) : (s.markRefused r).abrt = s.abrt := rfl
@[simp] theorem markRefused_wRespTo (r : Refusal) : (s.markRefused r).wRespTo = s.wRespTo := rfl
@[simp] theorem markRefused_wByteTo (r : Refusal) : (s.markRefused r).wByteTo = s.wByteTo := rfl
@[simp] theorem markRefused_fsmState (r : Refusal) : (s.markRefused r).fsmState = s.fsmState := rfl
@[simp] theorem markRefused_dir (r : Refusal) : (s.markRefused r).dir = s.dir := rfl
@[simp] theorem markRefused_out (r : Refusal) : (s.markRefused r).out = s.out := rfl
@[simp] theorem markRefused_trace (r : Refusal) : (s.markRefused r).trace = s.trace := rfl
@[simp] theorem markRefused_faultMark (r : Refusal) : (s.markRefused r).faultMark = s.faultMark := rfl
@[simp] theorem markRefused_refusedMark (r : Refusal) : (s.markRefused r).refusedMark = some r := rfl
@[simp] theorem markRefused_responses (r : Refusal) : (s.markRefused r).responses = s.responses := rfl
@[simp] theorem markRefused_agenda (r : Refusal) : (s.markRefused r).agenda = s.agenda := rfl
@[simp] theorem markRefused_lineIn (r : Refusal) : (s.markRefused r).lineIn = s.lineIn := rfl
@[simp] theorem markRefused_drawCount (r : Refusal) : (s.markRefused r).drawCount = s.drawCount := rfl

@[simp] theorem markFault_ie (f : Fault) : (s.markFault f).ie = s.ie := rfl
@[simp] theorem markFault_busy (f : Fault) : (s.markFault f).busy = s.busy := rfl
@[simp] theorem markFault_done (f : Fault) : (s.markFault f).done = s.done := rfl
@[simp] theorem markFault_valid (f : Fault) : (s.markFault f).valid = s.valid := rfl
@[simp] theorem markFault_outcome (f : Fault) : (s.markFault f).outcome = s.outcome := rfl
@[simp] theorem markFault_respTo (f : Fault) : (s.markFault f).respTo = s.respTo := rfl
@[simp] theorem markFault_byteTo (f : Fault) : (s.markFault f).byteTo = s.byteTo := rfl
@[simp] theorem markFault_sovr (f : Fault) : (s.markFault f).sovr = s.sovr := rfl
@[simp] theorem markFault_data (f : Fault) : (s.markFault f).data = s.data := rfl
@[simp] theorem markFault_sum (f : Fault) : (s.markFault f).sum = s.sum := rfl
@[simp] theorem markFault_crc (f : Fault) : (s.markFault f).crc = s.crc := rfl
@[simp] theorem markFault_budget (f : Fault) : (s.markFault f).budget = s.budget := rfl
@[simp] theorem markFault_w0 (f : Fault) : (s.markFault f).w0 = s.w0 := rfl
@[simp] theorem markFault_w1 (f : Fault) : (s.markFault f).w1 = s.w1 := rfl
@[simp] theorem markFault_w2 (f : Fault) : (s.markFault f).w2 = s.w2 := rfl
@[simp] theorem markFault_w3 (f : Fault) : (s.markFault f).w3 = s.w3 := rfl
@[simp] theorem markFault_w4 (f : Fault) : (s.markFault f).w4 = s.w4 := rfl
@[simp] theorem markFault_sh (f : Fault) : (s.markFault f).sh = s.sh := rfl
@[simp] theorem markFault_bitIdx (f : Fault) : (s.markFault f).bitIdx = s.bitIdx := rfl
@[simp] theorem markFault_byteIdx (f : Fault) : (s.markFault f).byteIdx = s.byteIdx := rfl
@[simp] theorem markFault_cnt (f : Fault) : (s.markFault f).cnt = s.cnt := rfl
@[simp] theorem markFault_budL (f : Fault) : (s.markFault f).budL = s.budL := rfl
@[simp] theorem markFault_acc (f : Fault) : (s.markFault f).acc = s.acc := rfl
@[simp] theorem markFault_abrt (f : Fault) : (s.markFault f).abrt = s.abrt := rfl
@[simp] theorem markFault_wRespTo (f : Fault) : (s.markFault f).wRespTo = s.wRespTo := rfl
@[simp] theorem markFault_wByteTo (f : Fault) : (s.markFault f).wByteTo = s.wByteTo := rfl
@[simp] theorem markFault_fsmState (f : Fault) : (s.markFault f).fsmState = s.fsmState := rfl
@[simp] theorem markFault_dir (f : Fault) : (s.markFault f).dir = s.dir := rfl
@[simp] theorem markFault_out (f : Fault) : (s.markFault f).out = s.out := rfl
@[simp] theorem markFault_trace (f : Fault) : (s.markFault f).trace = s.trace := rfl
@[simp] theorem markFault_faultMark (f : Fault) : (s.markFault f).faultMark = some f := rfl
@[simp] theorem markFault_refusedMark (f : Fault) : (s.markFault f).refusedMark = s.refusedMark := rfl
@[simp] theorem markFault_responses (f : Fault) : (s.markFault f).responses = s.responses := rfl
@[simp] theorem markFault_agenda (f : Fault) : (s.markFault f).agenda = s.agenda := rfl
@[simp] theorem markFault_lineIn (f : Fault) : (s.markFault f).lineIn = s.lineIn := rfl
@[simp] theorem markFault_drawCount (f : Fault) : (s.markFault f).drawCount = s.drawCount := rfl

@[simp] theorem setDir_ie (d : Direction) : (setDir d s).ie = s.ie := rfl
@[simp] theorem setDir_busy (d : Direction) : (setDir d s).busy = s.busy := rfl
@[simp] theorem setDir_done (d : Direction) : (setDir d s).done = s.done := rfl
@[simp] theorem setDir_valid (d : Direction) : (setDir d s).valid = s.valid := rfl
@[simp] theorem setDir_outcome (d : Direction) : (setDir d s).outcome = s.outcome := rfl
@[simp] theorem setDir_respTo (d : Direction) : (setDir d s).respTo = s.respTo := rfl
@[simp] theorem setDir_byteTo (d : Direction) : (setDir d s).byteTo = s.byteTo := rfl
@[simp] theorem setDir_sovr (d : Direction) : (setDir d s).sovr = s.sovr := rfl
@[simp] theorem setDir_data (d : Direction) : (setDir d s).data = s.data := rfl
@[simp] theorem setDir_sum (d : Direction) : (setDir d s).sum = s.sum := rfl
@[simp] theorem setDir_crc (d : Direction) : (setDir d s).crc = s.crc := rfl
@[simp] theorem setDir_budget (d : Direction) : (setDir d s).budget = s.budget := rfl
@[simp] theorem setDir_w0 (d : Direction) : (setDir d s).w0 = s.w0 := rfl
@[simp] theorem setDir_w1 (d : Direction) : (setDir d s).w1 = s.w1 := rfl
@[simp] theorem setDir_w2 (d : Direction) : (setDir d s).w2 = s.w2 := rfl
@[simp] theorem setDir_w3 (d : Direction) : (setDir d s).w3 = s.w3 := rfl
@[simp] theorem setDir_w4 (d : Direction) : (setDir d s).w4 = s.w4 := rfl
@[simp] theorem setDir_sh (d : Direction) : (setDir d s).sh = s.sh := rfl
@[simp] theorem setDir_bitIdx (d : Direction) : (setDir d s).bitIdx = s.bitIdx := rfl
@[simp] theorem setDir_byteIdx (d : Direction) : (setDir d s).byteIdx = s.byteIdx := rfl
@[simp] theorem setDir_cnt (d : Direction) : (setDir d s).cnt = s.cnt := rfl
@[simp] theorem setDir_budL (d : Direction) : (setDir d s).budL = s.budL := rfl
@[simp] theorem setDir_acc (d : Direction) : (setDir d s).acc = s.acc := rfl
@[simp] theorem setDir_abrt (d : Direction) : (setDir d s).abrt = s.abrt := rfl
@[simp] theorem setDir_wRespTo (d : Direction) : (setDir d s).wRespTo = s.wRespTo := rfl
@[simp] theorem setDir_wByteTo (d : Direction) : (setDir d s).wByteTo = s.wByteTo := rfl
@[simp] theorem setDir_fsmState (d : Direction) : (setDir d s).fsmState = s.fsmState := rfl
@[simp] theorem setDir_dir (d : Direction) : (setDir d s).dir = d := rfl
@[simp] theorem setDir_out (d : Direction) : (setDir d s).out = s.out := rfl
@[simp] theorem setDir_trace (d : Direction) : (setDir d s).trace = s.trace ++ [.dir d] := rfl
@[simp] theorem setDir_faultMark (d : Direction) : (setDir d s).faultMark = s.faultMark := rfl
@[simp] theorem setDir_refusedMark (d : Direction) : (setDir d s).refusedMark = s.refusedMark := rfl
@[simp] theorem setDir_responses (d : Direction) : (setDir d s).responses = s.responses := rfl
@[simp] theorem setDir_agenda (d : Direction) : (setDir d s).agenda = s.agenda := rfl
@[simp] theorem setDir_lineIn (d : Direction) : (setDir d s).lineIn = s.lineIn := rfl
@[simp] theorem setDir_drawCount (d : Direction) : (setDir d s).drawCount = s.drawCount := rfl

@[simp] theorem setLvl_ie (l : Level) : (setLvl l s).ie = s.ie := rfl
@[simp] theorem setLvl_busy (l : Level) : (setLvl l s).busy = s.busy := rfl
@[simp] theorem setLvl_done (l : Level) : (setLvl l s).done = s.done := rfl
@[simp] theorem setLvl_valid (l : Level) : (setLvl l s).valid = s.valid := rfl
@[simp] theorem setLvl_outcome (l : Level) : (setLvl l s).outcome = s.outcome := rfl
@[simp] theorem setLvl_respTo (l : Level) : (setLvl l s).respTo = s.respTo := rfl
@[simp] theorem setLvl_byteTo (l : Level) : (setLvl l s).byteTo = s.byteTo := rfl
@[simp] theorem setLvl_sovr (l : Level) : (setLvl l s).sovr = s.sovr := rfl
@[simp] theorem setLvl_data (l : Level) : (setLvl l s).data = s.data := rfl
@[simp] theorem setLvl_sum (l : Level) : (setLvl l s).sum = s.sum := rfl
@[simp] theorem setLvl_crc (l : Level) : (setLvl l s).crc = s.crc := rfl
@[simp] theorem setLvl_budget (l : Level) : (setLvl l s).budget = s.budget := rfl
@[simp] theorem setLvl_w0 (l : Level) : (setLvl l s).w0 = s.w0 := rfl
@[simp] theorem setLvl_w1 (l : Level) : (setLvl l s).w1 = s.w1 := rfl
@[simp] theorem setLvl_w2 (l : Level) : (setLvl l s).w2 = s.w2 := rfl
@[simp] theorem setLvl_w3 (l : Level) : (setLvl l s).w3 = s.w3 := rfl
@[simp] theorem setLvl_w4 (l : Level) : (setLvl l s).w4 = s.w4 := rfl
@[simp] theorem setLvl_sh (l : Level) : (setLvl l s).sh = s.sh := rfl
@[simp] theorem setLvl_bitIdx (l : Level) : (setLvl l s).bitIdx = s.bitIdx := rfl
@[simp] theorem setLvl_byteIdx (l : Level) : (setLvl l s).byteIdx = s.byteIdx := rfl
@[simp] theorem setLvl_cnt (l : Level) : (setLvl l s).cnt = s.cnt := rfl
@[simp] theorem setLvl_budL (l : Level) : (setLvl l s).budL = s.budL := rfl
@[simp] theorem setLvl_acc (l : Level) : (setLvl l s).acc = s.acc := rfl
@[simp] theorem setLvl_abrt (l : Level) : (setLvl l s).abrt = s.abrt := rfl
@[simp] theorem setLvl_wRespTo (l : Level) : (setLvl l s).wRespTo = s.wRespTo := rfl
@[simp] theorem setLvl_wByteTo (l : Level) : (setLvl l s).wByteTo = s.wByteTo := rfl
@[simp] theorem setLvl_fsmState (l : Level) : (setLvl l s).fsmState = s.fsmState := rfl
@[simp] theorem setLvl_dir (l : Level) : (setLvl l s).dir = s.dir := rfl
@[simp] theorem setLvl_out (l : Level) : (setLvl l s).out = l := rfl
@[simp] theorem setLvl_trace (l : Level) : (setLvl l s).trace = s.trace ++ [.lvl l] := rfl
@[simp] theorem setLvl_faultMark (l : Level) : (setLvl l s).faultMark = s.faultMark := rfl
@[simp] theorem setLvl_refusedMark (l : Level) : (setLvl l s).refusedMark = s.refusedMark := rfl
@[simp] theorem setLvl_responses (l : Level) : (setLvl l s).responses = s.responses := rfl
@[simp] theorem setLvl_agenda (l : Level) : (setLvl l s).agenda = s.agenda := rfl
@[simp] theorem setLvl_lineIn (l : Level) : (setLvl l s).lineIn = s.lineIn := rfl
@[simp] theorem setLvl_drawCount (l : Level) : (setLvl l s).drawCount = s.drawCount := rfl

@[simp] theorem delayMs_ie (n : Byte) : (delayMs n s).ie = s.ie := rfl
@[simp] theorem delayMs_busy (n : Byte) : (delayMs n s).busy = s.busy := rfl
@[simp] theorem delayMs_done (n : Byte) : (delayMs n s).done = s.done := rfl
@[simp] theorem delayMs_valid (n : Byte) : (delayMs n s).valid = s.valid := rfl
@[simp] theorem delayMs_outcome (n : Byte) : (delayMs n s).outcome = s.outcome := rfl
@[simp] theorem delayMs_respTo (n : Byte) : (delayMs n s).respTo = s.respTo := rfl
@[simp] theorem delayMs_byteTo (n : Byte) : (delayMs n s).byteTo = s.byteTo := rfl
@[simp] theorem delayMs_sovr (n : Byte) : (delayMs n s).sovr = s.sovr := rfl
@[simp] theorem delayMs_data (n : Byte) : (delayMs n s).data = s.data := rfl
@[simp] theorem delayMs_sum (n : Byte) : (delayMs n s).sum = s.sum := rfl
@[simp] theorem delayMs_crc (n : Byte) : (delayMs n s).crc = s.crc := rfl
@[simp] theorem delayMs_budget (n : Byte) : (delayMs n s).budget = s.budget := rfl
@[simp] theorem delayMs_w0 (n : Byte) : (delayMs n s).w0 = s.w0 := rfl
@[simp] theorem delayMs_w1 (n : Byte) : (delayMs n s).w1 = s.w1 := rfl
@[simp] theorem delayMs_w2 (n : Byte) : (delayMs n s).w2 = s.w2 := rfl
@[simp] theorem delayMs_w3 (n : Byte) : (delayMs n s).w3 = s.w3 := rfl
@[simp] theorem delayMs_w4 (n : Byte) : (delayMs n s).w4 = s.w4 := rfl
@[simp] theorem delayMs_sh (n : Byte) : (delayMs n s).sh = s.sh := rfl
@[simp] theorem delayMs_bitIdx (n : Byte) : (delayMs n s).bitIdx = s.bitIdx := rfl
@[simp] theorem delayMs_byteIdx (n : Byte) : (delayMs n s).byteIdx = s.byteIdx := rfl
@[simp] theorem delayMs_cnt (n : Byte) : (delayMs n s).cnt = s.cnt := rfl
@[simp] theorem delayMs_budL (n : Byte) : (delayMs n s).budL = s.budL := rfl
@[simp] theorem delayMs_acc (n : Byte) : (delayMs n s).acc = s.acc := rfl
@[simp] theorem delayMs_abrt (n : Byte) : (delayMs n s).abrt = s.abrt := rfl
@[simp] theorem delayMs_wRespTo (n : Byte) : (delayMs n s).wRespTo = s.wRespTo := rfl
@[simp] theorem delayMs_wByteTo (n : Byte) : (delayMs n s).wByteTo = s.wByteTo := rfl
@[simp] theorem delayMs_fsmState (n : Byte) : (delayMs n s).fsmState = s.fsmState := rfl
@[simp] theorem delayMs_dir (n : Byte) : (delayMs n s).dir = s.dir := rfl
@[simp] theorem delayMs_out (n : Byte) : (delayMs n s).out = s.out := rfl
@[simp] theorem delayMs_trace (n : Byte) : (delayMs n s).trace = s.trace ++ [.delayMs n.toNat] := rfl
@[simp] theorem delayMs_faultMark (n : Byte) : (delayMs n s).faultMark = s.faultMark := rfl
@[simp] theorem delayMs_refusedMark (n : Byte) : (delayMs n s).refusedMark = s.refusedMark := rfl
@[simp] theorem delayMs_responses (n : Byte) : (delayMs n s).responses = s.responses := rfl
@[simp] theorem delayMs_agenda (n : Byte) : (delayMs n s).agenda = s.agenda := rfl
@[simp] theorem delayMs_lineIn (n : Byte) : (delayMs n s).lineIn = s.lineIn := rfl
@[simp] theorem delayMs_drawCount (n : Byte) : (delayMs n s).drawCount = s.drawCount := rfl

@[simp] theorem delayUs_ie (n : Byte) : (delayUs n s).ie = s.ie := rfl
@[simp] theorem delayUs_busy (n : Byte) : (delayUs n s).busy = s.busy := rfl
@[simp] theorem delayUs_done (n : Byte) : (delayUs n s).done = s.done := rfl
@[simp] theorem delayUs_valid (n : Byte) : (delayUs n s).valid = s.valid := rfl
@[simp] theorem delayUs_outcome (n : Byte) : (delayUs n s).outcome = s.outcome := rfl
@[simp] theorem delayUs_respTo (n : Byte) : (delayUs n s).respTo = s.respTo := rfl
@[simp] theorem delayUs_byteTo (n : Byte) : (delayUs n s).byteTo = s.byteTo := rfl
@[simp] theorem delayUs_sovr (n : Byte) : (delayUs n s).sovr = s.sovr := rfl
@[simp] theorem delayUs_data (n : Byte) : (delayUs n s).data = s.data := rfl
@[simp] theorem delayUs_sum (n : Byte) : (delayUs n s).sum = s.sum := rfl
@[simp] theorem delayUs_crc (n : Byte) : (delayUs n s).crc = s.crc := rfl
@[simp] theorem delayUs_budget (n : Byte) : (delayUs n s).budget = s.budget := rfl
@[simp] theorem delayUs_w0 (n : Byte) : (delayUs n s).w0 = s.w0 := rfl
@[simp] theorem delayUs_w1 (n : Byte) : (delayUs n s).w1 = s.w1 := rfl
@[simp] theorem delayUs_w2 (n : Byte) : (delayUs n s).w2 = s.w2 := rfl
@[simp] theorem delayUs_w3 (n : Byte) : (delayUs n s).w3 = s.w3 := rfl
@[simp] theorem delayUs_w4 (n : Byte) : (delayUs n s).w4 = s.w4 := rfl
@[simp] theorem delayUs_sh (n : Byte) : (delayUs n s).sh = s.sh := rfl
@[simp] theorem delayUs_bitIdx (n : Byte) : (delayUs n s).bitIdx = s.bitIdx := rfl
@[simp] theorem delayUs_byteIdx (n : Byte) : (delayUs n s).byteIdx = s.byteIdx := rfl
@[simp] theorem delayUs_cnt (n : Byte) : (delayUs n s).cnt = s.cnt := rfl
@[simp] theorem delayUs_budL (n : Byte) : (delayUs n s).budL = s.budL := rfl
@[simp] theorem delayUs_acc (n : Byte) : (delayUs n s).acc = s.acc := rfl
@[simp] theorem delayUs_abrt (n : Byte) : (delayUs n s).abrt = s.abrt := rfl
@[simp] theorem delayUs_wRespTo (n : Byte) : (delayUs n s).wRespTo = s.wRespTo := rfl
@[simp] theorem delayUs_wByteTo (n : Byte) : (delayUs n s).wByteTo = s.wByteTo := rfl
@[simp] theorem delayUs_fsmState (n : Byte) : (delayUs n s).fsmState = s.fsmState := rfl
@[simp] theorem delayUs_dir (n : Byte) : (delayUs n s).dir = s.dir := rfl
@[simp] theorem delayUs_out (n : Byte) : (delayUs n s).out = s.out := rfl
@[simp] theorem delayUs_trace (n : Byte) : (delayUs n s).trace = s.trace ++ [.delayUs n.toNat] := rfl
@[simp] theorem delayUs_faultMark (n : Byte) : (delayUs n s).faultMark = s.faultMark := rfl
@[simp] theorem delayUs_refusedMark (n : Byte) : (delayUs n s).refusedMark = s.refusedMark := rfl
@[simp] theorem delayUs_responses (n : Byte) : (delayUs n s).responses = s.responses := rfl
@[simp] theorem delayUs_agenda (n : Byte) : (delayUs n s).agenda = s.agenda := rfl
@[simp] theorem delayUs_lineIn (n : Byte) : (delayUs n s).lineIn = s.lineIn := rfl
@[simp] theorem delayUs_drawCount (n : Byte) : (delayUs n s).drawCount = s.drawCount := rfl

@[simp] theorem lineRead_ie : (lineRead s).ie = s.ie := rfl
@[simp] theorem lineRead_busy : (lineRead s).busy = s.busy := rfl
@[simp] theorem lineRead_done : (lineRead s).done = s.done := rfl
@[simp] theorem lineRead_valid : (lineRead s).valid = s.valid := rfl
@[simp] theorem lineRead_outcome : (lineRead s).outcome = s.outcome := rfl
@[simp] theorem lineRead_respTo : (lineRead s).respTo = s.respTo := rfl
@[simp] theorem lineRead_byteTo : (lineRead s).byteTo = s.byteTo := rfl
@[simp] theorem lineRead_sovr : (lineRead s).sovr = s.sovr := rfl
@[simp] theorem lineRead_data : (lineRead s).data = s.data := rfl
@[simp] theorem lineRead_sum : (lineRead s).sum = s.sum := rfl
@[simp] theorem lineRead_crc : (lineRead s).crc = s.crc := rfl
@[simp] theorem lineRead_budget : (lineRead s).budget = s.budget := rfl
@[simp] theorem lineRead_w0 : (lineRead s).w0 = s.w0 := rfl
@[simp] theorem lineRead_w1 : (lineRead s).w1 = s.w1 := rfl
@[simp] theorem lineRead_w2 : (lineRead s).w2 = s.w2 := rfl
@[simp] theorem lineRead_w3 : (lineRead s).w3 = s.w3 := rfl
@[simp] theorem lineRead_w4 : (lineRead s).w4 = s.w4 := rfl
@[simp] theorem lineRead_sh : (lineRead s).sh = s.sh := rfl
@[simp] theorem lineRead_bitIdx : (lineRead s).bitIdx = s.bitIdx := rfl
@[simp] theorem lineRead_byteIdx : (lineRead s).byteIdx = s.byteIdx := rfl
@[simp] theorem lineRead_cnt : (lineRead s).cnt = s.cnt := rfl
@[simp] theorem lineRead_budL : (lineRead s).budL = s.budL := rfl
@[simp] theorem lineRead_acc : (lineRead s).acc = s.acc := rfl
@[simp] theorem lineRead_abrt : (lineRead s).abrt = s.abrt := rfl
@[simp] theorem lineRead_wRespTo : (lineRead s).wRespTo = s.wRespTo := rfl
@[simp] theorem lineRead_wByteTo : (lineRead s).wByteTo = s.wByteTo := rfl
@[simp] theorem lineRead_fsmState : (lineRead s).fsmState = s.fsmState := rfl
@[simp] theorem lineRead_dir : (lineRead s).dir = s.dir := rfl
@[simp] theorem lineRead_out : (lineRead s).out = s.out := rfl
@[simp] theorem lineRead_trace : (lineRead s).trace = s.trace ++ [.read (drawn s)] := rfl
@[simp] theorem lineRead_faultMark : (lineRead s).faultMark = s.faultMark := rfl
@[simp] theorem lineRead_refusedMark : (lineRead s).refusedMark = s.refusedMark := rfl
@[simp] theorem lineRead_responses : (lineRead s).responses = s.responses := rfl
@[simp] theorem lineRead_agenda : (lineRead s).agenda = s.agenda := rfl
@[simp] theorem lineRead_lineIn : (lineRead s).lineIn = s.lineIn.tail := rfl
@[simp] theorem lineRead_drawCount : (lineRead s).drawCount = if s.lineIn.isEmpty then s.drawCount + 1 else s.drawCount := rfl

@[simp] theorem beginByte_ie : (beginByte s).ie = s.ie := rfl
@[simp] theorem beginByte_busy : (beginByte s).busy = s.busy := rfl
@[simp] theorem beginByte_done : (beginByte s).done = s.done := rfl
@[simp] theorem beginByte_valid : (beginByte s).valid = s.valid := rfl
@[simp] theorem beginByte_outcome : (beginByte s).outcome = s.outcome := rfl
@[simp] theorem beginByte_respTo : (beginByte s).respTo = s.respTo := rfl
@[simp] theorem beginByte_byteTo : (beginByte s).byteTo = s.byteTo := rfl
@[simp] theorem beginByte_sovr : (beginByte s).sovr = s.sovr := rfl
@[simp] theorem beginByte_data : (beginByte s).data = s.data := rfl
@[simp] theorem beginByte_sum : (beginByte s).sum = s.sum := rfl
@[simp] theorem beginByte_crc : (beginByte s).crc = s.crc := rfl
@[simp] theorem beginByte_budget : (beginByte s).budget = s.budget := rfl
@[simp] theorem beginByte_w0 : (beginByte s).w0 = s.w0 := rfl
@[simp] theorem beginByte_w1 : (beginByte s).w1 = s.w1 := rfl
@[simp] theorem beginByte_w2 : (beginByte s).w2 = s.w2 := rfl
@[simp] theorem beginByte_w3 : (beginByte s).w3 = s.w3 := rfl
@[simp] theorem beginByte_w4 : (beginByte s).w4 = s.w4 := rfl
@[simp] theorem beginByte_sh : (beginByte s).sh = 0#8 := rfl
@[simp] theorem beginByte_bitIdx : (beginByte s).bitIdx = 0#3 := rfl
@[simp] theorem beginByte_byteIdx : (beginByte s).byteIdx = s.byteIdx := rfl
@[simp] theorem beginByte_cnt : (beginByte s).cnt = 0#32 := rfl
@[simp] theorem beginByte_budL : (beginByte s).budL = s.budL := rfl
@[simp] theorem beginByte_acc : (beginByte s).acc = s.acc := rfl
@[simp] theorem beginByte_abrt : (beginByte s).abrt = false := rfl
@[simp] theorem beginByte_wRespTo : (beginByte s).wRespTo = s.wRespTo := rfl
@[simp] theorem beginByte_wByteTo : (beginByte s).wByteTo = s.wByteTo := rfl
@[simp] theorem beginByte_fsmState : (beginByte s).fsmState = Code.sBitRise := rfl
@[simp] theorem beginByte_dir : (beginByte s).dir = s.dir := rfl
@[simp] theorem beginByte_out : (beginByte s).out = s.out := rfl
@[simp] theorem beginByte_trace : (beginByte s).trace = s.trace := rfl
@[simp] theorem beginByte_faultMark : (beginByte s).faultMark = s.faultMark := rfl
@[simp] theorem beginByte_refusedMark : (beginByte s).refusedMark = s.refusedMark := rfl
@[simp] theorem beginByte_responses : (beginByte s).responses = s.responses := rfl
@[simp] theorem beginByte_agenda : (beginByte s).agenda = s.agenda := rfl
@[simp] theorem beginByte_lineIn : (beginByte s).lineIn = s.lineIn := rfl
@[simp] theorem beginByte_drawCount : (beginByte s).drawCount = s.drawCount := rfl

@[simp] theorem popMove_ie : (s.popMove).ie = s.ie := rfl
@[simp] theorem popMove_busy : (s.popMove).busy = s.busy := rfl
@[simp] theorem popMove_done : (s.popMove).done = s.done := rfl
@[simp] theorem popMove_valid : (s.popMove).valid = s.valid := rfl
@[simp] theorem popMove_outcome : (s.popMove).outcome = s.outcome := rfl
@[simp] theorem popMove_respTo : (s.popMove).respTo = s.respTo := rfl
@[simp] theorem popMove_byteTo : (s.popMove).byteTo = s.byteTo := rfl
@[simp] theorem popMove_sovr : (s.popMove).sovr = s.sovr := rfl
@[simp] theorem popMove_data : (s.popMove).data = s.data := rfl
@[simp] theorem popMove_sum : (s.popMove).sum = s.sum := rfl
@[simp] theorem popMove_crc : (s.popMove).crc = s.crc := rfl
@[simp] theorem popMove_budget : (s.popMove).budget = s.budget := rfl
@[simp] theorem popMove_w0 : (s.popMove).w0 = s.w0 := rfl
@[simp] theorem popMove_w1 : (s.popMove).w1 = s.w1 := rfl
@[simp] theorem popMove_w2 : (s.popMove).w2 = s.w2 := rfl
@[simp] theorem popMove_w3 : (s.popMove).w3 = s.w3 := rfl
@[simp] theorem popMove_w4 : (s.popMove).w4 = s.w4 := rfl
@[simp] theorem popMove_sh : (s.popMove).sh = s.sh := rfl
@[simp] theorem popMove_bitIdx : (s.popMove).bitIdx = s.bitIdx := rfl
@[simp] theorem popMove_byteIdx : (s.popMove).byteIdx = s.byteIdx := rfl
@[simp] theorem popMove_cnt : (s.popMove).cnt = s.cnt := rfl
@[simp] theorem popMove_budL : (s.popMove).budL = s.budL := rfl
@[simp] theorem popMove_acc : (s.popMove).acc = s.acc := rfl
@[simp] theorem popMove_abrt : (s.popMove).abrt = s.abrt := rfl
@[simp] theorem popMove_wRespTo : (s.popMove).wRespTo = s.wRespTo := rfl
@[simp] theorem popMove_wByteTo : (s.popMove).wByteTo = s.wByteTo := rfl
@[simp] theorem popMove_fsmState : (s.popMove).fsmState = s.fsmState := rfl
@[simp] theorem popMove_dir : (s.popMove).dir = s.dir := rfl
@[simp] theorem popMove_out : (s.popMove).out = s.out := rfl
@[simp] theorem popMove_trace : (s.popMove).trace = s.trace := rfl
@[simp] theorem popMove_faultMark : (s.popMove).faultMark = s.faultMark := rfl
@[simp] theorem popMove_refusedMark : (s.popMove).refusedMark = s.refusedMark := rfl
@[simp] theorem popMove_responses : (s.popMove).responses = s.responses := rfl
@[simp] theorem popMove_agenda : (s.popMove).agenda = s.agenda.tail := rfl
@[simp] theorem popMove_lineIn : (s.popMove).lineIn = s.lineIn := rfl
@[simp] theorem popMove_drawCount : (s.popMove).drawCount = s.drawCount := rfl

@[simp] theorem abortByte_ie : (abortByte s).ie = s.ie := rfl
@[simp] theorem abortByte_busy : (abortByte s).busy = s.busy := rfl
@[simp] theorem abortByte_done : (abortByte s).done = s.done := rfl
@[simp] theorem abortByte_valid : (abortByte s).valid = s.valid := rfl
@[simp] theorem abortByte_outcome : (abortByte s).outcome = s.outcome := rfl
@[simp] theorem abortByte_respTo : (abortByte s).respTo = s.respTo := rfl
@[simp] theorem abortByte_byteTo : (abortByte s).byteTo = s.byteTo := rfl
@[simp] theorem abortByte_sovr : (abortByte s).sovr = s.sovr := rfl
@[simp] theorem abortByte_data : (abortByte s).data = s.data := rfl
@[simp] theorem abortByte_sum : (abortByte s).sum = s.sum := rfl
@[simp] theorem abortByte_crc : (abortByte s).crc = s.crc := rfl
@[simp] theorem abortByte_budget : (abortByte s).budget = s.budget := rfl
@[simp] theorem abortByte_w0 : (abortByte s).w0 = s.w0 := rfl
@[simp] theorem abortByte_w1 : (abortByte s).w1 = s.w1 := rfl
@[simp] theorem abortByte_w2 : (abortByte s).w2 = s.w2 := rfl
@[simp] theorem abortByte_w3 : (abortByte s).w3 = s.w3 := rfl
@[simp] theorem abortByte_w4 : (abortByte s).w4 = s.w4 := rfl
@[simp] theorem abortByte_sh : (abortByte s).sh = s.sh := rfl
@[simp] theorem abortByte_bitIdx : (abortByte s).bitIdx = s.bitIdx := rfl
@[simp] theorem abortByte_byteIdx : (abortByte s).byteIdx = s.byteIdx := rfl
@[simp] theorem abortByte_cnt : (abortByte s).cnt = s.cnt := rfl
@[simp] theorem abortByte_budL : (abortByte s).budL = s.budL := rfl
@[simp] theorem abortByte_acc : (abortByte s).acc = s.acc := rfl
@[simp] theorem abortByte_abrt : (abortByte s).abrt = true := rfl
@[simp] theorem abortByte_wRespTo : (abortByte s).wRespTo = s.wRespTo := rfl
@[simp] theorem abortByte_wByteTo : (abortByte s).wByteTo = s.wByteTo := rfl
@[simp] theorem abortByte_fsmState : (abortByte s).fsmState = Code.sByteEnd := rfl
@[simp] theorem abortByte_dir : (abortByte s).dir = s.dir := rfl
@[simp] theorem abortByte_out : (abortByte s).out = s.out := rfl
@[simp] theorem abortByte_trace : (abortByte s).trace = s.trace := rfl
@[simp] theorem abortByte_faultMark : (abortByte s).faultMark = s.faultMark := rfl
@[simp] theorem abortByte_refusedMark : (abortByte s).refusedMark = s.refusedMark := rfl
@[simp] theorem abortByte_responses : (abortByte s).responses = s.responses := rfl
@[simp] theorem abortByte_agenda : (abortByte s).agenda = s.agenda := rfl
@[simp] theorem abortByte_lineIn : (abortByte s).lineIn = s.lineIn := rfl
@[simp] theorem abortByte_drawCount : (abortByte s).drawCount = s.drawCount := rfl

@[simp] theorem setByte_ie (k : BitVec 3) (v : Byte) : (setByte k v s).ie = s.ie := rfl
@[simp] theorem setByte_busy (k : BitVec 3) (v : Byte) : (setByte k v s).busy = s.busy := rfl
@[simp] theorem setByte_done (k : BitVec 3) (v : Byte) : (setByte k v s).done = s.done := rfl
@[simp] theorem setByte_valid (k : BitVec 3) (v : Byte) : (setByte k v s).valid = s.valid := rfl
@[simp] theorem setByte_outcome (k : BitVec 3) (v : Byte) : (setByte k v s).outcome = s.outcome := rfl
@[simp] theorem setByte_respTo (k : BitVec 3) (v : Byte) : (setByte k v s).respTo = s.respTo := rfl
@[simp] theorem setByte_byteTo (k : BitVec 3) (v : Byte) : (setByte k v s).byteTo = s.byteTo := rfl
@[simp] theorem setByte_sovr (k : BitVec 3) (v : Byte) : (setByte k v s).sovr = s.sovr := rfl
@[simp] theorem setByte_data (k : BitVec 3) (v : Byte) : (setByte k v s).data = s.data := rfl
@[simp] theorem setByte_sum (k : BitVec 3) (v : Byte) : (setByte k v s).sum = s.sum := rfl
@[simp] theorem setByte_crc (k : BitVec 3) (v : Byte) : (setByte k v s).crc = s.crc := rfl
@[simp] theorem setByte_budget (k : BitVec 3) (v : Byte) : (setByte k v s).budget = s.budget := rfl
@[simp] theorem setByte_w0 (k : BitVec 3) (v : Byte) : (setByte k v s).w0 = (if k = 0#3 then v else s.w0) := rfl
@[simp] theorem setByte_w1 (k : BitVec 3) (v : Byte) : (setByte k v s).w1 = (if k = 1#3 then v else s.w1) := rfl
@[simp] theorem setByte_w2 (k : BitVec 3) (v : Byte) : (setByte k v s).w2 = (if k = 2#3 then v else s.w2) := rfl
@[simp] theorem setByte_w3 (k : BitVec 3) (v : Byte) : (setByte k v s).w3 = (if k = 3#3 then v else s.w3) := rfl
@[simp] theorem setByte_w4 (k : BitVec 3) (v : Byte) : (setByte k v s).w4 = (if k = 4#3 then v else s.w4) := rfl
@[simp] theorem setByte_sh (k : BitVec 3) (v : Byte) : (setByte k v s).sh = s.sh := rfl
@[simp] theorem setByte_bitIdx (k : BitVec 3) (v : Byte) : (setByte k v s).bitIdx = s.bitIdx := rfl
@[simp] theorem setByte_byteIdx (k : BitVec 3) (v : Byte) : (setByte k v s).byteIdx = s.byteIdx := rfl
@[simp] theorem setByte_cnt (k : BitVec 3) (v : Byte) : (setByte k v s).cnt = s.cnt := rfl
@[simp] theorem setByte_budL (k : BitVec 3) (v : Byte) : (setByte k v s).budL = s.budL := rfl
@[simp] theorem setByte_acc (k : BitVec 3) (v : Byte) : (setByte k v s).acc = s.acc := rfl
@[simp] theorem setByte_abrt (k : BitVec 3) (v : Byte) : (setByte k v s).abrt = s.abrt := rfl
@[simp] theorem setByte_wRespTo (k : BitVec 3) (v : Byte) : (setByte k v s).wRespTo = s.wRespTo := rfl
@[simp] theorem setByte_wByteTo (k : BitVec 3) (v : Byte) : (setByte k v s).wByteTo = s.wByteTo := rfl
@[simp] theorem setByte_fsmState (k : BitVec 3) (v : Byte) : (setByte k v s).fsmState = s.fsmState := rfl
@[simp] theorem setByte_dir (k : BitVec 3) (v : Byte) : (setByte k v s).dir = s.dir := rfl
@[simp] theorem setByte_out (k : BitVec 3) (v : Byte) : (setByte k v s).out = s.out := rfl
@[simp] theorem setByte_trace (k : BitVec 3) (v : Byte) : (setByte k v s).trace = s.trace := rfl
@[simp] theorem setByte_faultMark (k : BitVec 3) (v : Byte) : (setByte k v s).faultMark = s.faultMark := rfl
@[simp] theorem setByte_refusedMark (k : BitVec 3) (v : Byte) : (setByte k v s).refusedMark = s.refusedMark := rfl
@[simp] theorem setByte_responses (k : BitVec 3) (v : Byte) : (setByte k v s).responses = s.responses := rfl
@[simp] theorem setByte_agenda (k : BitVec 3) (v : Byte) : (setByte k v s).agenda = s.agenda := rfl
@[simp] theorem setByte_lineIn (k : BitVec 3) (v : Byte) : (setByte k v s).lineIn = s.lineIn := rfl
@[simp] theorem setByte_drawCount (k : BitVec 3) (v : Byte) : (setByte k v s).drawCount = s.drawCount := rfl

@[simp] theorem commitByte_ie : (commitByte s).ie = s.ie := rfl
@[simp] theorem commitByte_busy : (commitByte s).busy = s.busy := rfl
@[simp] theorem commitByte_done : (commitByte s).done = s.done := rfl
@[simp] theorem commitByte_valid : (commitByte s).valid = s.valid := rfl
@[simp] theorem commitByte_outcome : (commitByte s).outcome = s.outcome := rfl
@[simp] theorem commitByte_respTo : (commitByte s).respTo = s.respTo := rfl
@[simp] theorem commitByte_byteTo : (commitByte s).byteTo = s.byteTo := rfl
@[simp] theorem commitByte_sovr : (commitByte s).sovr = s.sovr := rfl
@[simp] theorem commitByte_data : (commitByte s).data = s.data := rfl
@[simp] theorem commitByte_sum : (commitByte s).sum = s.sum := rfl
@[simp] theorem commitByte_crc : (commitByte s).crc = s.crc := rfl
@[simp] theorem commitByte_budget : (commitByte s).budget = s.budget := rfl
@[simp] theorem commitByte_w0 : (commitByte s).w0 = (if s.byteIdx = 0#3 then storedByte s.abrt s.sh else s.w0) := rfl
@[simp] theorem commitByte_w1 : (commitByte s).w1 = (if s.byteIdx = 1#3 then storedByte s.abrt s.sh else s.w1) := rfl
@[simp] theorem commitByte_w2 : (commitByte s).w2 = (if s.byteIdx = 2#3 then storedByte s.abrt s.sh else s.w2) := rfl
@[simp] theorem commitByte_w3 : (commitByte s).w3 = (if s.byteIdx = 3#3 then storedByte s.abrt s.sh else s.w3) := rfl
@[simp] theorem commitByte_w4 : (commitByte s).w4 = (if s.byteIdx = 4#3 then storedByte s.abrt s.sh else s.w4) := rfl
@[simp] theorem commitByte_sh : (commitByte s).sh = s.sh := rfl
@[simp] theorem commitByte_bitIdx : (commitByte s).bitIdx = s.bitIdx := rfl
@[simp] theorem commitByte_byteIdx : (commitByte s).byteIdx = s.byteIdx := rfl
@[simp] theorem commitByte_cnt : (commitByte s).cnt = s.cnt := rfl
@[simp] theorem commitByte_budL : (commitByte s).budL = s.budL := rfl
@[simp] theorem commitByte_acc : (commitByte s).acc = (if s.byteIdx < 4#3 then s.acc + storedByte s.abrt s.sh else s.acc) := rfl
@[simp] theorem commitByte_abrt : (commitByte s).abrt = s.abrt := rfl
@[simp] theorem commitByte_wRespTo : (commitByte s).wRespTo = s.wRespTo := rfl
@[simp] theorem commitByte_wByteTo : (commitByte s).wByteTo = (if s.abrt then markByte s.wByteTo s.byteIdx else s.wByteTo) := rfl
@[simp] theorem commitByte_fsmState : (commitByte s).fsmState = s.fsmState := rfl
@[simp] theorem commitByte_dir : (commitByte s).dir = s.dir := rfl
@[simp] theorem commitByte_out : (commitByte s).out = s.out := rfl
@[simp] theorem commitByte_trace : (commitByte s).trace = s.trace := rfl
@[simp] theorem commitByte_faultMark : (commitByte s).faultMark = s.faultMark := rfl
@[simp] theorem commitByte_refusedMark : (commitByte s).refusedMark = s.refusedMark := rfl
@[simp] theorem commitByte_responses : (commitByte s).responses = s.responses := rfl
@[simp] theorem commitByte_agenda : (commitByte s).agenda = s.agenda := rfl
@[simp] theorem commitByte_lineIn : (commitByte s).lineIn = s.lineIn := rfl
@[simp] theorem commitByte_drawCount : (commitByte s).drawCount = s.drawCount := rfl

@[simp] theorem commitResults_ie : (commitResults s).ie = s.ie := rfl
@[simp] theorem commitResults_busy : (commitResults s).busy = false := rfl
@[simp] theorem commitResults_done : (commitResults s).done = true := rfl
@[simp] theorem commitResults_valid : (commitResults s).valid = true := rfl
@[simp] theorem commitResults_outcome : (commitResults s).outcome = checkOutcome s.acc s.w4 := rfl
@[simp] theorem commitResults_respTo : (commitResults s).respTo = s.wRespTo := rfl
@[simp] theorem commitResults_byteTo : (commitResults s).byteTo = s.wByteTo := rfl
@[simp] theorem commitResults_sovr : (commitResults s).sovr = s.sovr := rfl
@[simp] theorem commitResults_data : (commitResults s).data = dataOf s.w0 s.w1 s.w2 s.w3 := rfl
@[simp] theorem commitResults_sum : (commitResults s).sum = s.acc := rfl
@[simp] theorem commitResults_crc : (commitResults s).crc = s.w4 := rfl
@[simp] theorem commitResults_budget : (commitResults s).budget = s.budget := rfl
@[simp] theorem commitResults_w0 : (commitResults s).w0 = s.w0 := rfl
@[simp] theorem commitResults_w1 : (commitResults s).w1 = s.w1 := rfl
@[simp] theorem commitResults_w2 : (commitResults s).w2 = s.w2 := rfl
@[simp] theorem commitResults_w3 : (commitResults s).w3 = s.w3 := rfl
@[simp] theorem commitResults_w4 : (commitResults s).w4 = s.w4 := rfl
@[simp] theorem commitResults_sh : (commitResults s).sh = s.sh := rfl
@[simp] theorem commitResults_bitIdx : (commitResults s).bitIdx = s.bitIdx := rfl
@[simp] theorem commitResults_byteIdx : (commitResults s).byteIdx = s.byteIdx := rfl
@[simp] theorem commitResults_cnt : (commitResults s).cnt = s.cnt := rfl
@[simp] theorem commitResults_budL : (commitResults s).budL = s.budL := rfl
@[simp] theorem commitResults_acc : (commitResults s).acc = s.acc := rfl
@[simp] theorem commitResults_abrt : (commitResults s).abrt = s.abrt := rfl
@[simp] theorem commitResults_wRespTo : (commitResults s).wRespTo = s.wRespTo := rfl
@[simp] theorem commitResults_wByteTo : (commitResults s).wByteTo = s.wByteTo := rfl
@[simp] theorem commitResults_fsmState : (commitResults s).fsmState = Code.idle := rfl
@[simp] theorem commitResults_dir : (commitResults s).dir = s.dir := rfl
@[simp] theorem commitResults_out : (commitResults s).out = s.out := rfl
@[simp] theorem commitResults_trace : (commitResults s).trace = s.trace := rfl
@[simp] theorem commitResults_faultMark : (commitResults s).faultMark = s.faultMark := rfl
@[simp] theorem commitResults_refusedMark : (commitResults s).refusedMark = s.refusedMark := rfl
@[simp] theorem commitResults_responses : (commitResults s).responses = s.responses := rfl
@[simp] theorem commitResults_agenda : (commitResults s).agenda = s.agenda := rfl
@[simp] theorem commitResults_lineIn : (commitResults s).lineIn = s.lineIn := rfl
@[simp] theorem commitResults_drawCount : (commitResults s).drawCount = s.drawCount := rfl

@[simp] theorem acceptStart_ie : (acceptStart s).ie = s.ie := rfl
@[simp] theorem acceptStart_busy : (acceptStart s).busy = true := rfl
@[simp] theorem acceptStart_done : (acceptStart s).done = false := rfl
@[simp] theorem acceptStart_valid : (acceptStart s).valid = s.valid := rfl
@[simp] theorem acceptStart_outcome : (acceptStart s).outcome = s.outcome := rfl
@[simp] theorem acceptStart_respTo : (acceptStart s).respTo = s.respTo := rfl
@[simp] theorem acceptStart_byteTo : (acceptStart s).byteTo = s.byteTo := rfl
@[simp] theorem acceptStart_sovr : (acceptStart s).sovr = s.sovr := rfl
@[simp] theorem acceptStart_data : (acceptStart s).data = s.data := rfl
@[simp] theorem acceptStart_sum : (acceptStart s).sum = s.sum := rfl
@[simp] theorem acceptStart_crc : (acceptStart s).crc = s.crc := rfl
@[simp] theorem acceptStart_budget : (acceptStart s).budget = s.budget := rfl
@[simp] theorem acceptStart_w0 : (acceptStart s).w0 = 0#8 := rfl
@[simp] theorem acceptStart_w1 : (acceptStart s).w1 = 0#8 := rfl
@[simp] theorem acceptStart_w2 : (acceptStart s).w2 = 0#8 := rfl
@[simp] theorem acceptStart_w3 : (acceptStart s).w3 = 0#8 := rfl
@[simp] theorem acceptStart_w4 : (acceptStart s).w4 = 0#8 := rfl
@[simp] theorem acceptStart_sh : (acceptStart s).sh = 0#8 := rfl
@[simp] theorem acceptStart_bitIdx : (acceptStart s).bitIdx = 0#3 := rfl
@[simp] theorem acceptStart_byteIdx : (acceptStart s).byteIdx = 0#3 := rfl
@[simp] theorem acceptStart_cnt : (acceptStart s).cnt = 0#32 := rfl
@[simp] theorem acceptStart_budL : (acceptStart s).budL = s.budget := rfl
@[simp] theorem acceptStart_acc : (acceptStart s).acc = 0#8 := rfl
@[simp] theorem acceptStart_abrt : (acceptStart s).abrt = false := rfl
@[simp] theorem acceptStart_wRespTo : (acceptStart s).wRespTo = false := rfl
@[simp] theorem acceptStart_wByteTo : (acceptStart s).wByteTo = 0#5 := rfl
@[simp] theorem acceptStart_fsmState : (acceptStart s).fsmState = Code.sDirOut := rfl
@[simp] theorem acceptStart_dir : (acceptStart s).dir = s.dir := rfl
@[simp] theorem acceptStart_out : (acceptStart s).out = s.out := rfl
@[simp] theorem acceptStart_trace : (acceptStart s).trace = s.trace := rfl
@[simp] theorem acceptStart_faultMark : (acceptStart s).faultMark = s.faultMark := rfl
@[simp] theorem acceptStart_refusedMark : (acceptStart s).refusedMark = s.refusedMark := rfl
@[simp] theorem acceptStart_responses : (acceptStart s).responses = s.responses := rfl
@[simp] theorem acceptStart_agenda : (acceptStart s).agenda = s.agenda := rfl
@[simp] theorem acceptStart_lineIn : (acceptStart s).lineIn = s.lineIn := rfl
@[simp] theorem acceptStart_drawCount : (acceptStart s).drawCount = s.drawCount := rfl

@[simp] theorem writeStatus_ie (d : Word) : (writeStatus d s).ie = s.ie := rfl
@[simp] theorem writeStatus_busy (d : Word) : (writeStatus d s).busy = s.busy := rfl
@[simp] theorem writeStatus_done (d : Word) : (writeStatus d s).done = w1c (d.getLsbD 1) s.done := rfl
@[simp] theorem writeStatus_valid (d : Word) : (writeStatus d s).valid = s.valid := rfl
@[simp] theorem writeStatus_outcome (d : Word) : (writeStatus d s).outcome = s.outcome := rfl
@[simp] theorem writeStatus_respTo (d : Word) : (writeStatus d s).respTo = s.respTo := rfl
@[simp] theorem writeStatus_byteTo (d : Word) : (writeStatus d s).byteTo = s.byteTo := rfl
@[simp] theorem writeStatus_sovr (d : Word) : (writeStatus d s).sovr = w1c (d.getLsbD 10) s.sovr := rfl
@[simp] theorem writeStatus_data (d : Word) : (writeStatus d s).data = s.data := rfl
@[simp] theorem writeStatus_sum (d : Word) : (writeStatus d s).sum = s.sum := rfl
@[simp] theorem writeStatus_crc (d : Word) : (writeStatus d s).crc = s.crc := rfl
@[simp] theorem writeStatus_budget (d : Word) : (writeStatus d s).budget = s.budget := rfl
@[simp] theorem writeStatus_w0 (d : Word) : (writeStatus d s).w0 = s.w0 := rfl
@[simp] theorem writeStatus_w1 (d : Word) : (writeStatus d s).w1 = s.w1 := rfl
@[simp] theorem writeStatus_w2 (d : Word) : (writeStatus d s).w2 = s.w2 := rfl
@[simp] theorem writeStatus_w3 (d : Word) : (writeStatus d s).w3 = s.w3 := rfl
@[simp] theorem writeStatus_w4 (d : Word) : (writeStatus d s).w4 = s.w4 := rfl
@[simp] theorem writeStatus_sh (d : Word) : (writeStatus d s).sh = s.sh := rfl
@[simp] theorem writeStatus_bitIdx (d : Word) : (writeStatus d s).bitIdx = s.bitIdx := rfl
@[simp] theorem writeStatus_byteIdx (d : Word) : (writeStatus d s).byteIdx = s.byteIdx := rfl
@[simp] theorem writeStatus_cnt (d : Word) : (writeStatus d s).cnt = s.cnt := rfl
@[simp] theorem writeStatus_budL (d : Word) : (writeStatus d s).budL = s.budL := rfl
@[simp] theorem writeStatus_acc (d : Word) : (writeStatus d s).acc = s.acc := rfl
@[simp] theorem writeStatus_abrt (d : Word) : (writeStatus d s).abrt = s.abrt := rfl
@[simp] theorem writeStatus_wRespTo (d : Word) : (writeStatus d s).wRespTo = s.wRespTo := rfl
@[simp] theorem writeStatus_wByteTo (d : Word) : (writeStatus d s).wByteTo = s.wByteTo := rfl
@[simp] theorem writeStatus_fsmState (d : Word) : (writeStatus d s).fsmState = s.fsmState := rfl
@[simp] theorem writeStatus_dir (d : Word) : (writeStatus d s).dir = s.dir := rfl
@[simp] theorem writeStatus_out (d : Word) : (writeStatus d s).out = s.out := rfl
@[simp] theorem writeStatus_trace (d : Word) : (writeStatus d s).trace = s.trace := rfl
@[simp] theorem writeStatus_faultMark (d : Word) : (writeStatus d s).faultMark = s.faultMark := rfl
@[simp] theorem writeStatus_refusedMark (d : Word) : (writeStatus d s).refusedMark = s.refusedMark := rfl
@[simp] theorem writeStatus_responses (d : Word) : (writeStatus d s).responses = s.responses := rfl
@[simp] theorem writeStatus_agenda (d : Word) : (writeStatus d s).agenda = s.agenda := rfl
@[simp] theorem writeStatus_lineIn (d : Word) : (writeStatus d s).lineIn = s.lineIn := rfl
@[simp] theorem writeStatus_drawCount (d : Word) : (writeStatus d s).drawCount = s.drawCount := rfl

@[simp] theorem writeBudget_ie (d : Word) : (writeBudget d s).ie = s.ie := rfl
@[simp] theorem writeBudget_busy (d : Word) : (writeBudget d s).busy = s.busy := rfl
@[simp] theorem writeBudget_done (d : Word) : (writeBudget d s).done = s.done := rfl
@[simp] theorem writeBudget_valid (d : Word) : (writeBudget d s).valid = s.valid := rfl
@[simp] theorem writeBudget_outcome (d : Word) : (writeBudget d s).outcome = s.outcome := rfl
@[simp] theorem writeBudget_respTo (d : Word) : (writeBudget d s).respTo = s.respTo := rfl
@[simp] theorem writeBudget_byteTo (d : Word) : (writeBudget d s).byteTo = s.byteTo := rfl
@[simp] theorem writeBudget_sovr (d : Word) : (writeBudget d s).sovr = s.sovr := rfl
@[simp] theorem writeBudget_data (d : Word) : (writeBudget d s).data = s.data := rfl
@[simp] theorem writeBudget_sum (d : Word) : (writeBudget d s).sum = s.sum := rfl
@[simp] theorem writeBudget_crc (d : Word) : (writeBudget d s).crc = s.crc := rfl
@[simp] theorem writeBudget_budget (d : Word) : (writeBudget d s).budget = d := rfl
@[simp] theorem writeBudget_w0 (d : Word) : (writeBudget d s).w0 = s.w0 := rfl
@[simp] theorem writeBudget_w1 (d : Word) : (writeBudget d s).w1 = s.w1 := rfl
@[simp] theorem writeBudget_w2 (d : Word) : (writeBudget d s).w2 = s.w2 := rfl
@[simp] theorem writeBudget_w3 (d : Word) : (writeBudget d s).w3 = s.w3 := rfl
@[simp] theorem writeBudget_w4 (d : Word) : (writeBudget d s).w4 = s.w4 := rfl
@[simp] theorem writeBudget_sh (d : Word) : (writeBudget d s).sh = s.sh := rfl
@[simp] theorem writeBudget_bitIdx (d : Word) : (writeBudget d s).bitIdx = s.bitIdx := rfl
@[simp] theorem writeBudget_byteIdx (d : Word) : (writeBudget d s).byteIdx = s.byteIdx := rfl
@[simp] theorem writeBudget_cnt (d : Word) : (writeBudget d s).cnt = s.cnt := rfl
@[simp] theorem writeBudget_budL (d : Word) : (writeBudget d s).budL = s.budL := rfl
@[simp] theorem writeBudget_acc (d : Word) : (writeBudget d s).acc = s.acc := rfl
@[simp] theorem writeBudget_abrt (d : Word) : (writeBudget d s).abrt = s.abrt := rfl
@[simp] theorem writeBudget_wRespTo (d : Word) : (writeBudget d s).wRespTo = s.wRespTo := rfl
@[simp] theorem writeBudget_wByteTo (d : Word) : (writeBudget d s).wByteTo = s.wByteTo := rfl
@[simp] theorem writeBudget_fsmState (d : Word) : (writeBudget d s).fsmState = s.fsmState := rfl
@[simp] theorem writeBudget_dir (d : Word) : (writeBudget d s).dir = s.dir := rfl
@[simp] theorem writeBudget_out (d : Word) : (writeBudget d s).out = s.out := rfl
@[simp] theorem writeBudget_trace (d : Word) : (writeBudget d s).trace = s.trace := rfl
@[simp] theorem writeBudget_faultMark (d : Word) : (writeBudget d s).faultMark = s.faultMark := rfl
@[simp] theorem writeBudget_refusedMark (d : Word) : (writeBudget d s).refusedMark = s.refusedMark := rfl
@[simp] theorem writeBudget_responses (d : Word) : (writeBudget d s).responses = s.responses := rfl
@[simp] theorem writeBudget_agenda (d : Word) : (writeBudget d s).agenda = s.agenda := rfl
@[simp] theorem writeBudget_lineIn (d : Word) : (writeBudget d s).lineIn = s.lineIn := rfl
@[simp] theorem writeBudget_drawCount (d : Word) : (writeBudget d s).drawCount = s.drawCount := rfl

@[simp] theorem resetInput_ie : (resetInput s).ie = State.reset.ie := rfl
@[simp] theorem resetInput_busy : (resetInput s).busy = State.reset.busy := rfl
@[simp] theorem resetInput_done : (resetInput s).done = State.reset.done := rfl
@[simp] theorem resetInput_valid : (resetInput s).valid = State.reset.valid := rfl
@[simp] theorem resetInput_outcome : (resetInput s).outcome = State.reset.outcome := rfl
@[simp] theorem resetInput_respTo : (resetInput s).respTo = State.reset.respTo := rfl
@[simp] theorem resetInput_byteTo : (resetInput s).byteTo = State.reset.byteTo := rfl
@[simp] theorem resetInput_sovr : (resetInput s).sovr = State.reset.sovr := rfl
@[simp] theorem resetInput_data : (resetInput s).data = State.reset.data := rfl
@[simp] theorem resetInput_sum : (resetInput s).sum = State.reset.sum := rfl
@[simp] theorem resetInput_crc : (resetInput s).crc = State.reset.crc := rfl
@[simp] theorem resetInput_budget : (resetInput s).budget = State.reset.budget := rfl
@[simp] theorem resetInput_w0 : (resetInput s).w0 = State.reset.w0 := rfl
@[simp] theorem resetInput_w1 : (resetInput s).w1 = State.reset.w1 := rfl
@[simp] theorem resetInput_w2 : (resetInput s).w2 = State.reset.w2 := rfl
@[simp] theorem resetInput_w3 : (resetInput s).w3 = State.reset.w3 := rfl
@[simp] theorem resetInput_w4 : (resetInput s).w4 = State.reset.w4 := rfl
@[simp] theorem resetInput_sh : (resetInput s).sh = State.reset.sh := rfl
@[simp] theorem resetInput_bitIdx : (resetInput s).bitIdx = State.reset.bitIdx := rfl
@[simp] theorem resetInput_byteIdx : (resetInput s).byteIdx = State.reset.byteIdx := rfl
@[simp] theorem resetInput_cnt : (resetInput s).cnt = State.reset.cnt := rfl
@[simp] theorem resetInput_budL : (resetInput s).budL = State.reset.budL := rfl
@[simp] theorem resetInput_acc : (resetInput s).acc = State.reset.acc := rfl
@[simp] theorem resetInput_abrt : (resetInput s).abrt = State.reset.abrt := rfl
@[simp] theorem resetInput_wRespTo : (resetInput s).wRespTo = State.reset.wRespTo := rfl
@[simp] theorem resetInput_wByteTo : (resetInput s).wByteTo = State.reset.wByteTo := rfl
@[simp] theorem resetInput_fsmState : (resetInput s).fsmState = State.reset.fsmState := rfl
@[simp] theorem resetInput_dir : (resetInput s).dir = State.reset.dir := rfl
@[simp] theorem resetInput_out : (resetInput s).out = State.reset.out := rfl
@[simp] theorem resetInput_trace : (resetInput s).trace = State.reset.trace := rfl
@[simp] theorem resetInput_faultMark : (resetInput s).faultMark = State.reset.faultMark := rfl
@[simp] theorem resetInput_refusedMark : (resetInput s).refusedMark = State.reset.refusedMark := rfl
@[simp] theorem resetInput_responses : (resetInput s).responses = State.reset.responses := rfl
@[simp] theorem resetInput_agenda : (resetInput s).agenda = s.agenda := rfl
@[simp] theorem resetInput_lineIn : (resetInput s).lineIn = s.lineIn := rfl
@[simp] theorem resetInput_drawCount : (resetInput s).drawCount = s.drawCount := rfl

end Sys2Proof.Machine
end

