-- ==== Sys2Proof/Laws/Ops.lean ====
section
/-!
SUPPORT. Laws/Ops.lean: what each shared operation can do, said once.
-/

namespace Sys2Proof.Machine

/-! ## Line reads -/

theorem drawn_eq_upcoming (s : State) : drawn s = upcoming s 0 := by
  cases h : s.lineIn <;> simp [drawn, upcoming, h]

theorem upcoming_congr {s t : State} (hl : t.lineIn = s.lineIn) (hd : t.drawCount = s.drawCount) :
    upcoming t = upcoming s := by
  funext n
  simp [upcoming, hl, hd]

/-- A read takes the first answer and leaves the others in their order. -/
theorem upcoming_lineRead (s : State) (n : Nat) : upcoming (lineRead s) n = upcoming s (n + 1) := by
  cases h : s.lineIn with
  | nil => simp [upcoming, h]; congr 1; omega
  | cons l rest => simp [upcoming, h]

/-! ## The wait -/

/-- The budget is used up: no read (40_sampler.md R112). -/
theorem waitStep_timedOut {target : Level} {ok timedOut : State → State} {s : State} (h : s.budL ≤ s.cnt) :
    waitStep target ok timedOut s = timedOut s := if_pos h

/-- The poll finds the level (40_sampler.md R112). -/
theorem waitStep_reached {target : Level} {ok timedOut : State → State} {s : State} (h : s.cnt < s.budL)
    (hl : drawn s = target) : waitStep target ok timedOut s = ok (lineRead s) := by
  simp [waitStep, BitVec.not_le.mpr h, hl]

/-- The poll fails (40_sampler.md R112). -/
theorem waitStep_failed {target : Level} {ok timedOut : State → State} {s : State} (h : s.cnt < s.budL)
    (hl : drawn s ≠ target) :
    waitStep target ok timedOut s = { lineRead s with cnt := s.cnt + 1 } := by
  simp [waitStep, BitVec.not_le.mpr h, hl]

/-- Everything a WaitStep can do. -/
theorem waitStep_cases (target : Level) (ok timedOut : State → State) (s : State) :
    (s.budL ≤ s.cnt ∧ waitStep target ok timedOut s = timedOut s) ∨
    (s.cnt < s.budL ∧ drawn s = target ∧ waitStep target ok timedOut s = ok (lineRead s)) ∨
    (s.cnt < s.budL ∧ drawn s ≠ target ∧
      waitStep target ok timedOut s = { lineRead s with cnt := s.cnt + 1 }) := by
  by_cases h : s.budL ≤ s.cnt
  · exact .inl ⟨h, waitStep_timedOut h⟩
  · have h' := BitVec.not_le.mp h
    by_cases hl : drawn s = target
    · exact .inr (.inl ⟨h', hl, waitStep_reached h' hl⟩)
    · exact .inr (.inr ⟨h', hl, waitStep_failed h' hl⟩)

/-- A failed poll does not wrap the counter (10_state.md R34). -/
theorem cnt_succ_toNat {s : State} (h : s.cnt < s.budL) : (s.cnt + 1).toNat = s.cnt.toNat + 1 := by
  have := s.budL.isLt
  have := BitVec.lt_def.mp h
  have h1 : (1 : Word).toNat = 1 := rfl
  rw [BitVec.toNat_add, h1]
  omega

/-! ## Bits and bytes -/

theorem endBit_cases (s : State) :
    (s.bitIdx = 7#3 ∧ endBit s = s.goto Code.sByteEnd) ∨
    (s.bitIdx ≠ 7#3 ∧ endBit s = State.enterWait Code.sBitRise { s with bitIdx := s.bitIdx + 1 }) := by
  by_cases h : s.bitIdx = 7#3 <;> simp [endBit, h]

theorem nextByte_cases (s : State) :
    (s.byteIdx = 4#3 ∧ nextByte s = s.goto Code.sCheck) ∨
    (s.byteIdx ≠ 4#3 ∧ nextByte s = beginByte { s with byteIdx := s.byteIdx + 1 }) := by
  by_cases h : s.byteIdx = 4#3 <;> simp [nextByte, h]

/-- The working timeout flags after byte `k` is marked: flag `k` is set and no other changes. -/
theorem markByte_getLsbD (flags : BitVec 5) (k : BitVec 3) (j : Nat) :
    (markByte flags k).getLsbD j = (flags.getLsbD j || (decide (j < 5) && j == k.toNat)) := by
  simp only [markByte, BitVec.getLsbD_or, BitVec.getLsbD_shiftLeft, BitVec.getLsbD_one]
  by_cases h : j = k.toNat
  · simp [h]
  · by_cases h2 : j < k.toNat
    · simp [h, h2]
    · simp [h, h2, show ¬ j - k.toNat = 0 by omega]

/-! ## The register window -/

@[simp] theorem readReg_ctrl (s : State) : readReg offCtrl s = ctrlWord s := rfl
@[simp] theorem readReg_status (s : State) : readReg offStatus s = statusWord s := rfl
@[simp] theorem readReg_data (s : State) : readReg offData s = s.data := rfl
@[simp] theorem readReg_chk (s : State) : readReg offChk s = chkWord s := rfl
@[simp] theorem readReg_budget (s : State) : readReg offBudget s = s.budget := rfl
@[simp] theorem readReg_param (s : State) : readReg offParam s = paramWord := rfl

/-- A reserved offset reads 0 (20_memory.md R64). -/
theorem readReg_reserved {off : Offset} (h : 0x18#6 ≤ off) (s : State) : readReg off s = 0#32 := by
  have (k : Offset) (hk : k < 0x18#6) : off ≠ k := fun e => absurd (e ▸ hk) (BitVec.not_lt.mpr h)
  simp [readReg, this]

/-- Everything a write of the window can do (20_memory.md R68). -/
theorem writeReg_cases (off : Offset) (d : Word) (s : State) :
    (off = offCtrl ∧ writeReg off d s = writeCtrl d s) ∨
    (off = offStatus ∧ writeReg off d s = writeStatus d s) ∨
    (off = offBudget ∧ writeReg off d s = writeBudget d s) ∨
    (off ≠ offCtrl ∧ off ≠ offStatus ∧ off ≠ offBudget ∧ writeReg off d s = s) := by
  unfold writeReg
  split_ifs <;> simp_all

/-- Everything a write of CTRL can do (42_host_interface.md R171). -/
theorem writeCtrl_cases (d : Word) (s : State) :
    (startBit d = false ∧ writeCtrl d s = { s with ie := ieBit d }) ∨
    (startBit d = true ∧ s.fsmState = Code.idle ∧ writeCtrl d s = acceptStart { s with ie := ieBit d }) ∨
    (startBit d = true ∧ s.fsmState ≠ Code.idle ∧ writeCtrl d s = { s with ie := ieBit d, sovr := true }) := by
  cases h : startBit d
  · simp [writeCtrl, h]
  · by_cases hs : s.fsmState = Code.idle <;> simp [writeCtrl, requestStart, h, hs]

/-! ## Outcomes -/

/-- What the machine records of an agent's step (20_memory.md R62, 41_frame_decoder.md R150). -/
theorem record_next_iff {s t : State} {r : Result} :
    record s r = .next t ↔
      r = .next t ∨ (∃ f, r = .fault f ∧ t = s.markFault f) ∨
        (r = .refused .badAccess ∧ t = s.markRefused .badAccess) := by
  rcases r with _ | f | rf
  · simp [record]
  · cases f
    simp only [record, Host.Outcome.next.injEq, reduceCtorEq, false_or, false_and, or_false]
    exact ⟨fun e => ⟨.illegalState, trivial, e.symm⟩, fun ⟨f, _, e⟩ => by cases f; exact e.symm⟩
  · cases rf <;> simp [record, eq_comm]

end Sys2Proof.Machine
end

