-- ==== Sys2Proof/Laws/PerInstr.lean ====
section
/-!
SUPPORT. Laws/PerInstr.lean: statements for all instructions, one lemma per constructor. Family InTableRow: the
encoding of a well-formed instruction is a word of the instruction's row of spec/opcode_table.json
(30_encoding.md R88 to R90).
-/

namespace Sys2Proof

/-- WDATA never selects a row: a row whose mask leaves WDATA out hits whatever WDATA is (30_encoding.md R88). -/
theorem Row.hits_mkHaw (r : Row) (size : BitVec 2) (we : Bool) (off : Offset) (d : Word)
    (h : r.mask &&& 0xFFFFFFFF#41 = 0#41) :
    r.hits (mkHaw size we off d) = r.hits (mkHaw size we off 0#32) := by
  rw [Bool.eq_iff_iff, Row.hits_iff, Row.hits_iff]
  refine forall_congr' fun i => forall_congr' fun hi => ?_
  by_cases h32 : i < 32
  · have hb : r.mask.getLsbD i = false := by
      have e := congrArg (BitVec.getLsbD · i) h
      have hm : (0xFFFFFFFF#41).getLsbD i = true := by interval_cases i <;> rfl
      simpa [BitVec.getLsbD_and, hm] using e
    simp [hb]
  · simp [mkHaw_getLsbD, h32]

theorem rsvdLow_hits : ∀ off : Offset, rsvdLowOffset off = true → ∀ we : Bool,
    (tableRow (if we then .wrRsvdLow off 0#32 else .rdRsvdLow off)).hits (mkHaw size32 we off 0#32) = true := by
  decide

theorem rsvdHigh_hits : ∀ off : Offset, rsvdHighOffset off = true → ∀ we : Bool,
    (tableRow (if we then .wrRsvdHigh off 0#32 else .rdRsvdHigh off)).hits (mkHaw size32 we off 0#32) = true := by
  decide

theorem badSize_hits : ∀ (we : Bool) (off : Offset),
    (tableRow (.badSize8 we off 0#32)).hits (mkHaw 0b00#2 we off 0#32) = true ∧
    (tableRow (.badSize16 we off 0#32)).hits (mkHaw 0b01#2 we off 0#32) = true ∧
    (tableRow (.badSizeRsvd we off 0#32)).hits (mkHaw 0b11#2 we off 0#32) = true := by
  decide

theorem badAlign_hits : ∀ (we : Bool) (off : Offset),
    (lowBitsAre 1#2 off = true → (tableRow (.badAlign1 we off 0#32)).hits (mkHaw size32 we off 0#32) = true) ∧
    (lowBitsAre 2#2 off = true → (tableRow (.badAlign2 we off 0#32)).hits (mkHaw size32 we off 0#32) = true) ∧
    (lowBitsAre 3#2 off = true → (tableRow (.badAlign3 we off 0#32)).hits (mkHaw size32 we off 0#32) = true) := by
  decide

end Sys2Proof

namespace Sys2Proof.Laws.InTableRow

/-- The encoding is a word of the instruction's row. -/
def Statement (i : Instr) : Prop := i.wellFormed = true → (tableRow i).hits (encode i).bits = true

theorem rdCtrl : Statement .rdCtrl := fun _ => rfl

theorem wrCtrl (d : Word) : Statement (.wrCtrl d) := fun _ => by
  show Row.hits _ (mkHaw _ _ _ d) = true
  rw [Row.hits_mkHaw _ _ _ _ _ (by simp [tableRow, maskFull])]
  show (tableRow (.wrCtrl 0#32)).hits (mkHaw size32 true offCtrl 0#32) = true
  decide

theorem rdStatus : Statement .rdStatus := fun _ => rfl

theorem wrStatus (d : Word) : Statement (.wrStatus d) := fun _ => by
  show Row.hits _ (mkHaw _ _ _ d) = true
  rw [Row.hits_mkHaw _ _ _ _ _ (by simp [tableRow, maskFull])]
  show (tableRow (.wrStatus 0#32)).hits (mkHaw size32 true offStatus 0#32) = true
  decide

theorem rdData : Statement .rdData := fun _ => rfl

theorem wrData (d : Word) : Statement (.wrData d) := fun _ => by
  show Row.hits _ (mkHaw _ _ _ d) = true
  rw [Row.hits_mkHaw _ _ _ _ _ (by simp [tableRow, maskFull])]
  show (tableRow (.wrData 0#32)).hits (mkHaw size32 true offData 0#32) = true
  decide

theorem rdChk : Statement .rdChk := fun _ => rfl

theorem wrChk (d : Word) : Statement (.wrChk d) := fun _ => by
  show Row.hits _ (mkHaw _ _ _ d) = true
  rw [Row.hits_mkHaw _ _ _ _ _ (by simp [tableRow, maskFull])]
  show (tableRow (.wrChk 0#32)).hits (mkHaw size32 true offChk 0#32) = true
  decide

theorem rdBudget : Statement .rdBudget := fun _ => rfl

theorem wrBudget (d : Word) : Statement (.wrBudget d) := fun _ => by
  show Row.hits _ (mkHaw _ _ _ d) = true
  rw [Row.hits_mkHaw _ _ _ _ _ (by simp [tableRow, maskFull])]
  show (tableRow (.wrBudget 0#32)).hits (mkHaw size32 true offBudget 0#32) = true
  decide

theorem rdParam : Statement .rdParam := fun _ => rfl

theorem wrParam (d : Word) : Statement (.wrParam d) := fun _ => by
  show Row.hits _ (mkHaw _ _ _ d) = true
  rw [Row.hits_mkHaw _ _ _ _ _ (by simp [tableRow, maskFull])]
  show (tableRow (.wrParam 0#32)).hits (mkHaw size32 true offParam 0#32) = true
  decide

theorem rdRsvdLow (off : Offset) : Statement (.rdRsvdLow off) := fun h => rsvdLow_hits off h false

theorem wrRsvdLow (off : Offset) (d : Word) : Statement (.wrRsvdLow off d) := fun h => by
  show Row.hits _ (mkHaw _ _ _ d) = true
  rw [Row.hits_mkHaw _ _ _ _ _ (by simp [tableRow])]
  exact rsvdLow_hits off h true

theorem rdRsvdHigh (off : Offset) : Statement (.rdRsvdHigh off) := fun h => rsvdHigh_hits off h false

theorem wrRsvdHigh (off : Offset) (d : Word) : Statement (.wrRsvdHigh off d) := fun h => by
  show Row.hits _ (mkHaw _ _ _ d) = true
  rw [Row.hits_mkHaw _ _ _ _ _ (by simp [tableRow])]
  exact rsvdHigh_hits off h true

theorem badSize8 (we : Bool) (off : Offset) (d : Word) : Statement (.badSize8 we off d) := fun _ => by
  show Row.hits _ (mkHaw _ _ _ d) = true
  rw [Row.hits_mkHaw _ _ _ _ _ (by simp [tableRow])]
  exact (badSize_hits we off).1

theorem badSize16 (we : Bool) (off : Offset) (d : Word) : Statement (.badSize16 we off d) := fun _ => by
  show Row.hits _ (mkHaw _ _ _ d) = true
  rw [Row.hits_mkHaw _ _ _ _ _ (by simp [tableRow])]
  exact (badSize_hits we off).2.1

theorem badSizeRsvd (we : Bool) (off : Offset) (d : Word) : Statement (.badSizeRsvd we off d) := fun _ => by
  show Row.hits _ (mkHaw _ _ _ d) = true
  rw [Row.hits_mkHaw _ _ _ _ _ (by simp [tableRow])]
  exact (badSize_hits we off).2.2

theorem badAlign1 (we : Bool) (off : Offset) (d : Word) : Statement (.badAlign1 we off d) := fun h => by
  show Row.hits _ (mkHaw _ _ _ d) = true
  rw [Row.hits_mkHaw _ _ _ _ _ (by simp [tableRow])]
  exact (badAlign_hits we off).1 (Bool.and_eq_true _ _ ▸ h).1

theorem badAlign2 (we : Bool) (off : Offset) (d : Word) : Statement (.badAlign2 we off d) := fun h => by
  show Row.hits _ (mkHaw _ _ _ d) = true
  rw [Row.hits_mkHaw _ _ _ _ _ (by simp [tableRow])]
  exact (badAlign_hits we off).2.1 (Bool.and_eq_true _ _ ▸ h).1

theorem badAlign3 (we : Bool) (off : Offset) (d : Word) : Statement (.badAlign3 we off d) := fun h => by
  show Row.hits _ (mkHaw _ _ _ d) = true
  rw [Row.hits_mkHaw _ _ _ _ _ (by simp [tableRow])]
  exact (badAlign_hits we off).2.2 (Bool.and_eq_true _ _ ▸ h).1

theorem idle : Statement .idle := fun _ => rfl

theorem sDirOut : Statement .sDirOut := fun _ => rfl

theorem sDriveLow : Statement .sDriveLow := fun _ => rfl

theorem sHoldLow : Statement .sHoldLow := fun _ => rfl

theorem sDriveHigh : Statement .sDriveHigh := fun _ => rfl

theorem sHoldHigh : Statement .sHoldHigh := fun _ => rfl

theorem sDirIn : Statement .sDirIn := fun _ => rfl

theorem sRespWait : Statement .sRespWait := fun _ => rfl

theorem sSettle : Statement .sSettle := fun _ => rfl

theorem sBitRise : Statement .sBitRise := fun _ => rfl

theorem sBitDelay : Statement .sBitDelay := fun _ => rfl

theorem sBitSample : Statement .sBitSample := fun _ => rfl

theorem sBitFall : Statement .sBitFall := fun _ => rfl

theorem sByteEnd : Statement .sByteEnd := fun _ => rfl

theorem sCheck : Statement .sCheck := fun _ => rfl

theorem reservedF : Statement .reservedF := fun _ => rfl

end Sys2Proof.Laws.InTableRow
end

