-- ==== Sys2Proof/Laws/Step.lean ====
section
/-!
SUPPORT. Laws/Step.lean: everything a step can do, as one inversion lemma for each of the step, a host access and
an FSM step.
-/

namespace Sys2Proof.Machine

/-- The effect of an FSM state's operation, one case for each way an operation goes on. -/
inductive FsmEffect (s : State) : FsmCode → State → Prop where
  | idle : FsmEffect s Code.idle s
  | dirOut : FsmEffect s Code.sDirOut ((setDir .output s).goto Code.sDriveLow)
  | driveLow : FsmEffect s Code.sDriveLow ((setLvl .low s).goto Code.sHoldLow)
  | holdLow : FsmEffect s Code.sHoldLow ((delayMs Config.tStartMs s).goto Code.sDriveHigh)
  | driveHigh : FsmEffect s Code.sDriveHigh ((setLvl .high s).goto Code.sHoldHigh)
  | holdHigh : FsmEffect s Code.sHoldHigh ((delayUs Config.tRelUs s).goto Code.sDirIn)
  | dirIn : FsmEffect s Code.sDirIn ((setDir .input s).enterWait Code.sRespWait)
  | respTimedOut : s.budL ≤ s.cnt →
      FsmEffect s Code.sRespWait (State.goto Code.sSettle { s with wRespTo := true })
  | respReached : s.cnt < s.budL → drawn s = .high → FsmEffect s Code.sRespWait ((lineRead s).goto Code.sSettle)
  | respFailed : s.cnt < s.budL → drawn s = .low → FsmEffect s Code.sRespWait { lineRead s with cnt := s.cnt + 1 }
  | settle : FsmEffect s Code.sSettle (beginByte { delayUs Config.tSettleUs s with byteIdx := 0#3 })
  | riseTimedOut : s.budL ≤ s.cnt → FsmEffect s Code.sBitRise (abortByte s)
  | riseReached : s.cnt < s.budL → drawn s = .high → FsmEffect s Code.sBitRise ((lineRead s).goto Code.sBitDelay)
  | riseFailed : s.cnt < s.budL → drawn s = .low → FsmEffect s Code.sBitRise { lineRead s with cnt := s.cnt + 1 }
  | bitDelay : FsmEffect s Code.sBitDelay ((delayUs Config.tBitUs s).goto Code.sBitSample)
  | bitSample : FsmEffect s Code.sBitSample
      (State.enterWait Code.sBitFall { lineRead s with sh := shiftIn s.sh (drawn s) })
  | fallTimedOut : s.budL ≤ s.cnt → FsmEffect s Code.sBitFall (abortByte s)
  | fallLast : s.cnt < s.budL → drawn s = .low → s.bitIdx = 7#3 →
      FsmEffect s Code.sBitFall ((lineRead s).goto Code.sByteEnd)
  | fallNext : s.cnt < s.budL → drawn s = .low → s.bitIdx ≠ 7#3 →
      FsmEffect s Code.sBitFall (State.enterWait Code.sBitRise { lineRead s with bitIdx := s.bitIdx + 1 })
  | fallFailed : s.cnt < s.budL → drawn s = .high → FsmEffect s Code.sBitFall { lineRead s with cnt := s.cnt + 1 }
  | byteLast : s.byteIdx = 4#3 → FsmEffect s Code.sByteEnd ((commitByte s).goto Code.sCheck)
  | byteNext : s.byteIdx ≠ 4#3 →
      FsmEffect s Code.sByteEnd (beginByte { commitByte s with byteIdx := s.byteIdx + 1 })
  | check : FsmEffect s Code.sCheck (commitResults s)

/-- A 4-bit code is one of the sixteen. -/
theorem code_cases (c : FsmCode) :
    c = Code.idle ∨ c = Code.sDirOut ∨ c = Code.sDriveLow ∨ c = Code.sHoldLow ∨ c = Code.sDriveHigh ∨
    c = Code.sHoldHigh ∨ c = Code.sDirIn ∨ c = Code.sRespWait ∨ c = Code.sSettle ∨ c = Code.sBitRise ∨
    c = Code.sBitDelay ∨ c = Code.sBitSample ∨ c = Code.sBitFall ∨ c = Code.sByteEnd ∨ c = Code.sCheck ∨
    c = Code.reservedF := by
  revert c
  decide

theorem Level.low_of_ne_high {l : Level} (h : l ≠ .high) : l = .low := by cases l <;> simp_all

theorem Level.high_of_ne_low {l : Level} (h : l ≠ .low) : l = .high := by cases l <;> simp_all

/-- An FSM operation other than the illegal code's answers a next state with its effect. -/
theorem exec_decodeFsm {s t : State} {c : FsmCode} (h : exec (decodeFsm c) s = .next t) : FsmEffect s c t := by
  obtain rfl | rfl | rfl | rfl | rfl | rfl | rfl | rfl | rfl | rfl | rfl | rfl | rfl | rfl | rfl | rfl :=
    code_cases c
  case inr.inr.inr.inr.inr.inr.inr.inr.inr.inr.inr.inr.inr.inr.inr => exact nomatch h
  all_goals obtain rfl := Host.Outcome.next.inj h
  · exact .idle
  · exact .dirOut
  · exact .driveLow
  · exact .holdLow
  · exact .driveHigh
  · exact .holdHigh
  · exact .dirIn
  · obtain ⟨h, e⟩ | ⟨h, hl, e⟩ | ⟨h, hl, e⟩ := waitStep_cases .high (State.goto Code.sSettle)
      (fun t => State.goto Code.sSettle { t with wRespTo := true }) s <;> rw [e]
    · exact .respTimedOut h
    · exact .respReached h hl
    · exact .respFailed h (Level.low_of_ne_high hl)
  · exact .settle
  · obtain ⟨h, e⟩ | ⟨h, hl, e⟩ | ⟨h, hl, e⟩ := waitStep_cases .high (State.goto Code.sBitDelay) abortByte s <;> rw [e]
    · exact .riseTimedOut h
    · exact .riseReached h hl
    · exact .riseFailed h (Level.low_of_ne_high hl)
  · exact .bitDelay
  · exact .bitSample
  · obtain ⟨h, e⟩ | ⟨h, hl, e⟩ | ⟨h, hl, e⟩ := waitStep_cases .low endBit abortByte s <;> rw [e]
    · exact .fallTimedOut h
    · obtain ⟨hb, e⟩ | ⟨hb, e⟩ := endBit_cases (lineRead s) <;> rw [e]
      · exact .fallLast h hl hb
      · exact .fallNext h hl hb
    · exact .fallFailed h (Level.high_of_ne_low hl)
  · obtain ⟨h, e⟩ | ⟨h, e⟩ := nextByte_cases (commitByte s) <;> rw [e]
    · exact .byteLast h
    · exact .byteNext h
  · exact .check

/-- Every FSM operation but the illegal code's answers a next state. -/
theorem exec_decodeFsm_next {s : State} {c : FsmCode} (h : c ≠ Code.reservedF) :
    ∃ t, exec (decodeFsm c) s = .next t := by
  obtain rfl | rfl | rfl | rfl | rfl | rfl | rfl | rfl | rfl | rfl | rfl | rfl | rfl | rfl | rfl | rfl :=
    code_cases c
  case inr.inr.inr.inr.inr.inr.inr.inr.inr.inr.inr.inr.inr.inr.inr => exact absurd rfl h
  all_goals exact ⟨_, rfl⟩

theorem exec_decodeRead (off : Offset) (s : State) : exec (decodeRead off) s = hostRead off s := by
  simp only [decodeRead]
  split_ifs <;> first | rfl | (subst_vars; rfl)

theorem exec_decodeWrite (off : Offset) (d : Word) (s : State) : exec (decodeWrite off d) s = hostWrite off d s := by
  simp only [decodeWrite]
  split_ifs <;> first | rfl | (subst_vars; rfl)

/-- A host access is a defined read, a defined write or a refused access (30_encoding.md R88, R89). -/
theorem decodeHaw_cases (w : Haw) :
    ((hawSize w = size32 ∧ (hawAddr w).extractLsb' 0 2 = 0#2) ∧ hawWe w = false ∧
      decodeHaw w = decodeRead (hawAddr w)) ∨
    ((hawSize w = size32 ∧ (hawAddr w).extractLsb' 0 2 = 0#2) ∧ hawWe w = true ∧
      decodeHaw w = decodeWrite (hawAddr w) (hawWdata w)) ∨
    (¬ (hawSize w = size32 ∧ (hawAddr w).extractLsb' 0 2 = 0#2) ∧
      ∀ s, exec (decodeHaw w) s = .refused .badAccess) := by
  have hsize : ∀ v : BitVec 2, v = 0b00#2 ∨ v = 0b01#2 ∨ v = 0b11#2 ∨ v = size32 := by decide
  obtain e | e | e | e := hsize (hawSize w)
  · exact .inr (.inr ⟨by simp [e, size32], fun s => by rw [decodeHaw, e]; rfl⟩)
  · exact .inr (.inr ⟨by simp [e, size32], fun s => by rw [decodeHaw, e]; rfl⟩)
  · exact .inr (.inr ⟨by simp [e, size32], fun s => by rw [decodeHaw, e]; rfl⟩)
  have hd : decodeHaw w = decodeSize32 (hawWe w) (hawAddr w) (carriedWdata (hawWe w) (hawWdata w)) := by
    rw [decodeHaw, e]; rfl
  have hlow : ∀ v : BitVec 2, v = 1#2 ∨ v = 2#2 ∨ v = 3#2 ∨ v = 0#2 := by decide
  obtain l | l | l | l := hlow ((hawAddr w).extractLsb' 0 2)
  · exact .inr (.inr ⟨by simp [l], fun s => by rw [hd]; simp [decodeSize32, lowBitsAre, l]; rfl⟩)
  · exact .inr (.inr ⟨by simp [l], fun s => by rw [hd]; simp [decodeSize32, lowBitsAre, l]; rfl⟩)
  · exact .inr (.inr ⟨by simp [l], fun s => by rw [hd]; simp [decodeSize32, lowBitsAre, l]; rfl⟩)
  cases hw : hawWe w
  · exact .inl ⟨⟨e, l⟩, rfl, by rw [hd]; simp [decodeSize32, lowBitsAre, l, hw]⟩
  · exact .inr (.inl ⟨⟨e, l⟩, rfl, by rw [hd]; simp [decodeSize32, lowBitsAre, l, hw, carriedWdata]⟩)

/-- Everything a host access can leave. -/
theorem hostMove_cases {w : Haw} {s t : State} (h : hostMove w s = .next t) :
    (decodeHaw w = decodeRead (hawAddr w) ∧ t = s.respond (readReg (hawAddr w) s)) ∨
    (decodeHaw w = decodeWrite (hawAddr w) (hawWdata w) ∧ t = writeReg (hawAddr w) (hawWdata w) s) ∨
    t = s.markRefused .badAccess := by
  obtain ⟨_, _, e⟩ | ⟨_, _, e⟩ | ⟨_, e⟩ := decodeHaw_cases w
  · rw [hostMove, e, exec_decodeRead] at h
    exact .inl ⟨e, (Host.Outcome.next.inj h).symm⟩
  · rw [hostMove, e, exec_decodeWrite] at h
    exact .inr (.inl ⟨e, (Host.Outcome.next.inj h).symm⟩)
  · rw [hostMove, e] at h
    exact .inr (.inr (Host.Outcome.next.inj h).symm)

/-- A host access always goes on. -/
theorem hostMove_next (w : Haw) (s : State) : ∃ t, hostMove w s = .next t := by
  obtain ⟨_, _, e⟩ | ⟨_, _, e⟩ | ⟨_, e⟩ := decodeHaw_cases w
  · exact ⟨_, by rw [hostMove, e, exec_decodeRead]; rfl⟩
  · exact ⟨_, by rw [hostMove, e, exec_decodeWrite]; rfl⟩
  · exact ⟨_, by rw [hostMove, e]; rfl⟩

/-- Everything an FSM step can leave. -/
theorem fsmMove_cases {s t : State} (h : fsmMove s = .next t) :
    FsmEffect s s.fsmState t ∨ (s.fsmState = Code.reservedF ∧ t = s.markFault .illegalState) := by
  by_cases hs : s.fsmState = Code.reservedF
  · refine .inr ⟨hs, ?_⟩
    rw [fsmMove, hs] at h
    exact (Host.Outcome.next.inj h).symm
  · obtain ⟨u, hu⟩ := exec_decodeFsm_next (s := s) hs
    rw [fsmMove, hu] at h
    obtain rfl := Host.Outcome.next.inj h
    exact .inl (exec_decodeFsm hu)

/-! ## Which move a step is -/

theorem step_host {s : State} {w : Haw} (hm : nextMove s = .host w) (hf : s.faultMark = none) :
    step s = hostMove w s.popMove := by
  simp only [step, moveStep, hm, popMove_faultMark, hf]

theorem step_fsm {s : State} (hm : nextMove s = .fsm) (hf : s.faultMark = none) : step s = fsmMove s.popMove := by
  simp only [step, moveStep, hm, popMove_faultMark, hf]

theorem step_reset {s : State} (hm : nextMove s = .reset) : step s = .next (resetInput s.popMove) := by
  simp only [step, moveStep, hm]

theorem step_marked {s : State} {f : Fault} (hm : nextMove s ≠ .reset) (hf : s.faultMark = some f) :
    step s = .fault f := by
  simp only [step, moveStep, popMove_faultMark, hf]

/-- Where the agenda is empty the FSM runs, and taking its move changes nothing. -/
theorem step_alone {s : State} (ha : s.agenda = []) (hf : s.faultMark = none) : step s = fsmMove s := by
  have hp : s.popMove = s := by
    obtain ⟨⟩ := s
    cases ha
    rfl
  rw [step_fsm (by rw [nextMove, ha]; rfl) hf, hp]

theorem hostMove_of_next {w : Haw} {s t : State} (h : exec (decodeHaw w) s = .next t) : hostMove w s = .next t := by
  rw [hostMove, h]; rfl

theorem hostMove_of_refused {w : Haw} {s : State} (h : exec (decodeHaw w) s = .refused .badAccess) :
    hostMove w s = .next (s.markRefused .badAccess) := by
  rw [hostMove, h]; rfl

theorem fsmMove_of_next {s t : State} (h : exec (decodeFsm s.fsmState) s = .next t) : fsmMove s = .next t := by
  rw [fsmMove, h]; rfl

theorem fsmMove_of_fault {s : State} {f : Fault} (h : exec (decodeFsm s.fsmState) s = .fault f) :
    fsmMove s = .next (s.markFault f) := by
  rw [fsmMove, h]; rfl

/-- Everything a step can do when it answers a next state. -/
theorem step_cases {s t : State} (h : step s = .next t) :
    (nextMove s = .reset ∧ t = resetInput s.popMove) ∨
    (∃ w, nextMove s = .host w ∧ s.faultMark = none ∧ hostMove w s.popMove = .next t) ∨
    (nextMove s = .fsm ∧ s.faultMark = none ∧ fsmMove s.popMove = .next t) := by
  simp only [step, moveStep, popMove_faultMark] at h
  cases hm : nextMove s with
  | reset => exact .inl ⟨rfl, by simpa [hm] using h.symm⟩
  | host w => cases hf : s.faultMark <;> simp [hm, hf] at h; exact .inr (.inl ⟨w, rfl, rfl, h⟩)
  | fsm => cases hf : s.faultMark <;> simp [hm, hf] at h; exact .inr (.inr ⟨rfl, rfl, h⟩)

/-- What a host access leaves, one case for each way it goes on. -/
inductive HostEffect (s : State) (w : Haw) : State → Prop where
  | read : decodeHaw w = decodeRead (hawAddr w) → HostEffect s w (s.respond (readReg (hawAddr w) s))
  | ctrlEnable : decodeHaw w = .wrCtrl (hawWdata w) → (hawWdata w).getLsbD 0 = false →
      HostEffect s w { s with ie := ieBit (hawWdata w) }
  | ctrlStart : decodeHaw w = .wrCtrl (hawWdata w) → (hawWdata w).getLsbD 0 = true → s.fsmState = Code.idle →
      HostEffect s w (acceptStart { s with ie := ieBit (hawWdata w) })
  | ctrlOverrun : decodeHaw w = .wrCtrl (hawWdata w) → (hawWdata w).getLsbD 0 = true → s.fsmState ≠ Code.idle →
      HostEffect s w { s with ie := ieBit (hawWdata w), sovr := true }
  | status : decodeHaw w = .wrStatus (hawWdata w) → HostEffect s w (writeStatus (hawWdata w) s)
  | budget : decodeHaw w = .wrBudget (hawWdata w) → HostEffect s w (writeBudget (hawWdata w) s)
  | ignored : decodeHaw w = decodeWrite (hawAddr w) (hawWdata w) → HostEffect s w s
  | refused : HostEffect s w (s.markRefused .badAccess)

/-- A host access that goes on has its effect. -/
theorem hostMove_effect {w : Haw} {s t : State} (h : hostMove w s = .next t) : HostEffect s w t := by
  obtain ⟨hd, rfl⟩ | ⟨hd, rfl⟩ | rfl := hostMove_cases h
  · exact .read hd
  · obtain ⟨ha, e⟩ | ⟨ha, e⟩ | ⟨ha, e⟩ | ⟨_, _, _, e⟩ := writeReg_cases (hawAddr w) (hawWdata w) s <;> rw [e]
    · have hd' : decodeHaw w = .wrCtrl (hawWdata w) := by rw [hd, ha]; rfl
      obtain ⟨h1, e⟩ | ⟨h1, h2, e⟩ | ⟨h1, h2, e⟩ := writeCtrl_cases (hawWdata w) s <;> rw [e]
      · exact .ctrlEnable hd' h1
      · exact .ctrlStart hd' h1 h2
      · exact .ctrlOverrun hd' h1 h2
    · exact .status (by rw [hd, ha]; rfl)
    · exact .budget (by rw [hd, ha]; rfl)
    · exact .ignored hd
  · exact .refused

/-- Everything a step can do, as the effect of its one move. -/
theorem step_effect {s t : State} (h : step s = .next t) :
    (nextMove s = .reset ∧ t = resetInput s.popMove) ∨
    (∃ w, nextMove s = .host w ∧ s.faultMark = none ∧ HostEffect s.popMove w t) ∨
    (nextMove s = .fsm ∧ s.faultMark = none ∧ FsmEffect s.popMove s.fsmState t) ∨
    (nextMove s = .fsm ∧ s.faultMark = none ∧ s.fsmState = Code.reservedF ∧ t = s.popMove.markFault .illegalState) := by
  obtain h | ⟨w, hm, hf, e⟩ | ⟨hm, hf, e⟩ := step_cases h
  · exact .inl h
  · exact .inr (.inl ⟨w, hm, hf, hostMove_effect e⟩)
  · obtain e | ⟨hs, rfl⟩ := fsmMove_cases e
    · exact .inr (.inr (.inl ⟨hm, hf, by simpa using e⟩))
    · exact .inr (.inr (.inr ⟨hm, hf, by simpa using hs, rfl⟩))

end Sys2Proof.Machine
end

