-- ==== Sys2Proof/Laws/Run.lean ====
section
/-!
SUPPORT. Laws/Run.lean: runs of several steps, taken apart and put together.
-/

namespace Sys2Proof.Machine

@[simp] theorem run_zero (s : State) : run 0 s = .next s := rfl

/-- A run whose first step goes on is the run of the others from there. -/
theorem run_succ {s t : State} (n : Nat) (h : step s = .next t) : run (n + 1) s = run n t := by
  have hc : Sys2Proof.core.step s = .next t := h
  simp only [run, Host.Core.run, hc]
  rfl

/-- A run of one step. -/
theorem run_one {s t : State} (h : step s = .next t) : run 1 s = .next t := run_succ 0 h

/-- The first step of a run that goes on. -/
theorem run_succ_next {s t : State} {n : Nat} (h : run (n + 1) s = .next t) :
    ∃ u, step s = .next u ∧ run n u = .next t := by
  cases hs : step s with
  | next u => exact ⟨u, rfl, by rw [run_succ n hs] at h; exact h⟩
  | fault f =>
    have hc : Sys2Proof.core.step s = .fault f := hs
    simp only [run, Host.Core.run, hc] at h
    exact nomatch h
  | refused r =>
    have hc : Sys2Proof.core.step s = .refused r := hs
    simp only [run, Host.Core.run, hc] at h
    exact nomatch h

/-- Two runs end to end are one. -/
theorem run_add {s t u : State} {m n : Nat} (hm : run m s = .next t) (hn : run n t = .next u) :
    run (m + n) s = .next u := by
  induction m generalizing s with
  | zero =>
    obtain rfl := Host.Outcome.next.inj hm
    simpa using hn
  | succ m ih =>
    obtain ⟨v, hv, hm⟩ := run_succ_next hm
    rw [Nat.succ_add, run_succ _ hv]
    exact ih hm

/-- While the FSM runs alone, a step is its operation (41_frame_decoder.md R131). -/
theorem step_of_alone {s t : State} (h : Alone s) (he : exec (decodeFsm s.fsmState) s = .next t) :
    step s = .next t := by
  rw [step_alone h.1 h.2]
  exact fsmMove_of_next he

end Sys2Proof.Machine
end

