-- ==== Sys2Proof/Laws/Words.lean ====
section
/-!
SUPPORT. Laws/Words.lean: the bits of the register words as they read, one lemma per word.
-/

namespace Sys2Proof.Machine

/-- The bits of CTRL (42_host_interface.md R172). -/
theorem ctrlWord_getLsbD (s : State) (i : Nat) : (ctrlWord s).getLsbD i = (s.ie && i == 1) := by
  show BitVec.getLsbD (w := 30 + 1 + 1) (0#30 ++ BitVec.ofBool s.ie ++ 0#1) i = _
  simp only [BitVec.getLsbD_append]
  rcases i with _ | _ | i <;> simp

/-- The bits of STATUS, field by field (42_host_interface.md R173). -/
theorem statusWord_getLsbD (s : State) (i : Nat) :
    (statusWord s).getLsbD i =
      if i < 1 then s.busy
      else if i < 2 then s.done
      else if i < 3 then s.valid
      else if i < 4 then s.outcome.bit.getLsbD 0
      else if i < 5 then s.respTo
      else if i < 10 then s.byteTo.getLsbD (i - 5)
      else if i < 11 then s.sovr
      else if i < 16 then false
      else s.fsmState.getLsbD (i - 16) := by
  show BitVec.getLsbD (w := 12 + 4 + 5 + 1 + 5 + 1 + 1 + 1 + 1 + 1)
    (0#12 ++ s.fsmState ++ 0#5 ++ BitVec.ofBool s.sovr ++ s.byteTo ++ BitVec.ofBool s.respTo
      ++ s.outcome.bit ++ BitVec.ofBool s.valid ++ BitVec.ofBool s.done ++ BitVec.ofBool s.busy) i = _
  simp only [BitVec.getLsbD_append]
  by_cases h : i < 16
  · interval_cases i <;> simp
  · simp [show ¬ i < 1 by omega, show ¬ i < 2 by omega, show ¬ i < 3 by omega, show ¬ i < 4 by omega,
      show ¬ i < 5 by omega, show ¬ i < 10 by omega, show ¬ i < 11 by omega, h,
      show ¬ i - 1 < 1 by omega, show ¬ i - 1 - 1 < 1 by omega, show ¬ i - 1 - 1 - 1 < 1 by omega,
      show ¬ i - 1 - 1 - 1 - 1 < 1 by omega, show ¬ i - 1 - 1 - 1 - 1 - 1 < 5 by omega,
      show ¬ i - 1 - 1 - 1 - 1 - 1 - 5 < 1 by omega, show ¬ i - 1 - 1 - 1 - 1 - 1 - 5 - 1 < 5 by omega,
      show i - 1 - 1 - 1 - 1 - 1 - 5 - 1 - 5 = i - 16 by omega]
    exact BitVec.lt_of_getLsbD

/-- The byte lanes of DATA's layout (10_state.md R29, 20_memory.md R65). -/
@[simp] theorem byteLane_dataOf (b0 b1 b2 b3 : Byte) :
    byteLane 0 (dataOf b0 b1 b2 b3) = b0 ∧ byteLane 1 (dataOf b0 b1 b2 b3) = b1 ∧
      byteLane 2 (dataOf b0 b1 b2 b3) = b2 ∧ byteLane 3 (dataOf b0 b1 b2 b3) = b3 := by
  have bit (i : Nat) : (dataOf b0 b1 b2 b3).getLsbD i =
      if i < 8 then b0.getLsbD i else if i - 8 < 8 then b1.getLsbD (i - 8)
      else if i - 8 - 8 < 8 then b2.getLsbD (i - 8 - 8) else b3.getLsbD (i - 8 - 8 - 8) := by
    show BitVec.getLsbD (w := 8 + 8 + 8 + 8) (b3 ++ b2 ++ b1 ++ b0) i = _
    simp only [BitVec.getLsbD_append]
  refine ⟨?_, ?_, ?_, ?_⟩ <;> ext i hi <;>
    simp [byteLane, ← BitVec.getLsbD_eq_getElem, bit, hi]
  all_goals
    simp [show ¬ 16 + i < 8 by omega, show ¬ 16 + i - 8 < 8 by omega, show 16 + i - 8 - 8 = i by omega, hi,
      show ¬ 24 + i < 8 by omega, show ¬ 24 + i - 8 < 8 by omega, show ¬ 24 + i - 8 - 8 < 8 by omega,
      show 24 + i - 8 - 8 - 8 = i by omega]

/-- The byte lanes of CHK: CRC, SUM and the reserved bits (10_state.md R30). -/
@[simp] theorem byteLane_chkWord (s : State) :
    byteLane 0 (chkWord s) = s.crc ∧ byteLane 1 (chkWord s) = s.sum := by
  have bit (i : Nat) : (chkWord s).getLsbD i =
      if i < 8 then s.crc.getLsbD i else if i - 8 < 8 then s.sum.getLsbD (i - 8)
      else (0#16).getLsbD (i - 8 - 8) := by
    show BitVec.getLsbD (w := 16 + 8 + 8) (0#16 ++ s.sum ++ s.crc) i = _
    simp only [BitVec.getLsbD_append]
  refine ⟨?_, ?_⟩ <;> ext i hi <;> simp [byteLane, ← BitVec.getLsbD_eq_getElem, bit, hi]

/-- A byte shifted in from the line (41_frame_decoder.md R142). -/
theorem shiftIn_toNat (sh : Byte) (b : Level) :
    (shiftIn sh b).toNat = (2 * sh.toNat + (if b = .high then 1 else 0)) % 256 := by
  show BitVec.toNat (w := 7 + 1) (sh.extractLsb' 0 7 ++ b.bit) = _
  rw [BitVec.toNat_append, Nat.shiftLeft_eq, ← Nat.mul_comm (2 ^ 1),
    ← Nat.two_pow_add_eq_or_of_lt (i := 1) b.bit.isLt]
  cases b <;> simp [Level.bit] <;> omega

end Sys2Proof.Machine
end

