-- ==== Sys2Proof/Tests/Slice0.lean ====
section
/-!
SUPPORT. Tests/Slice0.lean: the WellFormed smoke tests, decoding tests on words written from the spec's encodings,
single-step tests from 95_test_vectors.md, and a witness for the hypotheses of each obligation that has some.
-/

namespace Sys2Proof.Tests

open Sys2Proof Sys2Proof.Machine

/-! ## WellFormed refuses each ill-formed shape -/

theorem test_wf_rdRsvdLow : (Instr.rdRsvdLow 0x20#6).wellFormed = false := by decide
theorem test_wf_wrRsvdLow : (Instr.wrRsvdLow 0x14#6 1#32).wellFormed = false := by decide
theorem test_wf_rdRsvdHigh_low : (Instr.rdRsvdHigh 0x1C#6).wellFormed = false := by decide
theorem test_wf_rdRsvdHigh_misaligned : (Instr.rdRsvdHigh 0x21#6).wellFormed = false := by decide
theorem test_wf_wrRsvdHigh : (Instr.wrRsvdHigh 0x3E#6 1#32).wellFormed = false := by decide
theorem test_wf_badSize_read_with_data :
    (Instr.badSize8 false 0#6 1#32).wellFormed = false ∧ (Instr.badSize16 false 0#6 1#32).wellFormed = false ∧
      (Instr.badSizeRsvd false 0#6 1#32).wellFormed = false := by decide
theorem test_wf_badAlign_low_bits :
    (Instr.badAlign1 true 0x02#6 1#32).wellFormed = false ∧ (Instr.badAlign2 true 0x03#6 1#32).wellFormed = false ∧
      (Instr.badAlign3 true 0x00#6 1#32).wellFormed = false := by decide
theorem test_wf_badAlign_read_with_data :
    (Instr.badAlign1 false 0x01#6 1#32).wellFormed = false ∧ (Instr.badAlign2 false 0x02#6 1#32).wellFormed = false ∧
      (Instr.badAlign3 false 0x03#6 1#32).wellFormed = false := by decide

/-! ## Decoding: words of 95_test_vectors.md section 5 and 30_encoding.md R87 to R90 -/

theorem test_decode_reads :
    decodeHaw 0x10000000000#41 = .rdCtrl ∧ decodeHaw 0x10400000000#41 = .rdStatus ∧
      decodeHaw 0x10800000000#41 = .rdData ∧ decodeHaw 0x10C00000000#41 = .rdChk ∧
      decodeHaw 0x11000000000#41 = .rdBudget ∧ decodeHaw 0x11400000000#41 = .rdParam := by decide
theorem test_decode_writes :
    decodeHaw 0x14000000003#41 = .wrCtrl 3#32 ∧ decodeHaw 0x14400000402#41 = .wrStatus 0x402#32 ∧
      decodeHaw 0x14812345678#41 = .wrData 0x12345678#32 ∧ decodeHaw 0x14CFFFFFFFF#41 = .wrChk 0xFFFFFFFF#32 ∧
      decodeHaw 0x15000000064#41 = .wrBudget 100#32 ∧ decodeHaw 0x15400000000#41 = .wrParam 0#32 := by decide
theorem test_decode_reserved :
    decodeHaw 0x11800000000#41 = .rdRsvdLow 0x18#6 ∧ decodeHaw 0x11C00000000#41 = .rdRsvdLow 0x1C#6 ∧
      decodeHaw 0x15C00000001#41 = .wrRsvdLow 0x1C#6 1#32 ∧ decodeHaw 0x12000000000#41 = .rdRsvdHigh 0x20#6 ∧
      decodeHaw 0x13C00000000#41 = .rdRsvdHigh 0x3C#6 ∧ decodeHaw 0x16000000001#41 = .wrRsvdHigh 0x20#6 1#32 := by
  decide
theorem test_decode_bad_size :
    decodeHaw 0x04000000001#41 = .badSize8 true 0#6 1#32 ∧
      decodeHaw 0x0C400000002#41 = .badSize16 true 0x04#6 2#32 ∧
      decodeHaw 0x18000000000#41 = .badSizeRsvd false 0#6 0#32 := by decide
theorem test_decode_bad_align :
    decodeHaw 0x14500000002#41 = .badAlign1 true 0x05#6 2#32 ∧ decodeHaw 0x10600000000#41 = .badAlign2 false 0x06#6 0#32 ∧
      decodeHaw 0x13F00000000#41 = .badAlign3 false 0x3F#6 0#32 := by decide
/-- A misaligned access of a wrong size is of the row of its size (30_encoding.md R89). -/
theorem test_decode_size_before_align : decodeHaw 0x00300000000#41 = .badSize8 false 0x03#6 0#32 := by decide
/-- A read's WDATA is ignored (30_encoding.md R87). -/
theorem test_decode_read_ignores_wdata : decodeHaw 0x108DEADBEEF#41 = .rdData := by decide
theorem test_decode_fsm_start :
    decodeFsm 0x0#4 = .idle ∧ decodeFsm 0x1#4 = .sDirOut ∧ decodeFsm 0x2#4 = .sDriveLow ∧ decodeFsm 0x3#4 = .sHoldLow ∧
      decodeFsm 0x4#4 = .sDriveHigh ∧ decodeFsm 0x5#4 = .sHoldHigh ∧ decodeFsm 0x6#4 = .sDirIn ∧
      decodeFsm 0x7#4 = .sRespWait := by decide
theorem test_decode_fsm_bits :
    decodeFsm 0x8#4 = .sSettle ∧ decodeFsm 0x9#4 = .sBitRise ∧ decodeFsm 0xA#4 = .sBitDelay ∧
      decodeFsm 0xB#4 = .sBitSample ∧ decodeFsm 0xC#4 = .sBitFall ∧ decodeFsm 0xD#4 = .sByteEnd ∧
      decodeFsm 0xE#4 = .sCheck ∧ decodeFsm 0xF#4 = .reservedF := by decide
/-- The bytes of `wr CTRL, 3`, the lowest first (log 10). -/
theorem test_decodeBytes :
    (match decodeBytes [0x03#8, 0#8, 0#8, 0#8, 0x40#8, 0x01#8] with
      | .ok i => decide (i = .wrCtrl 3#32)
      | .error _ => false) = true ∧
    (match decodeBytes [0x0E#8] with | .ok i => decide (i = .sCheck) | .error _ => false) = true := by decide
theorem test_decodeBytes_rejects :
    (match decodeBytes [] with | .error e => decide (e = .badLength) | .ok _ => false) = true ∧
    (match decodeBytes [0x1E#8] with | .error e => decide (e = .fsmPadding) | .ok _ => false) = true ∧
    (match decodeBytes [0#8, 0#8, 0#8, 0#8, 0#8, 0x02#8] with
      | .error e => decide (e = .hawPadding)
      | .ok _ => false) = true := by decide
theorem test_decodeTableWord :
    decodeTableWord 48 0x14400000402 = some (.wrStatus 0x402#32) ∧ decodeTableWord 8 0xB = some .sBitSample ∧
      decodeTableWord 48 0x20000000000 = none ∧ decodeTableWord 8 0x10 = none := by decide

/-! ## Single steps (95_test_vectors.md sections 3 and 5) -/

/-- What a result leaves, if it goes on. -/
def nextOf : Result → Option State
  | .next t => some t
  | _ => none

/-- A small state: reset with a budget of 4. -/
def base : State := { State.reset with budget := 4#32, budL := 4#32 }

/-- The small state in FSM state `c`. -/
def inState (c : FsmCode) : State := { base with fsmState := c, busy := true }

/-- One field of what the machine's next step leaves. -/
def after {α : Type} (s : State) (f : State → α) : Option α := (nextOf (step s)).map f

/-- V-F-1 to V-F-6. -/
theorem test_sDirOut : after (inState 0x1#4) (fun t => (t.fsmState, t.dir, t.out)) = some (0x2#4, .output, .high) := by
  decide
theorem test_sDriveLow : after (inState 0x2#4) (fun t => (t.fsmState, t.out, t.trace)) =
    some (0x3#4, .low, [.lvl .low]) := by decide
theorem test_sHoldLow : after (inState 0x3#4) (fun t => (t.fsmState, t.trace)) =
    some (0x4#4, [.delayMs Config.tStartMs.toNat]) := rfl
theorem test_sDriveHigh : after { inState 0x4#4 with out := .low } (fun t => (t.fsmState, t.out)) =
    some (0x5#4, .high) := by decide
theorem test_sHoldHigh : after (inState 0x5#4) (fun t => (t.fsmState, t.trace)) =
    some (0x6#4, [.delayUs Config.tRelUs.toNat]) := rfl
theorem test_sDirIn : after { inState 0x6#4 with dir := .output, cnt := 9#32 } (fun t => (t.fsmState, t.dir, t.cnt)) =
    some (0x7#4, .input, 0#32) := by decide
/-- V-F-7, V-F-9. -/
theorem test_sRespWait_poll : after { inState 0x7#4 with lineIn := [.low] } (fun t => (t.fsmState, t.cnt, t.trace)) =
    some (0x7#4, 1#32, [.read .low]) := by decide
theorem test_sRespWait_timeout : after { inState 0x7#4 with cnt := 4#32, lineIn := [.high] }
    (fun t => (t.fsmState, t.wRespTo, t.lineIn)) = some (0x8#4, true, [.high]) := by decide
/-- V-F-10. -/
theorem test_sSettle : after { inState 0x8#4 with cnt := 3#32, sh := 5#8, abrt := true, bitIdx := 2#3 }
    (fun t => (t.fsmState, t.cnt, t.sh, t.abrt, t.bitIdx)) = some (0x9#4, 0#32, 0#8, false, 0#3) := by decide
/-- V-F-11, V-F-12. -/
theorem test_sBitRise_reached : after { inState 0x9#4 with lineIn := [.high] } (fun t => (t.fsmState, t.cnt)) =
    some (0xA#4, 0#32) := by decide
theorem test_sBitRise_timeout : after { inState 0x9#4 with cnt := 2#32, budL := 2#32 }
    (fun t => (t.fsmState, t.abrt)) = some (0xD#4, true) := by decide
/-- V-F-13, V-F-14. -/
theorem test_sBitDelay : after (inState 0xA#4) (fun t => (t.fsmState, t.trace)) =
    some (0xB#4, [.delayUs Config.tBitUs.toNat]) := rfl
theorem test_sBitSample : after { inState 0xB#4 with sh := 0b00000101#8, cnt := 2#32, lineIn := [.high] }
    (fun t => (t.fsmState, t.sh, t.cnt)) = some (0xC#4, 0b00001011#8, 0#32) := by decide
/-- V-F-15, V-F-16. -/
theorem test_sBitFall_next : after { inState 0xC#4 with bitIdx := 3#3, cnt := 1#32, lineIn := [.low] }
    (fun t => (t.fsmState, t.bitIdx, t.cnt)) = some (0x9#4, 4#3, 0#32) := by decide
theorem test_sBitFall_last : after { inState 0xC#4 with bitIdx := 7#3, lineIn := [.low] }
    (fun t => (t.fsmState, t.abrt)) = some (0xD#4, false) := by decide
/-- V-F-19, V-F-21. -/
theorem test_sByteEnd_sentinel : after { inState 0xD#4 with byteIdx := 1#3, abrt := true, sh := 5#8, acc := 0x32#8 }
    (fun t => (t.w1, t.wByteTo, t.acc, t.byteIdx, t.abrt, t.fsmState)) =
      some (0xFF#8, 0b00010#5, 0x31#8, 2#3, false, 0x9#4) := by decide
theorem test_sByteEnd_checksum : after { inState 0xD#4 with byteIdx := 4#3, sh := 0x50#8, acc := 0x50#8 }
    (fun t => (t.w4, t.acc, t.fsmState)) = some (0x50#8, 0x50#8, 0xE#4) := by decide

/-- The state before scenario A's commit (V-F-22). -/
def checkA : State :=
  { inState 0xE#4 with
    byteIdx := 4#3, w0 := 0x32#8, w1 := 0#8, w2 := 0x19#8, w3 := 0x05#8, w4 := 0x50#8, acc := 0x50#8 }

/-- V-F-22, V-F-23. -/
theorem test_sCheck_success : after checkA
    (fun t => (readReg offData t, readReg offChk t, readReg offStatus t)) =
      some (0x05190032#32, 0x00005050#32, 0x00000006#32) := by decide
theorem test_sCheck_mismatch : after { checkA with w4 := 0x51#8 } (fun t => (readReg offChk t, readReg offStatus t)) =
    some (0x00005051#32, 0x0000000E#32) := by decide
/-- V-F-24, V-F-25. -/
theorem test_reservedF : after (inState 0xF#4) (fun t => (t.faultMark, t.fsmState, t.trace)) =
    some (some .illegalState, 0xF#4, []) := by decide
theorem test_idle : step base = .next base := rfl

/-- One field of what an access leaves. -/
def afterAccess {α : Type} (w : Haw) (s : State) (f : State → α) : Option α := after { s with agenda := [.host w] } f

/-- V-H-9, V-H-10, V-H-11. -/
theorem test_rdCtrl : afterAccess 0x10000000000#41 { base with ie := true } State.responses = some [2#32] := by decide
theorem test_wrCtrl_start : afterAccess 0x14000000003#41 { base with budget := 100#32 }
    (fun t => (t.ie, t.budL, readReg offStatus t)) = some (true, 100#32, 0x00010001#32) := by decide
theorem test_wrCtrl_overrun : afterAccess 0x14000000001#41 { inState 0x1#4 with ie := true }
    (fun t => (t.ie, readReg offStatus t)) = some (false, 0x00010401#32) := by decide
/-- V-E2E-C's STATUS, 0x3FE. -/
theorem test_rdStatus : afterAccess 0x10400000000#41
    { base with done := true, valid := true, outcome := .checksumMismatch, respTo := true, byteTo := 0b11111#5 }
    State.responses = some [0x3FE#32] := by decide
/-- V-H-12, V-H-13. -/
theorem test_wrStatus_clears : afterAccess 0x14400000402#41 { base with done := true, valid := true, sovr := true }
    (readReg offStatus) = some 0x00000004#32 := by decide
theorem test_wrStatus_keeps : afterAccess 0x144FFFFFFFD#41 { base with done := true, valid := true }
    (readReg offStatus) = some 0x00000006#32 := by decide
/-- V-H-14, V-H-15. -/
theorem test_rdData : afterAccess 0x10800000000#41 { base with data := 0x05190032#32 } State.responses =
    some [0x05190032#32] := by decide
theorem test_wrData : afterAccess 0x14812345678#41 { base with data := 0x05190032#32 } (readReg offData) =
    some 0x05190032#32 := by decide
theorem test_rdChk : afterAccess 0x10C00000000#41 { base with sum := 0x50#8, crc := 0x51#8 } State.responses =
    some [0x00005051#32] := by decide
theorem test_wrChk : afterAccess 0x14CFFFFFFFF#41 { base with sum := 0x50#8, crc := 0x51#8 } (readReg offChk) =
    some 0x00005051#32 := by decide
/-- V-H-4, V-H-16. -/
theorem test_rdBudget : afterAccess 0x11000000000#41 { base with budget := 7#32 } State.responses = some [7#32] := by
  decide
theorem test_wrBudget : afterAccess 0x15000000009#41 (inState 0x7#4) (fun t => (t.budget, t.budL)) =
    some (9#32, 4#32) := by decide
/-- V-H-5: with the default durations PARAM is 0x1EA01912. -/
theorem test_param_layout : paramOf 30#8 160#8 25#8 18#8 = 0x1EA01912#32 := by decide
theorem test_rdParam : afterAccess 0x11400000000#41 base State.responses = some [paramWord] := rfl
/-- V-H-6, V-H-7, V-H-8. -/
theorem test_wrParam : afterAccess 0x15400000000#41 base (readReg offParam) = some paramWord := rfl
theorem test_rdRsvd : afterAccess 0x11800000000#41 base State.responses = some [0#32] ∧
    afterAccess 0x13C00000000#41 base State.responses = some [0#32] := by decide
theorem test_wrRsvd : afterAccess 0x16000000001#41 base id = some base ∧
    afterAccess 0x15800000001#41 base id = some base := ⟨rfl, rfl⟩
/-- V-H-19 to V-H-22. -/
theorem test_badSize : afterAccess 0x04000000001#41 base id = some { base with refusedMark := some .badAccess } ∧
    afterAccess 0x0C400000002#41 base id = some { base with refusedMark := some .badAccess } ∧
    afterAccess 0x18000000000#41 base id = some { base with refusedMark := some .badAccess } := ⟨rfl, rfl, rfl⟩
theorem test_badAlign : afterAccess 0x14500000002#41 base id = some { base with refusedMark := some .badAccess } ∧
    afterAccess 0x10600000000#41 base id = some { base with refusedMark := some .badAccess } ∧
    afterAccess 0x13F00000000#41 base id = some { base with refusedMark := some .badAccess } := ⟨rfl, rfl, rfl⟩
/-- V-H-18. -/
theorem test_irq_rises : after { checkA with ie := true } irq = some true := by decide

/-- 30_encoding.md R86: the consumer's order of scenario A's bytes. -/
theorem test_published : published (readingOf 0x05190032#32 0x00005050#32) = [0x19#8, 0x05#8, 0x32#8, 0#8, 0x50#8] := by
  decide
/-- V-L1-1 on scenario A. -/
theorem test_checksumHolds : (readingOf 0x05190032#32 0x00005050#32).checksumHolds = true := by decide
/-- V-S-8, V-S-12. -/
theorem test_waitForLevel_last : waitForLevel .high 3 (fun n => if n = 2 then .high else .low) =
    ⟨true, [.low, .low, .high]⟩ := by decide
theorem test_waitForLevel_timeout : waitForLevel .low 3 (fun _ => .high) = ⟨false, [.high, .high, .high]⟩ := by decide

/-! ## Witnesses: states and operands that meet each obligation's hypotheses together -/

theorem witness_DecodeOfEncodeIsIdentity :
    (Instr.wrRsvdHigh 0x3C#6 0xFFFFFFFF#32).wellFormed = true ∧ (Instr.badAlign3 false 0x3F#6 0#32).wellFormed = true ∧
      (Instr.badSizeRsvd true 0x01#6 7#32).wellFormed = true ∧ (Instr.rdRsvdLow 0x1C#6).wellFormed = true := by decide
theorem witness_DecodeOfBytesAndTableWords : (Instr.wrRsvdHigh 0x20#6 0xFFFFFFFF#32).wellFormed = true := by decide
theorem witness_EveryWordMatchesExactlyOneRow :
    (Instr.badAlign3 true 0x3F#6 9#32).isHostAccess = true ∧
      (tableRow (.badAlign3 true 0x3F#6 9#32)).hits 0x13F00000000#41 = true ∧
      hawSize 0x14000000003#41 = hawSize 0x14000000000#41 ∧ hawWe 0x14000000003#41 = hawWe 0x14000000000#41 ∧
      hawAddr 0x14000000003#41 = hawAddr 0x14000000000#41 := by decide

/-- The small state with one access to come. -/
def access (w : Haw) : State := { base with agenda := [.host w] }

theorem witness_StepRunsTheHostAccess :
    (access 0x14400000002#41).agenda = .host 0x14400000002#41 :: [] ∧ (access 0x14400000002#41).faultMark = none ∧
      exec (decodeHaw 0x14400000002#41) base = .next base ∧
      exec (decodeHaw 0x0C400000002#41) base = .refused .badAccess := ⟨rfl, rfl, rfl, rfl⟩
theorem witness_StepRunsTheFsmState_next :
    base.agenda = [] ∧ base.faultMark = none ∧ exec (decodeFsm base.fsmState) base = .next base ∧
      ({ base with agenda := [.fsm, .reset] } : State).agenda = .fsm :: [.reset] := ⟨rfl, rfl, rfl, rfl⟩
theorem witness_StepRunsTheFsmState_fault :
    (inState 0xF#4).agenda = [] ∧ (inState 0xF#4).faultMark = none ∧
      exec (decodeFsm (inState 0xF#4).fsmState) (inState 0xF#4) = .fault .illegalState := ⟨rfl, rfl, rfl⟩
theorem witness_FetchWordRunsNext :
    base.faultMark = none ∧ exec (decodeHaw 0x14400000002#41) base = .next base ∧
      exec (decodeFsm 0x0#4) { base with fsmState := 0x0#4 } = .next base := ⟨rfl, rfl, rfl⟩
theorem witness_ResetInputAbandonsTheTransaction :
    ({ inState 0xB#4 with agenda := [.reset], faultMark := some .illegalState } : State).agenda = .reset :: [] := rfl
theorem witness_FaultMarkEndsTheRun :
    ({ base with faultMark := some .illegalState } : State).faultMark = some .illegalState ∧
      ({ base with faultMark := some .illegalState } : State).agenda.head? ≠ some .reset := by decide
theorem witness_ReservedReadsReturnZero :
    (0x1C#6 = 0x18#6 ∨ 0x1C#6 = 0x1C#6) ∧ (0x20#6 ≤ 0x20#6 ∧ (0x20#6).extractLsb' 0 2 = 0#2) ∧
      (0x20#6 ≤ 0x3C#6 ∧ (0x3C#6).extractLsb' 0 2 = 0#2) := by decide
theorem witness_WrCtrlSetsEnableAndRequestsStart :
    (2#32).getLsbD 0 = false ∧ ((3#32).getLsbD 0 = true ∧ base.fsmState = Code.idle) ∧
      ((1#32).getLsbD 0 = true ∧ (inState 0xE#4).fsmState ≠ Code.idle) := by decide
theorem witness_WritesOfReadOnlySpaceAreIgnored :
    (0x18#6 = 0x18#6 ∨ 0x18#6 = 0x1C#6) ∧ (0x20#6 ≤ 0x3C#6 ∧ (0x3C#6).extractLsb' 0 2 = 0#2) := by decide
theorem witness_OnlyAlignedWordAccessesAreDefined :
    (access 0x10600000000#41).agenda.head? = some (.host 0x10600000000#41) ∧
      (access 0x10600000000#41).faultMark = none ∧
      ¬ (hawSize 0x10600000000#41 = 0b10#2 ∧ (hawAddr 0x10600000000#41).extractLsb' 0 2 = 0b00#2) := by decide
theorem witness_AccessesKeepTheOtherWindowBytes_write :
    exec (decodeHaw 0x14000000000#41) base = .next base ∧ hawWe 0x14000000000#41 = true ∧
      offChk ≠ hawAddr 0x14000000000#41 ∧ ¬ (hawAddr 0x14000000000#41 = offCtrl ∧ offChk = offStatus) :=
  ⟨rfl, by decide, by decide, by decide⟩
theorem witness_AccessesKeepTheOtherWindowBytes_read :
    exec (decodeHaw 0x10000000000#41) base = .next { base with responses := [0#32] } ∧
      hawWe 0x10000000000#41 = false := ⟨rfl, by decide⟩
theorem witness_LineReadRecordsTheDrawnLevel :
    ({ base with lineIn := [.low] } : State).lineIn = .low :: [] ∧ base.lineIn = [] := ⟨rfl, rfl⟩

/-- A wait at count `k` of a budget of 4, with `l` the line's next answer. -/
def waiting (c : FsmCode) (k : Word) (l : Level) : State := { inState c with cnt := k, lineIn := [l] }

theorem witness_RespWaitPollsOrProceeds :
    (waiting 0x7#4 4#32 .low).budL ≤ (waiting 0x7#4 4#32 .low).cnt ∧
      ((waiting 0x7#4 3#32 .high).cnt < (waiting 0x7#4 3#32 .high).budL ∧ drawn (waiting 0x7#4 3#32 .high) = .high) ∧
      ((waiting 0x7#4 3#32 .low).cnt < (waiting 0x7#4 3#32 .low).budL ∧ drawn (waiting 0x7#4 3#32 .low) = .low) := by
  decide
theorem witness_BitRisePollsOrAborts :
    (waiting 0x9#4 4#32 .low).budL ≤ (waiting 0x9#4 4#32 .low).cnt ∧
      ((waiting 0x9#4 3#32 .high).cnt < (waiting 0x9#4 3#32 .high).budL ∧ drawn (waiting 0x9#4 3#32 .high) = .high) ∧
      ((waiting 0x9#4 3#32 .low).cnt < (waiting 0x9#4 3#32 .low).budL ∧ drawn (waiting 0x9#4 3#32 .low) = .low) := by
  decide
theorem witness_BitFallPollsOrAborts :
    (waiting 0xC#4 4#32 .low).budL ≤ (waiting 0xC#4 4#32 .low).cnt ∧
      (({ waiting 0xC#4 3#32 .low with bitIdx := 7#3 } : State).cnt < 4#32 ∧
        drawn { waiting 0xC#4 3#32 .low with bitIdx := 7#3 } = .low ∧
        ({ waiting 0xC#4 3#32 .low with bitIdx := 7#3 } : State).bitIdx = 7#3) ∧
      (({ waiting 0xC#4 3#32 .low with bitIdx := 6#3 } : State).cnt < 4#32 ∧
        drawn { waiting 0xC#4 3#32 .low with bitIdx := 6#3 } = .low ∧
        ({ waiting 0xC#4 3#32 .low with bitIdx := 6#3 } : State).bitIdx ≠ 7#3) ∧
      ((waiting 0xC#4 3#32 .high).cnt < (waiting 0xC#4 3#32 .high).budL ∧ drawn (waiting 0xC#4 3#32 .high) = .high) := by
  decide
theorem witness_ByteEndStoresAndAccumulates :
    ({ inState 0xD#4 with byteIdx := 4#3 } : State).byteIdx ≤ 4#3 ∧
      ({ inState 0xD#4 with byteIdx := 3#3 } : State).byteIdx ≤ 4#3 := by decide
theorem witness_IllegalCodeFaults :
    (inState 0xF#4).fsmState = Code.reservedF ∧ nextMove (inState 0xF#4) = .fsm ∧ (inState 0xF#4).faultMark = none := by
  decide

theorem witness_OnlyTheCommitWritesResults :
    step base = .next base ∧ base.agenda.head? ≠ some .reset ∧
      ¬ (nextMove base = .fsm ∧ base.fsmState = Code.sCheck) := ⟨rfl, by decide, by decide⟩
/-- What an accepted START leaves of the small state. -/
def started : State := { base with busy := true, fsmState := Code.sDirOut }
theorem witness_OnlyStartLeavesIdleAndOnlyCommitEntersIt_leaves :
    step (access 0x14000000001#41) = .next started ∧ (access 0x14000000001#41).fsmState = Code.idle ∧
      started.fsmState ≠ Code.idle := ⟨rfl, rfl, by decide⟩
theorem witness_OnlyStartLeavesIdleAndOnlyCommitEntersIt_enters :
    step checkA = .next (commitResults checkA) ∧ checkA.fsmState ≠ Code.idle ∧
      (commitResults checkA).fsmState = Code.idle := ⟨rfl, by decide, rfl⟩
theorem witness_HostAccessLeavesTheTransactionAlone :
    nextMove { inState 0x7#4 with agenda := [.host 0x14000000001#41] } = .host 0x14000000001#41 ∧
      (inState 0x7#4).fsmState ≠ Code.idle ∧
      step { inState 0x7#4 with agenda := [.host 0x14000000001#41] } = .next { inState 0x7#4 with sovr := true } :=
  ⟨rfl, by decide, rfl⟩
theorem witness_FsmIgnoresTheHostRegisters : exec (decodeFsm 0xE#4) checkA = .next (commitResults checkA) := rfl
theorem witness_MarksPersistAndTracesGrow :
    step { base with refusedMark := some .badAccess } = .next { base with refusedMark := some .badAccess } ∧
      base.agenda.head? ≠ some .reset := ⟨rfl, by decide⟩
theorem witness_OverrunIsStickyUntilCleared_clear :
    step { access 0x14400000400#41 with sovr := true } = .next base ∧ base.sovr = false := ⟨rfl, rfl⟩
theorem witness_OverrunIsStickyUntilCleared_set :
    (inState 0x7#4).sovr = false ∧
      step { inState 0x7#4 with agenda := [.host 0x14000000001#41] } = .next { inState 0x7#4 with sovr := true } :=
  ⟨rfl, rfl⟩
theorem witness_DoneIsSetByTheCommitOnly_set :
    checkA.done = false ∧ step checkA = .next (commitResults checkA) ∧ (commitResults checkA).done = true :=
  ⟨rfl, rfl, rfl⟩
theorem witness_DoneIsSetByTheCommitOnly_clear :
    step { access 0x14400000002#41 with done := true } = .next base ∧ base.done = false := ⟨rfl, rfl⟩
theorem witness_IrqFollowsDoneAndEnable :
    exec .sCheck checkA = .next (commitResults checkA) ∧
      ((2#32).getLsbD 1 = true ∧ exec (.wrStatus 2#32) { base with done := true } = .next base) ∧
      ((0#32).getLsbD 1 = false ∧ exec (.wrCtrl 0#32) { base with ie := true } = .next base) ∧
      ((1#32).getLsbD 0 = true ∧ base.fsmState = Code.idle ∧ exec (.wrCtrl 1#32) base = .next started) :=
  ⟨rfl, ⟨rfl, rfl⟩, ⟨rfl, rfl⟩, ⟨rfl, rfl, rfl⟩⟩
theorem witness_HostAccessPrecedesTheCommit_start :
    ({ checkA with agenda := sameCycle 0x14000000001#41 } : State).agenda = sameCycle 0x14000000001#41 ++ [] ∧
      checkA.fsmState = Code.sCheck ∧ checkA.faultMark = none ∧ decodeHaw 0x14000000001#41 = .wrCtrl 1#32 ∧
      (1#32).getLsbD 0 = true := by decide
theorem witness_HostAccessPrecedesTheCommit_read :
    ({ checkA with agenda := sameCycle 0x10C00000000#41 } : State).agenda = sameCycle 0x10C00000000#41 ++ [] ∧
      hawSize 0x10C00000000#41 = size32 ∧ hawWe 0x10C00000000#41 = false ∧
      (hawAddr 0x10C00000000#41).extractLsb' 0 2 = 0#2 := by decide
theorem witness_AddressesNameOffsetsAndLanes :
    63 < 64 ∧ (Config.swbbBase + 64 < Config.swbbBase ∨ Config.swbbBase + 64 ≤ Config.swbbBase + 64) ∧ 7 < 8 :=
  ⟨by decide, .inr (Nat.le_refl _), by decide⟩

/-- The invariant holds in the state before scenario A's commit. -/
theorem checkA_inv : Inv checkA := by
  refine ⟨⟨by decide, by decide, by decide, by decide, by decide, by decide, ?_⟩, ⟨by decide, by decide⟩,
    ⟨by decide, by decide, by decide⟩, ⟨by decide, by decide, by decide, by decide, by decide, by decide, by decide⟩⟩
  intro _ h
  exact absurd rfl h

theorem witness_StepKeepsControlInvariant :
    ControlInv checkA ∧ step checkA = .next (commitResults checkA) := ⟨checkA_inv.control, rfl⟩
theorem witness_StepKeepsLineInvariant :
    ControlInv checkA ∧ LineInv checkA ∧ step checkA = .next (commitResults checkA) :=
  ⟨checkA_inv.control, checkA_inv.line, rfl⟩
theorem witness_StepKeepsTheInvariant : Inv checkA ∧ step checkA = .next (commitResults checkA) := ⟨checkA_inv, rfl⟩
theorem witness_LegalStatesNeverFault : ControlInv checkA ∧ checkA.faultMark = none := ⟨checkA_inv.control, rfl⟩

/-- A state in the response wait, its budget of 4 unused, with the line's next answer HIGH. -/
def responding : State := waiting 0x7#4 0#32 .high

theorem responding_inv : Inv responding := by
  refine ⟨⟨by decide, by decide, by decide, by decide, by decide, by decide, ?_⟩, ⟨by decide, by decide⟩,
    ⟨by decide, by decide, by decide⟩, ⟨by decide, by decide, by decide, by decide, by decide, by decide, by decide⟩⟩
  intro _ _ k _
  exact BitVec.getLsbD_zero

theorem witness_ReadsHappenOnlyWhileUndriven :
    Inv responding ∧ step responding = .next { inState 0x8#4 with trace := [.read .high] } ∧
      ({ inState 0x8#4 with trace := [.read .high] } : State).trace = responding.trace ++ [.read .high] :=
  ⟨responding_inv, rfl, rfl⟩
theorem witness_OutcomeIsTheChecksumLaw :
    Inv checkA ∧ checkA.fsmState = Code.sCheck ∧ exec .sCheck checkA = .next (commitResults checkA) :=
  ⟨checkA_inv, rfl, rfl⟩

/-- The state before the commit of five sentinels (V-E2E-C). -/
def checkC : State :=
  { checkA with
    w0 := 0xFF#8, w1 := 0xFF#8, w2 := 0xFF#8, w3 := 0xFF#8, w4 := 0xFF#8, acc := 0xFC#8, wByteTo := 0b11111#5 }

theorem checkC_inv : Inv checkC := by
  refine ⟨⟨by decide, by decide, by decide, by decide, by decide, by decide, ?_⟩, ⟨by decide, by decide⟩,
    ⟨by decide, by decide, by decide⟩, ⟨by decide, by decide, by decide, by decide, by decide, by decide, by decide⟩⟩
  intro _ h
  exact absurd rfl h

theorem witness_FiveSentinelsAreAMismatch :
    Inv checkC ∧ checkC.fsmState = Code.sCheck ∧ checkC.wByteTo = 0b11111#5 ∧
      exec .sCheck checkC = .next (commitResults checkC) := ⟨checkC_inv, rfl, rfl, rfl⟩
theorem witness_ResponseTimeoutChangesItsFlagOnly :
    Alone checkA ∧ run 1 checkA = .next (commitResults checkA) := ⟨⟨rfl, rfl⟩, rfl⟩

/-- What a response wait with a budget of 1 leaves when its one poll reads HIGH. -/
def answered : State := { inState 0x8#4 with budL := 1#32, trace := [.read .high] }
theorem test_answered :
    step { inState 0x7#4 with budL := 1#32, lineIn := [.high] } = .next answered := rfl
/-- What it leaves when that poll reads LOW and the wait times out. -/
theorem test_unanswered :
    run 2 { inState 0x7#4 with budL := 1#32, lineIn := [.low] } =
      .next { answered with wRespTo := true, trace := [.read .low], cnt := 1#32 } := rfl
theorem witness_ResponseTimeoutChangesItsFlagOnly_waits :
    Alone answered ∧ answered.fsmState = Code.sSettle ∧
      upcoming { answered with wRespTo := true, trace := [.read .low], cnt := 1#32 } = upcoming answered ∧
      run 0 answered = .next answered := ⟨⟨rfl, rfl⟩, rfl, rfl, rfl⟩
theorem witness_WaitForLevelReadsAtMostItsBudget :
    (2 < 3 ∧ (∀ i < 2, (fun n => if n = 2 then Level.high else .low) i ≠ .high) ∧
        (fun n => if n = 2 then Level.high else .low) 2 = .high) ∧
      (∀ i < 3, (fun _ : Nat => Level.low) i ≠ .high) := by decide
theorem witness_WaitStatesPerformWaitForLevel :
    (Alone responding ∧ responding.cnt = 0#32 ∧ responding.fsmState = Code.sRespWait) ∧
      (Alone (waiting 0x9#4 0#32 .low) ∧ (waiting 0x9#4 0#32 .low).cnt = 0#32 ∧
        (waiting 0x9#4 0#32 .low).fsmState = Code.sBitRise) ∧
      (Alone (waiting 0xC#4 0#32 .low) ∧ (waiting 0xC#4 0#32 .low).cnt = 0#32 ∧
        (waiting 0xC#4 0#32 .low).fsmState = Code.sBitFall) := by decide
theorem witness_FirstSampleIsTheMostSignificantBit : (bitsMsbFirst 0xB2#8).length ≤ 8 := by decide
theorem witness_TransactionIsTheProcedure :
    Alone started ∧ started.fsmState = Code.sDirOut ∧ started.acc = 0#8 ∧ started.wRespTo = false ∧
      started.wByteTo = 0#5 := by decide
theorem witness_EveryTransactionEndsInBound : Alone started ∧ started.fsmState = Code.sDirOut := by decide

/-- A START of scenario A's frame. -/
def startA : State :=
  { access 0x14000000001#41 with budget := 1#32, lineIn := frameReads 0x32#8 0#8 0x19#8 0x05#8 0x50#8 }

theorem witness_CleanFrameIsReadCorrectly :
    startA.faultMark = none ∧ startA.fsmState = Code.idle ∧ 1#32 ≤ startA.budget ∧
      startA.agenda = [.host 0x14000000001#41] ∧ decodeHaw 0x14000000001#41 = .wrCtrl 1#32 ∧
      (1#32).getLsbD 0 = true ∧ startA.lineIn = frameReads 0x32#8 0#8 0x19#8 0x05#8 0x50#8 ++ [] := by decide
theorem witness_BudgetZeroCommitsFiveSentinels :
    Alone { started with budL := 0#32 } ∧ ({ started with budL := 0#32 } : State).fsmState = Code.sDirOut ∧
      ({ started with budL := 0#32 } : State).budL = 0#32 ∧ ({ started with budL := 0#32 } : State).acc = 0#8 ∧
      ({ started with budL := 0#32 } : State).wByteTo = 0#5 := by decide

end Sys2Proof.Tests
end

section
/-!
PROOFS. The scope's rules (00_scope.md): which move comes next, and what ends a run.
-/

namespace Sys2Proof.Machine

/-- An empty agenda gives the FSM's move, so only the agenda's head can make the next move a reset (log 1). -/
theorem nextMove_eq_reset_iff {s : State} : nextMove s = .reset ↔ s.agenda.head? = some .reset := by
  rw [nextMove]
  cases s.agenda with
  | nil => simp
  | cons m rest => simp

/-- Settles O11, by `step_marked`: without a reset at the head of the agenda the next move is no reset (00_scope.md R9, log 9). -/
theorem faultMarkEndsTheRun : Obligations.FaultMarkEndsTheRun := by
  intro s f hmark hhead
  have hmove : nextMove s ≠ .reset := mt nextMove_eq_reset_iff.mp hhead
  exact step_marked hmove hmark

end Sys2Proof.Machine
end

section
/-!
PROOFS. The state's rules (10_state.md): the values after reset, what the effect of an FSM operation and of a host
access leaves unchanged, which moves change STATE, SOVR and DONE, and the interrupt output.
-/

namespace Sys2Proof.Machine

variable {s t : State} {w : Haw} {c : FsmCode}

/-! ## After reset -/

/-- Settles O9: each register reads its value of the reset table (10_state.md R43). -/
theorem resetHoldsTheSpecsValues : Obligations.ResetHoldsTheSpecsValues := by
  have hworking : ∀ k < 5, workByte k State.reset = 0#8 := by decide
  exact ⟨rfl, rfl, rfl, rfl, rfl, rfl, hworking, rfl, rfl, rfl, rfl, rfl, rfl, rfl, rfl, rfl, rfl, rfl, rfl, rfl, rfl,
    rfl, rfl⟩

theorem reset_controlInv : ControlInv State.reset where
  legal := by decide
  busyIff := by decide
  byteIdxLe := by decide
  cntLe := by decide
  firstByte := by decide
  lastByte := by decide
  laterClear hbusy := absurd rfl hbusy

theorem reset_lineInv : LineInv State.reset where
  dirIff := by decide
  outIff := by decide

theorem reset_decodeInv : DecodeInv State.reset where
  shBefore := by decide
  shAfter := by decide
  notAborted := by decide

theorem reset_resultInv : ResultInv State.reset where
  accSum := by decide
  workSentinel := by decide
  sumData := by decide
  outcomeCheck := by decide
  sentinelHeld := by decide
  invalidZero := by decide
  busyNotDone := by decide

/-- Settles O45, one part of the invariant at a time. -/
theorem resetMeetsTheInvariant : Obligations.ResetMeetsTheInvariant :=
  ⟨reset_controlInv, reset_lineInv, reset_decodeInv, reset_resultInv⟩

/-! ## The results (10_state.md R26, R27, R29, R30) -/

/-- Two states show the same results: DATA, CHK, OUTCOME, RESP_TO, BYTE_TO and VALID. -/
def SameResults (s t : State) : Prop :=
  t.data = s.data ∧ t.sum = s.sum ∧ t.crc = s.crc ∧ t.outcome = s.outcome ∧ t.respTo = s.respTo ∧
    t.byteTo = s.byteTo ∧ t.valid = s.valid

theorem FsmEffect.sameResults (h : FsmEffect s c t) (hc : c ≠ Code.sCheck) : SameResults s t := by
  cases h
  case check => exact absurd rfl hc
  all_goals simp [SameResults]

theorem HostEffect.sameResults (h : HostEffect s w t) : SameResults s t := by
  cases h <;> simp [SameResults]

/-- Settles O34: no effect but the commit's changes a result (`FsmEffect.sameResults`, `HostEffect.sameResults`). -/
theorem onlyTheCommitWritesResults : Obligations.OnlyTheCommitWritesResults := by
  intro s t hstep hhead hcommit
  have hmove : nextMove s ≠ .reset := mt nextMove_eq_reset_iff.mp hhead
  obtain ⟨hreset, _⟩ | ⟨w, _, _, he⟩ | ⟨hfsm, _, he⟩ | ⟨_, _, _, rfl⟩ := step_effect hstep
  · exact absurd hreset hmove
  · exact he.sameResults
  · exact he.sameResults fun hc => hcommit ⟨hfsm, hc⟩
  · exact ⟨rfl, rfl, rfl, rfl, rfl, rfl, rfl⟩

/-! ## STATE (10_state.md R35) -/

/-- In IDLE the FSM changes nothing (41_frame_decoder.md R147). -/
theorem FsmEffect.eq_of_idle (h : FsmEffect s Code.idle t) : t = s := by
  cases h
  rfl

/-- Of the FSM's operations outside IDLE only the commit goes there (41_frame_decoder.md R146). -/
theorem FsmEffect.code_eq_sCheck (h : FsmEffect s c t) (hs : s.fsmState = c) (hc : c ≠ Code.idle)
    (ht : t.fsmState = Code.idle) : c = Code.sCheck := by
  cases h
  case idle => exact absurd rfl hc
  case check => rfl
  case respFailed | riseFailed | fallFailed => exact absurd (hs.symm.trans ht) hc
  all_goals exact absurd ht (of_decide_eq_false rfl)

/-- A host access changes STATE by an accepted START only (42_host_interface.md R171). -/
theorem HostEffect.fsmState_cases (h : HostEffect s w t) :
    t.fsmState = s.fsmState ∨
      (s.fsmState = Code.idle ∧ t.fsmState = Code.sDirOut ∧
        ∃ d, decodeHaw w = .wrCtrl d ∧ d.getLsbD 0 = true) := by
  cases h
  case ctrlStart hd hstart hidle => exact .inr ⟨hidle, rfl, _, hd, hstart⟩
  all_goals exact .inl rfl

/-- Settles O35, from what each effect does to STATE. -/
theorem onlyStartLeavesIdleAndOnlyCommitEntersIt : Obligations.OnlyStartLeavesIdleAndOnlyCommitEntersIt := by
  intro s t hstep
  obtain ⟨hreset, rfl⟩ | ⟨w, hhost, _, he⟩ | ⟨hfsm, _, he⟩ | ⟨_, _, _, rfl⟩ := step_effect hstep
  · exact ⟨fun _ hleft => absurd rfl hleft, fun _ _ => .inl hreset⟩
  · obtain hsame | ⟨hidle, _, d, hd, hstart⟩ := he.fsmState_cases
    · exact ⟨fun hidle hleft => absurd (hsame.trans hidle) hleft,
        fun hbusy hentered => absurd (hsame.symm.trans hentered) hbusy⟩
    · exact ⟨fun _ _ => ⟨w, d, hhost, hd, hstart⟩, fun hbusy => absurd hidle hbusy⟩
  · refine ⟨fun hidle hleft => ?_, fun hbusy hentered => .inr ⟨hfsm, he.code_eq_sCheck rfl hbusy hentered⟩⟩
    rw [hidle] at he
    exact absurd (he.eq_of_idle ▸ hidle) hleft
  · exact ⟨fun hidle hleft => absurd hidle hleft, fun hbusy hentered => absurd hentered hbusy⟩

/-! ## What the FSM does not read (10_state.md R38) -/

/-- An FSM operation that goes on has only its own effect: with `exec_decodeFsm`, an operation and its effect say the
same. -/
theorem exec_of_fsmEffect (h : FsmEffect s c t) : exec (decodeFsm c) s = .next t := by
  cases h
  case respTimedOut hspent | riseTimedOut hspent | fallTimedOut hspent =>
    exact congrArg Host.Outcome.next (waitStep_timedOut hspent)
  case respReached hleft hl | riseReached hleft hl => exact congrArg Host.Outcome.next (waitStep_reached hleft hl)
  case respFailed hleft hl | riseFailed hleft hl | fallFailed hleft hl =>
    exact congrArg Host.Outcome.next (waitStep_failed hleft (by simp [hl]))
  case fallLast hleft hl hlast =>
    exact congrArg Host.Outcome.next ((waitStep_reached hleft hl).trans (if_pos hlast))
  case fallNext hleft hl hmore =>
    exact congrArg Host.Outcome.next ((waitStep_reached hleft hl).trans (if_neg hmore))
  case byteLast hlast => exact congrArg Host.Outcome.next (if_pos hlast)
  case byteNext hmore => exact congrArg Host.Outcome.next (if_neg hmore)
  all_goals rfl

/-- Values for what the FSM does not read: the STATUS flags, IE, BUDGET, the refused mark, the returned words and the
moves to come. -/
structure HostSide where
  busy : Bool
  done : Bool
  valid : Bool
  outcome : ReadOutcome
  respTo : Bool
  byteTo : BitVec 5
  sovr : Bool
  ie : Bool
  budget : Word
  responses : List Word
  refusedMark : Option Refusal
  agenda : List Move

/-- The state with those values. -/
def State.withHostSide (v : HostSide) (s : State) : State :=
  { s with
    busy := v.busy, done := v.done, valid := v.valid, outcome := v.outcome, respTo := v.respTo, byteTo := v.byteTo,
    sovr := v.sovr, ie := v.ie, budget := v.budget, responses := v.responses, refusedMark := v.refusedMark,
    agenda := v.agenda }

/-- An operation other than the commit has the same effect whatever the host's side holds, and leaves it: the same
case of `FsmEffect` applies, with the same premises. -/
theorem FsmEffect.withHostSide (h : FsmEffect s c t) (hc : c ≠ Code.sCheck) (v : HostSide) :
    FsmEffect (s.withHostSide v) c (t.withHostSide v) := by
  cases h
  case check => exact absurd rfl hc
  all_goals constructor <;> assumption

/-- Settles O37: the commit by its definition, the other operations by `FsmEffect.withHostSide`. -/
theorem fsmIgnoresTheHostRegisters : Obligations.FsmIgnoresTheHostRegisters := by
  intro c s t hexec busy done valid respTo sovr outcome byteTo ie budget responses mark agenda
  have he := exec_decodeFsm hexec
  by_cases hc : c = Code.sCheck
  · subst hc
    cases he
    rw [if_pos rfl]
    rfl
  · rw [if_neg hc]
    exact exec_of_fsmEffect
      (he.withHostSide hc ⟨busy, done, valid, outcome, respTo, byteTo, sovr, ie, budget, responses, mark, agenda⟩)

/-! ## The marks and the growing lists (10_state.md R41, 00_scope.md R10) -/

/-- A set refused mark stays set, and the pin trace and the returned words only grow. -/
def Grows (s t : State) : Prop :=
  (s.refusedMark ≠ none → t.refusedMark ≠ none) ∧ s.trace <+: t.trace ∧ s.responses <+: t.responses

theorem Grows.refl (s : State) : Grows s s := by
  simp [Grows]

/-- The FSM leaves the refused mark and the returned words (10_state.md R38). -/
theorem FsmEffect.keeps_hostRecord (h : FsmEffect s c t) :
    t.refusedMark = s.refusedMark ∧ t.responses = s.responses := by
  cases h <;> simp

theorem FsmEffect.trace_grows (h : FsmEffect s c t) : s.trace <+: t.trace := by
  cases h <;> simp

theorem FsmEffect.grows (h : FsmEffect s c t) : Grows s t := by
  obtain ⟨hmark, hresp⟩ := h.keeps_hostRecord
  simp [Grows, hmark, hresp, h.trace_grows]

theorem HostEffect.grows (h : HostEffect s w t) : Grows s t := by
  cases h
  case read | refused => simp [Grows]
  all_goals exact Grows.refl s

/-- Settles O38: a step without a reset starts unmarked by a fault, and its effect grows the lists. -/
theorem marksPersistAndTracesGrow : Obligations.MarksPersistAndTracesGrow := by
  intro s t hstep hhead
  have hmove : nextMove s ≠ .reset := mt nextMove_eq_reset_iff.mp hhead
  have hgrows : s.faultMark = none ∧ Grows s t := by
    obtain ⟨hreset, _⟩ | ⟨w, _, hf, he⟩ | ⟨_, hf, he⟩ | ⟨_, hf, _, rfl⟩ := step_effect hstep
    · exact absurd hreset hmove
    · exact ⟨hf, he.grows⟩
    · exact ⟨hf, he.grows⟩
    · exact ⟨hf, Grows.refl s⟩
  obtain ⟨hf, hmark, htrace, hresp⟩ := hgrows
  exact ⟨hmark, hf, htrace, hresp⟩

/-! ## SOVR (10_state.md R28) -/

theorem FsmEffect.sovr_eq (h : FsmEffect s c t) : t.sovr = s.sovr := by
  cases h <;> simp

@[simp] theorem w1c_false (flag : Bool) : w1c false flag = flag := Bool.and_true flag

@[simp] theorem w1c_true (flag : Bool) : w1c true flag = false := Bool.and_false flag

/-- What a host access does to SOVR: a STATUS write clears it by bit 10, a START outside IDLE sets it. -/
theorem HostEffect.sovr_cases (h : HostEffect s w t) :
    t.sovr = s.sovr ∨
    (t.sovr = false ∧ ∃ d, decodeHaw w = .wrStatus d ∧ d.getLsbD 10 = true) ∨
    (t.sovr = true ∧ s.fsmState ≠ Code.idle ∧ ∃ d, decodeHaw w = .wrCtrl d ∧ d.getLsbD 0 = true) := by
  cases h
  case ctrlOverrun hd hstart hbusy => exact .inr (.inr ⟨rfl, hbusy, _, hd, hstart⟩)
  case status hd =>
    cases hbit : (hawWdata w).getLsbD 10
    · exact .inl (by rw [writeStatus_sovr, hbit, w1c_false])
    · exact .inr (.inl ⟨by rw [writeStatus_sovr, hbit, w1c_true], _, hd, hbit⟩)
  all_goals exact .inl rfl

/-- What a step does to SOVR, with its cause. -/
theorem step_sovr_cases (hstep : step s = .next t) :
    t.sovr = s.sovr ∨
    (t.sovr = false ∧
      (nextMove s = .reset ∨ ∃ w d, nextMove s = .host w ∧ decodeHaw w = .wrStatus d ∧ d.getLsbD 10 = true)) ∨
    (t.sovr = true ∧ s.fsmState ≠ Code.idle ∧
      ∃ w d, nextMove s = .host w ∧ decodeHaw w = .wrCtrl d ∧ d.getLsbD 0 = true) := by
  obtain ⟨hreset, rfl⟩ | ⟨w, hhost, _, he⟩ | ⟨_, _, he⟩ | ⟨_, _, _, rfl⟩ := step_effect hstep
  · exact .inr (.inl ⟨rfl, .inl hreset⟩)
  · obtain hsame | ⟨hclear, d, hd, hbit⟩ | ⟨hset, hbusy, d, hd, hstart⟩ := he.sovr_cases
    · exact .inl hsame
    · exact .inr (.inl ⟨hclear, .inr ⟨w, d, hhost, hd, hbit⟩⟩)
    · exact .inr (.inr ⟨hset, hbusy, w, d, hhost, hd, hstart⟩)
  · exact .inl he.sovr_eq
  · exact .inl rfl

/-- Settles O39, from the causes of `step_sovr_cases`. -/
theorem overrunIsStickyUntilCleared : Obligations.OverrunIsStickyUntilCleared := by
  intro s t hstep
  obtain hsame | ⟨hclear, hcause⟩ | ⟨hset, hcause⟩ := step_sovr_cases hstep
  · rw [hsame]
    exact ⟨fun hs ht => absurd hs (by simp [ht]), fun hs ht => absurd hs (by simp [ht])⟩
  · exact ⟨fun _ _ => hcause, fun _ ht => absurd ht (by simp [hclear])⟩
  · exact ⟨fun _ ht => absurd ht (by simp [hset]), fun _ _ => hcause⟩

/-! ## DONE (10_state.md R25) -/

/-- The commit sets DONE and no other FSM operation changes it. -/
theorem FsmEffect.done_cases (h : FsmEffect s c t) : t.done = s.done ∨ (t.done = true ∧ c = Code.sCheck) := by
  cases h
  case check => exact .inr ⟨rfl, rfl⟩
  all_goals exact .inl (by simp)

/-- What a host access does to DONE: a STATUS write clears it by bit 1, and so does an accepted START. -/
theorem HostEffect.done_cases (h : HostEffect s w t) :
    t.done = s.done ∨
    (t.done = false ∧
      ((∃ d, decodeHaw w = .wrStatus d ∧ d.getLsbD 1 = true) ∨
        (s.fsmState = Code.idle ∧ ∃ d, decodeHaw w = .wrCtrl d ∧ d.getLsbD 0 = true))) := by
  cases h
  case ctrlStart hd hstart hidle => exact .inr ⟨rfl, .inr ⟨hidle, _, hd, hstart⟩⟩
  case status hd =>
    cases hbit : (hawWdata w).getLsbD 1
    · exact .inl (by rw [writeStatus_done, hbit, w1c_false])
    · exact .inr ⟨by rw [writeStatus_done, hbit, w1c_true], .inl ⟨_, hd, hbit⟩⟩
  all_goals exact .inl rfl

/-- What a step does to DONE, with its cause. -/
theorem step_done_cases (hstep : step s = .next t) :
    t.done = s.done ∨
    (t.done = true ∧ nextMove s = .fsm ∧ s.fsmState = Code.sCheck) ∨
    (t.done = false ∧
      (nextMove s = .reset ∨
        (∃ w d, nextMove s = .host w ∧ decodeHaw w = .wrStatus d ∧ d.getLsbD 1 = true) ∨
        (s.fsmState = Code.idle ∧ ∃ w d, nextMove s = .host w ∧ decodeHaw w = .wrCtrl d ∧ d.getLsbD 0 = true))) := by
  obtain ⟨hreset, rfl⟩ | ⟨w, hhost, _, he⟩ | ⟨hfsm, _, he⟩ | ⟨_, _, _, rfl⟩ := step_effect hstep
  · exact .inr (.inr ⟨rfl, .inl hreset⟩)
  · obtain hsame | ⟨hclear, ⟨d, hd, hbit⟩ | ⟨hidle, d, hd, hstart⟩⟩ := he.done_cases
    · exact .inl hsame
    · exact .inr (.inr ⟨hclear, .inr (.inl ⟨w, d, hhost, hd, hbit⟩)⟩)
    · exact .inr (.inr ⟨hclear, .inr (.inr ⟨hidle, w, d, hhost, hd, hstart⟩)⟩)
  · obtain hsame | ⟨hset, hcheck⟩ := he.done_cases
    · exact .inl hsame
    · exact .inr (.inl ⟨hset, hfsm, hcheck⟩)
  · exact .inl rfl

/-- Settles O40, from the causes of `step_done_cases`. -/
theorem doneIsSetByTheCommitOnly : Obligations.DoneIsSetByTheCommitOnly := by
  intro s t hstep
  obtain hsame | ⟨hset, hcause⟩ | ⟨hclear, hcause⟩ := step_done_cases hstep
  · rw [hsame]
    exact ⟨fun hs ht => absurd hs (by simp [ht]), fun hs ht => absurd hs (by simp [ht])⟩
  · exact ⟨fun _ _ => hcause, fun _ ht => absurd ht (by simp [hset])⟩
  · exact ⟨fun _ ht => absurd ht (by simp [hclear]), fun _ _ => hcause⟩

/-! ## IRQ (10_state.md R37) -/

theorem irq_eq_true_iff (s : State) : irq s = true ↔ s.ie = true ∧ s.done = true := by
  simp [irq]

@[simp] theorem irq_commitResults (s : State) : irq (commitResults s) = s.ie := by
  simp [irq]

theorem irq_writeStatus {d : Word} (hclear : d.getLsbD 1 = true) (s : State) : irq (writeStatus d s) = false := by
  rw [irq, writeStatus_done, hclear, w1c_true, Bool.and_false]

/-- Writing IE = 0 drops the interrupt, whatever else the write of CTRL does. -/
theorem irq_writeCtrl_disabled {d : Word} (hie : d.getLsbD 1 = false) (s : State) : irq (writeCtrl d s) = false := by
  have hbit : ieBit d = false := hie
  obtain ⟨_, e⟩ | ⟨_, _, e⟩ | ⟨_, _, e⟩ := writeCtrl_cases d s <;> simp [e, irq, hbit]

/-- An accepted START clears DONE, and with it the interrupt (60_exceptions.md R206). -/
theorem irq_writeCtrl_started {d : Word} (hstart : d.getLsbD 0 = true) (hidle : s.fsmState = Code.idle) :
    irq (writeCtrl d s) = false := by
  have hbit : startBit d = true := hstart
  simp [writeCtrl, requestStart, hbit, hidle, irq]

/-- Settles O41, one clause for each write that moves the interrupt. -/
theorem irqFollowsDoneAndEnable : Obligations.IrqFollowsDoneAndEnable := by
  intro s t
  refine ⟨irq_eq_true_iff s, fun hexec => ?_, fun d hclear hexec => ?_, fun d hie hexec => ?_,
    fun d hstart hidle hexec => ?_⟩ <;> obtain rfl := Host.Outcome.next.inj hexec
  · exact irq_commitResults s
  · exact irq_writeStatus hclear s
  · exact irq_writeCtrl_disabled hie s
  · exact irq_writeCtrl_started hstart hidle

end Sys2Proof.Machine
end

section
/-!
PROOFS. The control invariant (10_state.md R24, R34, R35): an FSM operation stays within the current byte, ends it or
commits the results, and a host access touches the invariant's fields by an accepted START only.
-/

namespace Sys2Proof.Machine

variable {s t : State} {w : Haw} {c : FsmCode}

/-- The control invariant speaks of six fields only. -/
theorem ControlInv.congr (hi : ControlInv s) (hstate : t.fsmState = s.fsmState) (hbusy : t.busy = s.busy)
    (hbyte : t.byteIdx = s.byteIdx) (hcnt : t.cnt = s.cnt) (hbudL : t.budL = s.budL)
    (hflags : t.wByteTo = s.wByteTo) : ControlInv t := by
  obtain ⟨legal, busyIff, byteIdxLe, cntLe, firstByte, lastByte, laterClear⟩ := hi
  constructor <;> simpa only [hstate, hbusy, hbyte, hcnt, hbudL, hflags]

theorem ControlInv.popMove (hi : ControlInv s) : ControlInv s.popMove := hi.congr rfl rfl rfl rfl rfl rfl

theorem resetInput_controlInv (s : State) : ControlInv (resetInput s) :=
  reset_controlInv.congr rfl rfl rfl rfl rfl rfl

/-- A successor within the current byte: from a code other than IDLE and S_CHECK to another such, and not back before
the first byte. -/
abbrev StaysInByte (c c' : FsmCode) : Prop :=
  (c ≠ Code.idle ∧ c ≠ Code.sCheck) ∧ (c' ≠ Code.idle ∧ c' ≠ Code.sCheck ∧ c' ≠ Code.reservedF) ∧
    (c' ≤ Code.sSettle → c ≤ Code.sSettle)

/-- A step within the current byte keeps the control invariant where it keeps CNT within BUD_L. -/
theorem ControlInv.stayInByte (hi : ControlInv s) (hcode : StaysInByte s.fsmState t.fsmState) (hbusy : t.busy = s.busy)
    (hbyte : t.byteIdx = s.byteIdx) (hflags : t.wByteTo = s.wByteTo) (hcnt : t.cnt ≤ t.budL) : ControlInv t := by
  obtain ⟨⟨hidle, hcheck⟩, ⟨hidle', hcheck', hlegal'⟩, hback⟩ := hcode
  exact {
    legal := hlegal'
    busyIff := by rw [hbusy]; exact iff_of_true (hi.busyIff.mpr hidle) hidle'
    byteIdxLe := hbyte ▸ hi.byteIdxLe
    cntLe := hcnt
    firstByte := fun hfirst _ => hbyte.trans (hi.firstByte (hback hfirst) hidle)
    lastByte := fun h => absurd h hcheck'
    laterClear := by rw [hbyte, hflags]; exact fun _ _ => hi.laterClear hidle hcheck }

/-- A failed poll leaves CNT within BUD_L (10_state.md R34). -/
theorem cnt_succ_le_budL (h : s.cnt < s.budL) : s.cnt + 1 ≤ s.budL := by
  rw [BitVec.le_def, cnt_succ_toNat h]
  exact BitVec.lt_def.mp h

/-- Before byte 4 there is a next byte (10_state.md R34). -/
theorem byteIdx_succ : ∀ k : BitVec 3, k ≤ 4#3 → k ≠ 4#3 → k + 1 ≤ 4#3 ∧ (k + 1).toNat = k.toNat + 1 := by
  decide

/-- The byte commit sets no flag of a later byte. -/
theorem commitByte_laterClear (hclear : ∀ k, s.byteIdx.toNat ≤ k → s.wByteTo.getLsbD k = false) {k : Nat}
    (hk : s.byteIdx.toNat < k) : (commitByte s).wByteTo.getLsbD k = false := by
  have hold := hclear k hk.le
  cases habrt : s.abrt
  · simpa [habrt] using hold
  · simp [habrt, markByte_getLsbD, hold, hk.ne']

/-- In IDLE the control invariant asks for BUSY = 0 and the bounds of BYTE_IDX and CNT only. -/
theorem ControlInv.of_idle (hstate : t.fsmState = Code.idle) (hbusy : t.busy = false) (hbyte : t.byteIdx ≤ 4#3)
    (hcnt : t.cnt ≤ t.budL) : ControlInv t where
  legal := by rw [hstate]; decide
  busyIff := by simp [hstate, hbusy]
  byteIdxLe := hbyte
  cntLe := hcnt
  firstByte _ hidle := absurd hstate hidle
  lastByte hcheck := absurd (hstate.symm.trans hcheck) (by decide)
  laterClear hidle := absurd hstate hidle

/-- After byte 4 the byte commit goes to the checksum (41_frame_decoder.md R144). -/
theorem ControlInv.byteLast (hi : ControlInv s) (hs : s.fsmState = Code.sByteEnd) (hlast : s.byteIdx = 4#3) :
    ControlInv ((commitByte s).goto Code.sCheck) where
  legal := (by decide : Code.sCheck ≠ Code.reservedF)
  busyIff := iff_of_true (hi.busyIff.mpr (by rw [hs]; decide)) (by decide : Code.sCheck ≠ Code.idle)
  byteIdxLe := by simpa using hi.byteIdxLe
  cntLe := by simpa using hi.cntLe
  firstByte hfirst := absurd hfirst (by decide : ¬ Code.sCheck ≤ Code.sSettle)
  lastByte _ := by simpa using hlast
  laterClear _ hcheck := absurd rfl hcheck

/-- Before byte 4 the byte commit goes on to the next byte, whose flag is still clear (41_frame_decoder.md R144). -/
theorem ControlInv.byteNext (hi : ControlInv s) (hs : s.fsmState = Code.sByteEnd) (hmore : s.byteIdx ≠ 4#3) :
    ControlInv (beginByte { commitByte s with byteIdx := s.byteIdx + 1 }) := by
  have hbusy : s.busy = true := hi.busyIff.mpr (by rw [hs]; decide)
  have hclear := hi.laterClear (by rw [hs]; decide) (by rw [hs]; decide)
  obtain ⟨hle, hsucc⟩ := byteIdx_succ s.byteIdx hi.byteIdxLe hmore
  exact {
    legal := (by decide : Code.sBitRise ≠ Code.reservedF)
    busyIff := iff_of_true hbusy (by decide : Code.sBitRise ≠ Code.idle)
    byteIdxLe := hle
    cntLe := BitVec.le_def.mpr (Nat.zero_le _)
    firstByte := fun hfirst => absurd hfirst (by decide : ¬ Code.sBitRise ≤ Code.sSettle)
    lastByte := fun hcheck => absurd hcheck (by decide : Code.sBitRise ≠ Code.sCheck)
    laterClear := fun _ _ k hk => commitByte_laterClear hclear (hsucc.symm.trans_le hk) }

/-- The operation of the code in STATE keeps the control invariant. -/
theorem FsmEffect.controlInv (h : FsmEffect s c t) (hs : s.fsmState = c) (hi : ControlInv s) : ControlInv t := by
  have hzero : 0#32 ≤ s.budL := BitVec.le_def.mpr (Nat.zero_le _)
  have stay := hi.stayInByte (t := t)
  rw [hs] at stay
  cases h
  case idle => exact hi
  case dirOut | driveLow | holdLow | driveHigh | holdHigh | respTimedOut | respReached | riseTimedOut | riseReached |
      bitDelay | fallTimedOut | fallLast =>
    exact stay (of_decide_eq_true rfl) (by simp) (by simp) (by simp) (by simpa using hi.cntLe)
  case dirIn | bitSample | fallNext =>
    exact stay (of_decide_eq_true rfl) (by simp) (by simp) (by simp) (by simpa using hzero)
  case respFailed hleft _ | riseFailed hleft _ | fallFailed hleft _ =>
    have hself : StaysInByte s.fsmState s.fsmState := by rw [hs]; decide
    exact hi.stayInByte hself (by simp) (by simp) (by simp) (by simpa using cnt_succ_le_budL hleft)
  case settle =>
    have hfirst : s.byteIdx = 0#3 := hi.firstByte (by rw [hs]; decide) (by rw [hs]; decide)
    exact stay (of_decide_eq_true rfl) (by simp) (by simp [hfirst]) (by simp) (by simpa using hzero)
  case byteLast hlast => exact hi.byteLast hs hlast
  case byteNext hmore => exact hi.byteNext hs hmore
  case check => exact .of_idle rfl rfl hi.byteIdxLe hi.cntLe

/-- An accepted START gives the control invariant in every state. -/
theorem acceptStart_controlInv (s : State) : ControlInv (acceptStart s) where
  legal := (by decide : Code.sDirOut ≠ Code.reservedF)
  busyIff := iff_of_true rfl (by decide : Code.sDirOut ≠ Code.idle)
  byteIdxLe := (by decide : 0#3 ≤ 4#3)
  cntLe := BitVec.le_def.mpr (Nat.zero_le _)
  firstByte _ _ := rfl
  lastByte := fun h => absurd h (by decide : Code.sDirOut ≠ Code.sCheck)
  laterClear _ _ _ _ := BitVec.getLsbD_zero

/-- A host access keeps the control invariant: but for a START it touches none of its fields. -/
theorem HostEffect.controlInv (h : HostEffect s w t) (hi : ControlInv s) : ControlInv t := by
  cases h
  case ctrlStart => exact acceptStart_controlInv _
  all_goals exact hi.congr rfl rfl rfl rfl rfl rfl

/-- Settles O46, by the effect of the step's one move. -/
theorem stepKeepsControlInvariant : Obligations.StepKeepsControlInvariant := by
  intro s t hi hstep
  obtain ⟨_, rfl⟩ | ⟨w, _, _, he⟩ | ⟨_, _, he⟩ | ⟨_, _, hillegal, _⟩ := step_effect hstep
  · exact resetInput_controlInv _
  · exact he.controlInv hi.popMove
  · exact he.controlInv rfl hi.popMove
  · exact absurd hillegal hi.legal

end Sys2Proof.Machine
end

section
/-!
PROOFS. The register window (20_memory.md): the addresses that name its offsets, its byte lanes, which accesses are
defined, and what a defined access leaves of the window.
-/

namespace Sys2Proof.Machine

variable {s : State} {off target : Offset}

/-! ## Addresses and byte lanes (20_memory.md R60, R65) -/

theorem offsetOf_add (base : Nat) {k : Nat} (hk : k < 64) :
    offsetOf base (base + k) = some (BitVec.ofNat 6 k) := by
  have hin : base ≤ base + k ∧ base + k < base + 64 := by omega
  rw [offsetOf, if_pos hin, Nat.add_sub_cancel_left]

theorem offsetOf_outside {base a : Nat} (h : a < base ∨ base + 64 ≤ a) : offsetOf base a = none :=
  if_neg (by omega)

theorem byteLane_getLsbD (r : Word) (i : Fin 4) {j : Nat} (hj : j < 8) :
    (byteLane i r).getLsbD j = r.getLsbD (8 * i.val + j) := by
  simp [byteLane, hj]

/-- Settles O43: the window's addresses, its alignment, the bits of a lane, and DATA's lanes after the commit. -/
theorem addressesNameOffsetsAndLanes : Obligations.AddressesNameOffsetsAndLanes :=
  ⟨fun _ => offsetOf_add _, fun _ => offsetOf_outside, Nat.mul_mod_right 64 _, fun r i _ => byteLane_getLsbD r i,
    fun s => byteLane_dataOf s.w0 s.w1 s.w2 s.w3⟩

/-! ## Which accesses are defined (20_memory.md R62) -/

/-- A move at the head of the agenda comes next, whichever agent makes it (log 1). -/
theorem nextMove_of_head {m : Move} (h : s.agenda.head? = some m) : nextMove s = m := by
  rw [nextMove, List.headD_eq_head?_getD, h, Option.getD_some]

/-- A defined read or write goes on at every offset, so of `decodeHaw_cases` only the third case is refused. -/
theorem exec_decodeHaw_refused_iff (w : Haw) (s : State) :
    exec (decodeHaw w) s = .refused .badAccess ↔
      ¬ (hawSize w = size32 ∧ (hawAddr w).extractLsb' 0 2 = 0#2) := by
  obtain ⟨hdef, _, e⟩ | ⟨hdef, _, e⟩ | ⟨hbad, e⟩ := decodeHaw_cases w
  · rw [e, exec_decodeRead, hostRead]
    exact iff_of_false nofun (not_not_intro hdef)
  · rw [e, exec_decodeWrite, hostWrite]
    exact iff_of_false nofun (not_not_intro hdef)
  · exact iff_of_true (e s) hbad

/-- Settles O20, by `exec_decodeHaw_refused_iff`: a host move that is refused leaves the mark. -/
theorem onlyAlignedWordAccessesAreDefined : Obligations.OnlyAlignedWordAccessesAreDefined := by
  intro w s
  refine ⟨exec_decodeHaw_refused_iff w s, fun hhead hmark hbad => ?_⟩
  have hrefused := (exec_decodeHaw_refused_iff w s.popMove).mpr hbad
  rw [step_host (nextMove_of_head hhead) hmark]
  exact hostMove_of_refused hrefused

/-! ## What an access leaves of the window (20_memory.md R68) -/

/-- Returning a word to the host changes no register. -/
@[simp] theorem readReg_respond (off : Offset) (r : Word) (s : State) : readReg off (s.respond r) = readReg off s := rfl

/-- A write of CTRL reaches the window's other registers through the flags in STATUS only. -/
theorem readReg_writeCtrl (hctrl : off ≠ offCtrl) (hstatus : off ≠ offStatus) (d : Word) (s : State) :
    readReg off (writeCtrl d s) = readReg off s := by
  obtain ⟨_, e⟩ | ⟨_, _, e⟩ | ⟨_, _, e⟩ := writeCtrl_cases d s <;> rw [e] <;>
    simp [readReg, hctrl, hstatus, chkWord]

/-- A write of STATUS touches its own flags only (42_host_interface.md R174). -/
theorem readReg_writeStatus (hstatus : off ≠ offStatus) (d : Word) (s : State) :
    readReg off (writeStatus d s) = readReg off s := by
  simp [readReg, hstatus, ctrlWord, chkWord]

theorem readReg_writeBudget (hbudget : off ≠ offBudget) (d : Word) (s : State) :
    readReg off (writeBudget d s) = readReg off s := by
  simp [readReg, hbudget, ctrlWord, statusWord, chkWord]

/-- A write leaves every register but the one it names, and STATUS where it names CTRL. -/
theorem readReg_writeReg_other (hne : off ≠ target) (hstart : ¬ (target = offCtrl ∧ off = offStatus)) (d : Word)
    (s : State) : readReg off (writeReg target d s) = readReg off s := by
  obtain ⟨ht, e⟩ | ⟨ht, e⟩ | ⟨ht, e⟩ | ⟨_, _, _, e⟩ := writeReg_cases target d s <;> rw [e]
  · exact readReg_writeCtrl (ht ▸ hne) (fun hoff => hstart ⟨ht, hoff⟩) d s
  · exact readReg_writeStatus (ht ▸ hne) d s
  · exact readReg_writeBudget (ht ▸ hne) d s

/-- Settles O21: by `decodeHaw_cases` an access that goes on is a read, which returns a word, or a write, whose frame is
`readReg_writeReg_other`. -/
theorem accessesKeepTheOtherWindowBytes : Obligations.AccessesKeepTheOtherWindowBytes := by
  intro w s t off k hexec
  obtain ⟨_, hwe, e⟩ | ⟨_, hwe, e⟩ | ⟨_, e⟩ := decodeHaw_cases w
  · rw [e, exec_decodeRead] at hexec
    obtain rfl := Host.Outcome.next.inj hexec
    exact ⟨fun hwrite => absurd (hwe.symm.trans hwrite) Bool.false_ne_true,
      fun _ => congrArg (byteLane k) (readReg_respond off _ s)⟩
  · rw [e, exec_decodeWrite] at hexec
    obtain rfl := Host.Outcome.next.inj hexec
    exact ⟨fun _ hne hstart => congrArg (byteLane k) (readReg_writeReg_other hne hstart _ s),
      fun hread => absurd (hread.symm.trans hwe) Bool.false_ne_true⟩
  · exact nomatch (e s).symm.trans hexec

end Sys2Proof.Machine
end

section
/-!
PROOFS. The encoding (30_encoding.md): the decoder undoes the encoder on words, on bytes and on table words; what it
reads is canonical; and the rows of the opcode table part the host access words.
-/

namespace Sys2Proof

variable {i : Instr} {off : Offset} {we : Bool} {d : Word}

/-! ## Offsets and WDATA -/

/-- When an access of a misaligned row is well formed (30_encoding.md R89). -/
theorem misaligned_iff {k : BitVec 2} : (lowBitsAre k off && canonicalWdata we d) = true ↔
    off.extractLsb' 0 2 = k ∧ canonicalWdata we d = true := by
  rw [Bool.and_eq_true_iff, lowBitsAre, beq_iff_eq]

theorem rsvdLowOffset_cases (h : rsvdLowOffset off = true) : off = 0x18#6 ∨ off = 0x1C#6 := by
  simpa [rsvdLowOffset] using h

theorem rsvdLowOffset_aligned (h : rsvdLowOffset off = true) : off.extractLsb' 0 2 = 0#2 := by
  obtain rfl | rfl := rsvdLowOffset_cases h <;> rfl

theorem rsvdHighOffset_aligned (h : rsvdHighOffset off = true) : off.extractLsb' 0 2 = 0#2 :=
  beq_iff_eq.mp (Bool.and_eq_true_iff.mp h).2

/-- The row of the high reserved offsets shares no offset with another row of defined accesses. -/
theorem rsvdHighOffset_other : ∀ {off : Offset}, rsvdHighOffset off = true →
    off ≠ offCtrl ∧ off ≠ offStatus ∧ off ≠ offData ∧ off ≠ offChk ∧ off ≠ offBudget ∧ off ≠ offParam ∧
      rsvdLowOffset off = false := by
  decide

/-- WDATA in canonical form is carried unchanged. -/
theorem carriedWdata_of_canonical (h : canonicalWdata we d = true) : carriedWdata we d = d := by
  cases we
  · exact (beq_iff_eq.mp h).symm
  · rfl

theorem canonicalWdata_carriedWdata (we : Bool) (d : Word) : canonicalWdata we (carriedWdata we d) = true := by
  cases we <;> rfl

/-! ## The decoder by rows (30_encoding.md R88, R89) -/

theorem decodeRead_rsvdLow (h : rsvdLowOffset off = true) : decodeRead off = .rdRsvdLow off := by
  obtain rfl | rfl := rsvdLowOffset_cases h <;> rfl

theorem decodeWrite_rsvdLow (h : rsvdLowOffset off = true) (d : Word) : decodeWrite off d = .wrRsvdLow off d := by
  obtain rfl | rfl := rsvdLowOffset_cases h <;> rfl

theorem decodeRead_rsvdHigh (h : rsvdHighOffset off = true) : decodeRead off = .rdRsvdHigh off := by
  obtain ⟨h0, h1, h2, h3, h4, h5, hlow⟩ := rsvdHighOffset_other h
  simp [decodeRead, h0, h1, h2, h3, h4, h5, hlow]

theorem decodeWrite_rsvdHigh (h : rsvdHighOffset off = true) (d : Word) : decodeWrite off d = .wrRsvdHigh off d := by
  obtain ⟨h0, h1, h2, h3, h4, h5, hlow⟩ := rsvdHighOffset_other h
  simp [decodeWrite, h0, h1, h2, h3, h4, h5, hlow]

theorem decodeSize32_aligned (h : off.extractLsb' 0 2 = 0#2) (we : Bool) (d : Word) :
    decodeSize32 we off d = if we then decodeWrite off d else decodeRead off := by
  simp [decodeSize32, lowBitsAre, h]

theorem decodeSize32_low1 (h : off.extractLsb' 0 2 = 1#2) (we : Bool) (d : Word) :
    decodeSize32 we off d = .badAlign1 we off d := by
  simp [decodeSize32, lowBitsAre, h]

theorem decodeSize32_low2 (h : off.extractLsb' 0 2 = 2#2) (we : Bool) (d : Word) :
    decodeSize32 we off d = .badAlign2 we off d := by
  simp [decodeSize32, lowBitsAre, h]

theorem decodeSize32_low3 (h : off.extractLsb' 0 2 = 3#2) (we : Bool) (d : Word) :
    decodeSize32 we off d = .badAlign3 we off d := by
  simp [decodeSize32, lowBitsAre, h]

/-! ## The decoder on encodings -/

theorem decode_encRead (h : off.extractLsb' 0 2 = 0#2) : decode (encRead off) = decodeRead off :=
  (decodeHaw_mkHaw size32 false off 0#32).trans (decodeSize32_aligned h false _)

theorem decode_encWrite (h : off.extractLsb' 0 2 = 0#2) (d : Word) : decode (encWrite off d) = decodeWrite off d :=
  (decodeHaw_mkHaw size32 true off d).trans (decodeSize32_aligned h true _)

/-- A word whose WDATA is canonical decodes by its fields as they are. -/
theorem decode_mkHaw (size : BitVec 2) (off : Offset) (h : canonicalWdata we d = true) :
    decode (.haw (mkHaw size we off d)) = decodeFields size we off d := by
  rw [decode, decodeHaw_mkHaw, carriedWdata_of_canonical h]

/-- Settles O1: a defined access decodes by its offset, a refused one by its size or its low bits, an FSM code by
itself. -/
theorem decodeOfEncodeIsIdentity : Obligations.DecodeOfEncodeIsIdentity := by
  intro i hwf
  cases i
  case wrCtrl d | wrStatus d | wrData d | wrChk d | wrBudget d | wrParam d => exact decode_encWrite rfl d
  case rdRsvdLow off => exact (decode_encRead (rsvdLowOffset_aligned hwf)).trans (decodeRead_rsvdLow hwf)
  case wrRsvdLow off d => exact (decode_encWrite (rsvdLowOffset_aligned hwf) d).trans (decodeWrite_rsvdLow hwf d)
  case rdRsvdHigh off => exact (decode_encRead (rsvdHighOffset_aligned hwf)).trans (decodeRead_rsvdHigh hwf)
  case wrRsvdHigh off d => exact (decode_encWrite (rsvdHighOffset_aligned hwf) d).trans (decodeWrite_rsvdHigh hwf d)
  case badSize8 we off d | badSize16 we off d | badSizeRsvd we off d => exact decode_mkHaw _ off hwf
  case badAlign1 we off d =>
    obtain ⟨hlow, hcanonical⟩ := misaligned_iff.mp hwf
    exact (decode_mkHaw _ off hcanonical).trans (decodeSize32_low1 hlow we d)
  case badAlign2 we off d =>
    obtain ⟨hlow, hcanonical⟩ := misaligned_iff.mp hwf
    exact (decode_mkHaw _ off hcanonical).trans (decodeSize32_low2 hlow we d)
  case badAlign3 we off d =>
    obtain ⟨hlow, hcanonical⟩ := misaligned_iff.mp hwf
    exact (decode_mkHaw _ off hcanonical).trans (decodeSize32_low3 hlow we d)
  all_goals rfl

/-! ## Bytes and table words (log 10) -/

@[simp] theorem length_littleEndian (n v : Nat) : (littleEndian n v).length = n := by
  induction n generalizing v with
  | zero => rfl
  | succ n ih => rw [littleEndian, List.length_cons, ih]

/-- The bytes of a number that fits spell the number. -/
theorem fromLittleEndian_littleEndian {n v : Nat} (h : v < 256 ^ n) : fromLittleEndian (littleEndian n v) = v := by
  induction n generalizing v with
  | zero => exact (Nat.lt_one_iff.mp h).symm
  | succ n ih =>
    have hquot : v / 256 < 256 ^ n := Nat.div_lt_of_lt_mul (by rwa [Nat.pow_succ'] at h)
    rw [littleEndian, fromLittleEndian, ih hquot, BitVec.toNat_ofNat]
    exact Nat.mod_add_div v 256

theorem haw_toNat_lt (w : Haw) : w.toNat < 256 ^ 6 := w.isLt.trans (by decide)

theorem fsmCode_toNat_lt (c : FsmCode) : c.toNat < 256 ^ 1 := c.isLt.trans (by decide)

theorem decodeBytes_haw (w : Haw) : decodeBytes (littleEndian 6 w.toNat) = .ok (decodeHaw w) := by
  have hnat : hawOfNat w.toNat = .ok (decodeHaw w) := by
    rw [hawOfNat, if_pos w.isLt, BitVec.ofNat_toNat, BitVec.setWidth_eq]
  simp [decodeBytes, fromLittleEndian_littleEndian (haw_toNat_lt w), hnat]

theorem decodeBytes_fsm (c : FsmCode) : decodeBytes (littleEndian 1 c.toNat) = .ok (decodeFsm c) := by
  have hnat : fsmOfNat c.toNat = .ok (decodeFsm c) := by
    rw [fsmOfNat, if_pos c.isLt, BitVec.ofNat_toNat, BitVec.setWidth_eq]
  simp [decodeBytes, fromLittleEndian_littleEndian (fsmCode_toNat_lt c), hnat]

/-- The byte decoder reads from an instruction's bytes what the word decoder reads from its word. -/
theorem decodeBytes_encodeBytes (i : Instr) : decodeBytes (encodeBytes i) = .ok (decode (encode i)) := by
  rw [encodeBytes]
  cases encode i with
  | haw w => exact decodeBytes_haw w
  | fsm c => exact decodeBytes_fsm c

/-- A table word that fits its bytes is read as they are. -/
theorem decodeTableWord_of_decodeBytes {nbits n v : Nat} (hn : (if isFsmWidth nbits then 1 else 6) = n)
    (hfits : v < 256 ^ n) (hbytes : decodeBytes (littleEndian n v) = .ok i) : decodeTableWord nbits v = some i := by
  subst hn
  simp only [decodeTableWord, if_pos hfits, hbytes]

theorem decodeTableWord_haw (w : Haw) : decodeTableWord 48 w.toNat = some (decodeHaw w) :=
  decodeTableWord_of_decodeBytes rfl (haw_toNat_lt w) (decodeBytes_haw w)

theorem decodeTableWord_fsm (c : FsmCode) : decodeTableWord 8 c.toNat = some (decodeFsm c) :=
  decodeTableWord_of_decodeBytes rfl (fsmCode_toNat_lt c) (decodeBytes_fsm c)

/-- Settles O2, from O1 through the bytes. -/
theorem decodeOfBytesAndTableWords : Obligations.DecodeOfBytesAndTableWords :=
  ⟨fun i hwf => (decodeBytes_encodeBytes i).trans (congrArg _ (decodeOfEncodeIsIdentity i hwf)),
    decodeTableWord_haw, decodeTableWord_fsm⟩

/-! ## What the decoder reads is canonical (30_encoding.md R87) -/

/-- The eight rows of defined reads cover the aligned offsets. -/
theorem decodeRead_wellFormed : ∀ {off : Offset}, off.extractLsb' 0 2 = 0#2 → (decodeRead off).wellFormed = true := by
  decide

/-- The rows of defined writes have the offsets of the rows of defined reads. -/
theorem wellFormed_decodeWrite (off : Offset) (d : Word) :
    (decodeWrite off d).wellFormed = (decodeRead off).wellFormed := by
  simp only [decodeWrite, decodeRead]
  split_ifs <;> rfl

theorem encode_decodeRead (off : Offset) : encode (decodeRead off) = encRead off := by
  simp only [decodeRead]
  split_ifs <;> simp [encode, *]

theorem encode_decodeWrite (off : Offset) (d : Word) : encode (decodeWrite off d) = encWrite off d := by
  simp only [decodeWrite]
  split_ifs <;> simp [encode, *]

theorem decodeSize32_canonical (off : Offset) (h : canonicalWdata we d = true) :
    (decodeSize32 we off d).wellFormed = true ∧ encode (decodeSize32 we off d) = .haw (mkHaw size32 we off d) := by
  have hlow : ∀ v : BitVec 2, v = 0#2 ∨ v = 1#2 ∨ v = 2#2 ∨ v = 3#2 := by decide
  obtain l | l | l | l := hlow (off.extractLsb' 0 2)
  · rw [decodeSize32_aligned l]
    cases we
    · obtain rfl : d = 0#32 := beq_iff_eq.mp h
      exact ⟨decodeRead_wellFormed l, encode_decodeRead off⟩
    · exact ⟨(wellFormed_decodeWrite off d).trans (decodeRead_wellFormed l), encode_decodeWrite off d⟩
  · rw [decodeSize32_low1 l]
    exact ⟨misaligned_iff.mpr ⟨l, h⟩, rfl⟩
  · rw [decodeSize32_low2 l]
    exact ⟨misaligned_iff.mpr ⟨l, h⟩, rfl⟩
  · rw [decodeSize32_low3 l]
    exact ⟨misaligned_iff.mpr ⟨l, h⟩, rfl⟩

theorem decodeFields_canonical (size : BitVec 2) (off : Offset) (h : canonicalWdata we d = true) :
    (decodeFields size we off d).wellFormed = true ∧
      encode (decodeFields size we off d) = .haw (mkHaw size we off d) := by
  have hsize : ∀ v : BitVec 2, v = 0b00#2 ∨ v = 0b01#2 ∨ v = 0b11#2 ∨ v = size32 := by decide
  obtain rfl | rfl | rfl | rfl := hsize size
  · exact ⟨h, rfl⟩
  · exact ⟨h, rfl⟩
  · exact ⟨h, rfl⟩
  · exact decodeSize32_canonical off h

theorem decodeHaw_wellFormed (w : Haw) : (decodeHaw w).wellFormed = true :=
  (decodeFields_canonical _ _ (canonicalWdata_carriedWdata _ _)).1

theorem encode_decodeHaw (w : Haw) :
    encode (decodeHaw w) = .haw (mkHaw (hawSize w) (hawWe w) (hawAddr w) (carriedWdata (hawWe w) (hawWdata w))) :=
  (decodeFields_canonical _ _ (canonicalWdata_carriedWdata _ _)).2

theorem decodeFsm_canonical : ∀ c : FsmCode, (decodeFsm c).wellFormed = true ∧ encode (decodeFsm c) = .fsm c := by
  decide

/-- Settles O4, the two formats apart. -/
theorem decodedInstructionIsCanonical : Obligations.DecodedInstructionIsCanonical :=
  ⟨fun w => ⟨decodeHaw_wellFormed w, encode_decodeHaw w⟩, decodeFsm_canonical⟩

/-! ## The rows of the opcode table (30_encoding.md R88, R89) -/

/-- The rows of the host accesses. -/
def hawRows : List Row :=
  [tableRow .rdCtrl, tableRow (.wrCtrl 0#32), tableRow .rdStatus, tableRow (.wrStatus 0#32), tableRow .rdData,
    tableRow (.wrData 0#32), tableRow .rdChk, tableRow (.wrChk 0#32), tableRow .rdBudget, tableRow (.wrBudget 0#32),
    tableRow .rdParam, tableRow (.wrParam 0#32), tableRow (.rdRsvdLow 0#6), tableRow (.wrRsvdLow 0#6 0#32),
    tableRow (.rdRsvdHigh 0#6), tableRow (.wrRsvdHigh 0#6 0#32), tableRow (.badSize8 false 0#6 0#32),
    tableRow (.badSize16 false 0#6 0#32), tableRow (.badSizeRsvd false 0#6 0#32), tableRow (.badAlign1 false 0#6 0#32),
    tableRow (.badAlign2 false 0#6 0#32), tableRow (.badAlign3 false 0#6 0#32)]

/-- The row of a host access does not depend on its operands. -/
theorem tableRow_mem_hawRows (h : i.isHostAccess = true) : tableRow i ∈ hawRows := by
  cases i
  case idle | sDirOut | sDriveLow | sHoldLow | sDriveHigh | sHoldHigh | sDirIn | sRespWait | sSettle | sBitRise |
      sBitDelay | sBitSample | sBitFall | sByteEnd | sCheck | reservedF => exact absurd h Bool.false_ne_true
  all_goals simp [hawRows, tableRow]

theorem hawRows_mask : ∀ r ∈ hawRows, r.mask &&& 0xFFFFFFFF#41 = 0#41 := by decide

/-- Two distinct rows differ in a bit that both fix. -/
theorem hawRows_disjoint : ∀ r ∈ hawRows, ∀ q ∈ hawRows, r.pattern &&& q.mask = q.pattern &&& r.mask → r = q := by
  decide

/-- Two rows of one word agree in the bits that both fix. -/
theorem Row.agree_of_hits {r q : Row} {w : Haw} (hr : r.hits w = true) (hq : q.hits w = true) :
    r.pattern &&& q.mask = q.pattern &&& r.mask := by
  rw [← beq_iff_eq.mp hr, ← beq_iff_eq.mp hq, BitVec.and_assoc, BitVec.and_assoc, BitVec.and_comm r.mask]

theorem tableRow_eq_of_hits {j : Instr} {w : Haw} (hi : i.isHostAccess = true) (hj : j.isHostAccess = true)
    (hiw : (tableRow i).hits w = true) (hjw : (tableRow j).hits w = true) : tableRow i = tableRow j :=
  hawRows_disjoint _ (tableRow_mem_hawRows hi) _ (tableRow_mem_hawRows hj) (Row.agree_of_hits hiw hjw)

/-- A row of host accesses does not look at WDATA. -/
theorem tableRow_hits_congr (hi : i.isHostAccess = true) {v w : Haw} (hsize : hawSize v = hawSize w)
    (hwe : hawWe v = hawWe w) (haddr : hawAddr v = hawAddr w) : (tableRow i).hits v = (tableRow i).hits w := by
  have hmask := hawRows_mask _ (tableRow_mem_hawRows hi)
  rw [← mkHaw_fields v, ← mkHaw_fields w, hsize, hwe, haddr, Row.hits_mkHaw _ _ _ _ _ hmask,
    Row.hits_mkHaw _ _ _ _ (hawWdata w) hmask]

/-- The family InTableRow, of every instruction. -/
theorem encode_inTableRow (i : Instr) : Laws.InTableRow.Statement i := by
  open Laws.InTableRow in
  cases i with
  | rdCtrl => exact rdCtrl
  | wrCtrl d => exact wrCtrl d
  | rdStatus => exact rdStatus
  | wrStatus d => exact wrStatus d
  | rdData => exact rdData
  | wrData d => exact wrData d
  | rdChk => exact rdChk
  | wrChk d => exact wrChk d
  | rdBudget => exact rdBudget
  | wrBudget d => exact wrBudget d
  | rdParam => exact rdParam
  | wrParam d => exact wrParam d
  | rdRsvdLow off => exact rdRsvdLow off
  | wrRsvdLow off d => exact wrRsvdLow off d
  | rdRsvdHigh off => exact rdRsvdHigh off
  | wrRsvdHigh off d => exact wrRsvdHigh off d
  | badSize8 we off d => exact badSize8 we off d
  | badSize16 we off d => exact badSize16 we off d
  | badSizeRsvd we off d => exact badSizeRsvd we off d
  | badAlign1 we off d => exact badAlign1 we off d
  | badAlign2 we off d => exact badAlign2 we off d
  | badAlign3 we off d => exact badAlign3 we off d
  | _ => exact fun _ => rfl

theorem isHostAccess_decodeHaw (w : Haw) : (decodeHaw w).isHostAccess = true := by
  rw [Instr.isHostAccess, encode_decodeHaw]

/-- A word is of the row its decoding stands for, since the canonical word with its SIZE, WE and ADDR is. -/
theorem tableRow_decodeHaw_hits (w : Haw) : (tableRow (decodeHaw w)).hits w = true := by
  have hcanonical := encode_inTableRow (decodeHaw w) (decodeHaw_wellFormed w)
  rw [encode_decodeHaw] at hcanonical
  refine (tableRow_hits_congr (isHostAccess_decodeHaw w) ?_ ?_ ?_).trans hcanonical
  · exact (hawSize_mkHaw ..).symm
  · exact (hawWe_mkHaw ..).symm
  · exact (hawAddr_mkHaw ..).symm

/-- Settles O3: a word is of the row of its decoding, the rows are disjoint, and none looks at WDATA. -/
theorem everyWordMatchesExactlyOneRow : Obligations.EveryWordMatchesExactlyOneRow := by
  intro w
  have hhaw := isHostAccess_decodeHaw
  refine ⟨tableRow_decodeHaw_hits w, fun i hi hhits => ?_, fun v hsize hwe haddr => ?_⟩
  · exact tableRow_eq_of_hits hi (hhaw w) hhits (tableRow_decodeHaw_hits w)
  · have hhits : (tableRow (decodeHaw v)).hits w = true :=
      (tableRow_hits_congr (hhaw v) hsize hwe haddr).symm.trans (tableRow_decodeHaw_hits v)
    exact tableRow_eq_of_hits (hhaw v) (hhaw w) hhits (tableRow_decodeHaw_hits w)

/-! ## Fixed words and refused rows -/

/-- Settles O5, by decoding each word. -/
theorem specWordsDecodeToTheirInstructions : Obligations.SpecWordsDecodeToTheirInstructions := by
  unfold Obligations.SpecWordsDecodeToTheirInstructions
  decide

/-- Settles O19: the meaning of a row of 30_encoding.md R89 looks at neither state nor operands. -/
theorem badAccessRowsAreRefused : Obligations.BadAccessRowsAreRefused :=
  fun _ _ _ _ => ⟨rfl, rfl, rfl, rfl, rfl, rfl⟩

end Sys2Proof
end

section
/-!
PROOFS. The sampler (40_sampler.md): what a line read takes, where the line is read, `wait_for_level` and the wait
states that perform it, and the transaction whose budget allows no read.
-/

namespace Sys2Proof.Machine

variable {s t : State} {w : Haw} {c : FsmCode} {l : Level} {target : Level} {budget : Nat} {line : Nat → Level}

/-! ## The line read (R124) -/

theorem drawn_of_cons {rest : List Level} (h : s.lineIn = l :: rest) : drawn s = l := by
  rw [drawn, h, List.headD_cons]

theorem drawn_of_nil (h : s.lineIn = []) : drawn s = Config.lineDraw s.drawCount := by
  rw [drawn, h, List.headD_nil]

/-- Settles O24: the two forms of a draw, one for each form of the list of answers (log 2). -/
theorem lineReadRecordsTheDrawnLevel : Obligations.LineReadRecordsTheDrawnLevel := by
  refine ⟨fun s l rest h => ⟨drawn_of_cons h, ?_⟩, fun s h => ⟨drawn_of_nil h, ?_⟩⟩
  · simp [lineRead, takeDraw, State.emit, drawn_of_cons h, h]
  · simp [lineRead, takeDraw, State.emit, drawn_of_nil h, h]

/-! ## Where the line is read (R124) -/

/-- A host access leaves the pin trace. -/
theorem HostEffect.trace_eq (h : HostEffect s w t) : t.trace = s.trace := by
  cases h <;> simp

/-- The codes whose operation may read the line. -/
abbrev IsReading (c : FsmCode) : Prop :=
  c = Code.sRespWait ∨ c = Code.sBitRise ∨ c = Code.sBitSample ∨ c = Code.sBitFall

/-- Outside the four reading states an operation records nothing, or an event that is no read. -/
theorem FsmEffect.isReading (h : FsmEffect s c t) (htrace : t.trace = s.trace ++ [.read l]) : IsReading c := by
  cases h
  case respTimedOut | respReached | respFailed => exact .inl rfl
  case riseTimedOut | riseReached | riseFailed => exact .inr (.inl rfl)
  case bitSample => exact .inr (.inr (.inl rfl))
  case fallTimedOut | fallLast | fallNext | fallFailed => exact .inr (.inr (.inr rfl))
  all_goals simp at htrace

/-- The reading states come after the line has been released (41_frame_decoder.md R137). -/
theorem LineInv.undriven_of_isReading (hi : LineInv s) (hc : IsReading s.fsmState) : s.dir = .input := by
  have hoff : ∀ c, IsReading c → ¬ (Code.sDriveLow ≤ c ∧ c ≤ Code.sDirIn) := by decide
  have hout : s.dir ≠ .output := mt hi.dirIff.mp (hoff _ hc)
  cases hdir : s.dir with
  | input => rfl
  | output => exact absurd hdir hout

/-- Settles O50: only an FSM operation records a read, and only in a reading state. -/
theorem readsHappenOnlyWhileUndriven : Obligations.ReadsHappenOnlyWhileUndriven := by
  intro s t l hi hstep htrace
  have hreading : IsReading s.fsmState := by
    obtain ⟨_, rfl⟩ | ⟨w, _, _, he⟩ | ⟨_, _, he⟩ | ⟨_, _, _, rfl⟩ := step_effect hstep
    · exact absurd htrace (List.append_ne_nil_of_right_ne_nil _ (List.cons_ne_nil _ _)).symm
    · simp [he.trace_eq] at htrace
    · exact he.isReading htrace
    · simp at htrace
  exact ⟨hi.line.undriven_of_isReading hreading, hreading⟩

/-! ## `wait_for_level` (R111) -/

theorem waitForLevel_succ_of_eq (h : line 0 = target) : waitForLevel target (budget + 1) line = ⟨true, [line 0]⟩ :=
  if_pos h

theorem waitForLevel_succ_of_ne (h : line 0 ≠ target) :
    waitForLevel target (budget + 1) line =
      ⟨(waitForLevel target budget fun n => line (n + 1)).reached,
        line 0 :: (waitForLevel target budget fun n => line (n + 1)).seen⟩ :=
  if_neg h

/-- The first `n + 1` levels are the first and the first `n` of the others. -/
theorem map_range_succ (line : Nat → Level) (n : Nat) :
    (List.range (n + 1)).map line = line 0 :: (List.range n).map fun i => line (i + 1) := by
  rw [List.range_succ_eq_map, List.map_cons, List.map_map]
  rfl

/-- The first match within the budget ends the wait. -/
theorem waitForLevel_of_match {j : Nat} (hj : j < budget) (hbefore : ∀ i < j, line i ≠ target)
    (hmatch : line j = target) : waitForLevel target budget line = ⟨true, (List.range (j + 1)).map line⟩ := by
  induction budget generalizing j line with
  | zero => exact absurd hj (Nat.not_lt_zero j)
  | succ budget ih =>
    cases j with
    | zero => exact waitForLevel_succ_of_eq hmatch
    | succ j =>
      rw [waitForLevel_succ_of_ne (hbefore 0 j.succ_pos), map_range_succ,
        ih (Nat.lt_of_succ_lt_succ hj) (fun i hi => hbefore (i + 1) (Nat.succ_lt_succ hi)) hmatch]

/-- Without a match the wait uses up its budget. -/
theorem waitForLevel_of_no_match (h : ∀ i < budget, line i ≠ target) :
    waitForLevel target budget line = ⟨false, (List.range budget).map line⟩ := by
  induction budget generalizing line with
  | zero => rfl
  | succ budget ih =>
    rw [waitForLevel_succ_of_ne (h 0 budget.succ_pos), map_range_succ,
      ih fun i hi => h (i + 1) (Nat.succ_lt_succ hi)]

/-- Settles O54, by induction on the budget in each of the two forms. -/
theorem waitForLevelReadsAtMostItsBudget : Obligations.WaitForLevelReadsAtMostItsBudget :=
  fun _ _ _ => ⟨fun _ => waitForLevel_of_match, waitForLevel_of_no_match⟩

/-! ## The wait states (R112) -/

/-- The state is a wait for `target`: for HIGH in the response wait and at a bit's rise, for LOW at its fall. -/
abbrev WaitsFor (target : Level) (s : State) : Prop :=
  ((s.fsmState = Code.sRespWait ∨ s.fsmState = Code.sBitRise) ∧ target = .high) ∨
    (s.fsmState = Code.sBitFall ∧ target = .low)

/-- The state after a poll that fails (R112). -/
def failPoll (s : State) : State := { lineRead s with cnt := s.cnt + 1 }

theorem WaitsFor.after_failPoll (hw : WaitsFor target s) : WaitsFor target (failPoll s) := by
  simpa [failPoll] using hw

theorem upcoming_failPoll (s : State) : upcoming (failPoll s) = fun n => upcoming s (n + 1) :=
  funext (upcoming_lineRead s)

/-- How many WaitSteps a wait takes: one for each read, and one more to find the budget used up (R112). -/
def WaitResult.steps (r : WaitResult) : Nat := r.seen.length + if r.reached then 0 else 1

/-- What the end of a wait with result `r` leaves, from a state of the wait on (R112; 41_frame_decoder.md R138, R140,
R143). -/
structure EndsWait (r : WaitResult) (s t : State) : Prop where
  fsmState : t.fsmState = waitExit r.reached s
  trace : t.trace = s.trace ++ r.events
  upcoming : ∀ k, upcoming t k = upcoming s (r.seen.length + k)
  wRespTo : t.wRespTo = (s.wRespTo || (s.fsmState == Code.sRespWait && !r.reached))
  abrt : t.abrt = (s.abrt || (s.fsmState != Code.sRespWait && !r.reached))

/-! Where each wait goes when it ends (41_frame_decoder.md R138, R140, R143). -/

theorem waitExit_resp (hs : s.fsmState = Code.sRespWait) (reached : Bool) : waitExit reached s = Code.sSettle :=
  if_pos hs

theorem waitExit_timedOut (hs : s.fsmState ≠ Code.sRespWait) : waitExit false s = Code.sByteEnd := if_neg hs

theorem waitExit_rise (hs : s.fsmState = Code.sBitRise) : waitExit true s = Code.sBitDelay := by
  rw [waitExit, hs]
  rfl

theorem waitExit_fall (hs : s.fsmState = Code.sBitFall) :
    waitExit true s = if s.bitIdx = 7#3 then Code.sByteEnd else Code.sBitRise := by
  rw [waitExit, hs]
  rfl

/-- A wait whose last poll reads the level: the end differs from that read's state in STATE and the bit count only. -/
theorem EndsWait.of_lineRead (hstate : t.fsmState = waitExit true s) (htrace : t.trace = (lineRead s).trace := by simp)
    (hline : t.lineIn = (lineRead s).lineIn := by simp) (hdraws : t.drawCount = (lineRead s).drawCount := by simp)
    (hresp : t.wRespTo = s.wRespTo := by simp) (habrt : t.abrt = s.abrt := by simp) :
    EndsWait ⟨true, [drawn s]⟩ s t where
  fsmState := hstate
  trace := htrace
  upcoming k := by
    rw [upcoming_congr hline hdraws, upcoming_lineRead, Nat.add_comm]
    rfl
  wRespTo := by simp [hresp]
  abrt := by simp [habrt]

/-- The operation of a wait state whose poll reads the level ends the wait. -/
theorem WaitsFor.reached (hw : WaitsFor target s) (hleft : s.cnt < s.budL) (hl : drawn s = target) :
    ∃ t, FsmEffect s s.fsmState t ∧ EndsWait ⟨true, [drawn s]⟩ s t := by
  obtain ⟨hs | hs, rfl⟩ | ⟨hs, rfl⟩ := hw <;> rw [hs]
  · exact ⟨_, .respReached hleft hl, .of_lineRead (waitExit_resp hs true).symm⟩
  · exact ⟨_, .riseReached hleft hl, .of_lineRead (waitExit_rise hs).symm⟩
  · by_cases hlast : s.bitIdx = 7#3
    · exact ⟨_, .fallLast hleft hl hlast, .of_lineRead (by simp [waitExit_fall hs, hlast])⟩
    · exact ⟨_, .fallNext hleft hl hlast, .of_lineRead (by simp [waitExit_fall hs, hlast])⟩

/-- The response wait's timeout sets W_RESP_TO and reads nothing. -/
theorem EndsWait.of_respTimedOut (hs : s.fsmState = Code.sRespWait) :
    EndsWait ⟨false, []⟩ s (State.goto Code.sSettle { s with wRespTo := true }) where
  fsmState := (waitExit_resp hs false).symm
  trace := (List.append_nil _).symm
  upcoming k := by
    rw [List.length_nil, Nat.zero_add]
    rfl
  wRespTo := by simp [hs]
  abrt := by simp [hs]

/-- A bit wait's timeout sets ABRT and reads nothing. -/
theorem EndsWait.of_abortByte (hs : s.fsmState ≠ Code.sRespWait) : EndsWait ⟨false, []⟩ s (abortByte s) where
  fsmState := (waitExit_timedOut hs).symm
  trace := (List.append_nil _).symm
  upcoming k := by
    rw [List.length_nil, Nat.zero_add]
    rfl
  wRespTo := by simp [hs]
  abrt := by simp [hs]

/-- The operation of a wait state whose budget is used up ends the wait without a read. -/
theorem WaitsFor.timedOut (hw : WaitsFor target s) (hspent : s.budL ≤ s.cnt) :
    ∃ t, FsmEffect s s.fsmState t ∧ EndsWait ⟨false, []⟩ s t := by
  obtain ⟨hs | hs, _⟩ | ⟨hs, _⟩ := hw
  · exact ⟨_, hs.symm ▸ .respTimedOut hspent, .of_respTimedOut hs⟩
  · exact ⟨_, hs.symm ▸ .riseTimedOut hspent, .of_abortByte (by rw [hs]; decide)⟩
  · exact ⟨_, hs.symm ▸ .fallTimedOut hspent, .of_abortByte (by rw [hs]; decide)⟩

/-- The operation of a wait state whose poll fails stays in the wait. -/
theorem WaitsFor.failed (hw : WaitsFor target s) (hleft : s.cnt < s.budL) (hl : drawn s ≠ target) :
    FsmEffect s s.fsmState (failPoll s) := by
  obtain ⟨hs | hs, rfl⟩ | ⟨hs, rfl⟩ := hw <;> rw [hs]
  · exact .respFailed hleft (Level.low_of_ne_high hl)
  · exact .riseFailed hleft (Level.low_of_ne_high hl)
  · exact .fallFailed hleft (Level.high_of_ne_low hl)

/-- A wait goes on after a failed poll: what ends it from there ends it from here, after one more read. -/
theorem EndsWait.of_failPoll {r : WaitResult} (h : EndsWait r (failPoll s) t) :
    EndsWait ⟨r.reached, drawn s :: r.seen⟩ s t where
  fsmState := by simpa [waitExit, failPoll] using h.fsmState
  trace := by simpa [WaitResult.events, failPoll] using h.trace
  upcoming k := by rw [h.upcoming, upcoming_failPoll, List.length_cons, Nat.add_right_comm]
  wRespTo := by simpa [failPoll] using h.wRespTo
  abrt := by simpa [failPoll] using h.abrt

theorem FsmEffect.alone (h : FsmEffect s c t) (ha : Alone s) : Alone t := by
  obtain ⟨hagenda, hmark⟩ := ha
  cases h <;> simp [Alone, hagenda, hmark]

/-- While the FSM runs alone, a run that goes on starts with the operation of STATE. -/
theorem run_succ_of_effect {n : Nat} {r : Result} (ha : Alone s) (hs : s.fsmState = c) (he : FsmEffect s c t)
    (hrun : Alone t → run n t = r) : run (n + 1) s = r :=
  (run_succ n (step_of_alone ha (hs ▸ exec_of_fsmEffect he))).trans (hrun (he.alone ha))

/-- The run that result `r` takes stays in the wait state before its last step, and ends the wait with that result. -/
def RunsWait (r : WaitResult) (s : State) : Prop :=
  (∀ j < r.steps, ∃ t, run j s = .next t ∧ t.fsmState = s.fsmState) ∧
    ∃ t, run r.steps s = .next t ∧ EndsWait r s t

/-- A wait that ends with the first step. -/
theorem RunsWait.of_one {r : WaitResult} (hr : r.steps = 1) (ha : Alone s) (he : FsmEffect s s.fsmState t)
    (hend : EndsWait r s t) : RunsWait r s := by
  rw [RunsWait, hr]
  refine ⟨fun j hj => ?_, t, run_succ_of_effect ha rfl he fun _ => rfl, hend⟩
  obtain rfl : j = 0 := Nat.lt_one_iff.mp hj
  exact ⟨s, rfl, rfl⟩

theorem WaitResult.steps_cons (r : WaitResult) (l : Level) : steps ⟨r.reached, l :: r.seen⟩ = r.steps + 1 :=
  Nat.add_right_comm ..

/-- A wait whose first step is a failed poll. -/
theorem RunsWait.of_failPoll {r : WaitResult} (hw : FsmEffect s s.fsmState (failPoll s)) (ha : Alone s)
    (h : RunsWait r (failPoll s)) : RunsWait ⟨r.reached, drawn s :: r.seen⟩ s := by
  obtain ⟨hstay, t, hrun, hend⟩ := h
  rw [RunsWait, r.steps_cons]
  refine ⟨fun j hj => ?_, t, run_succ_of_effect ha rfl hw fun _ => hrun, hend.of_failPoll⟩
  cases j with
  | zero => exact ⟨s, rfl, rfl⟩
  | succ j =>
    obtain ⟨u, hu, hstate⟩ := hstay j (Nat.lt_of_succ_lt_succ hj)
    exact ⟨u, run_succ_of_effect ha rfl hw fun _ => hu, hstate.trans (by simp [failPoll])⟩

/-- From any point of a wait on, the FSM performs `wait_for_level` with what is left of the budget, by induction on
that. -/
theorem WaitsFor.runsWait {left : Nat} (hw : WaitsFor target s) (ha : Alone s)
    (hleft : s.cnt.toNat + left = s.budL.toNat) : RunsWait (waitForLevel target left (upcoming s)) s := by
  induction left generalizing s with
  | zero =>
    obtain ⟨t, he, hend⟩ := hw.timedOut (BitVec.le_def.mpr hleft.ge)
    exact .of_one rfl ha he hend
  | succ left ih =>
    have hlt : s.cnt < s.budL := BitVec.lt_def.mpr (by omega)
    by_cases hl : drawn s = target
    · obtain ⟨t, he, hend⟩ := hw.reached hlt hl
      rw [waitForLevel_succ_of_eq (drawn_eq_upcoming s ▸ hl), ← drawn_eq_upcoming]
      exact .of_one rfl ha he hend
    · have hnext : (failPoll s).cnt.toNat + left = (failPoll s).budL.toNat := by
        rw [failPoll, cnt_succ_toNat hlt, lineRead_budL]
        omega
      have hpoll := hw.failed hlt hl
      have hrest := ih hw.after_failPoll (hpoll.alone ha) hnext
      rw [upcoming_failPoll] at hrest
      rw [waitForLevel_succ_of_ne (drawn_eq_upcoming s ▸ hl), ← drawn_eq_upcoming]
      exact hrest.of_failPoll hpoll ha

/-- Settles O55: on entry the whole budget is left. -/
theorem waitStatesPerformWaitForLevel : Obligations.WaitStatesPerformWaitForLevel := by
  intro s target ha hcnt hw
  have hleft : s.cnt.toNat + s.budL.toNat = s.budL.toNat := by simp [hcnt]
  obtain ⟨hstay, t, hrun, hstate, htrace, hline, hresp, habrt⟩ := WaitsFor.runsWait hw ha hleft
  exact ⟨hstay, t, hrun, hstate, htrace, hline, hresp, habrt⟩

/-! ## The budget 0 (R115) -/

/-- The state after the start signal and release (41_frame_decoder.md R132 to R137). -/
def startSignalled (s : State) : State :=
  { s with
    dir := .input, out := .high, cnt := 0#32, fsmState := Code.sRespWait
    trace := s.trace ++ [.dir .output, .lvl .low, .delayMs Config.tStartMs.toNat, .lvl .high,
      .delayUs Config.tRelUs.toNat, .dir .input] }

theorem run_startSignalled (ha : Alone s) (hs : s.fsmState = Code.sDirOut) : run 6 s = .next (startSignalled s) := by
  refine run_succ_of_effect ha hs .dirOut fun ha => run_succ_of_effect ha rfl .driveLow fun ha =>
    run_succ_of_effect ha rfl .holdLow fun ha => run_succ_of_effect ha rfl .driveHigh fun ha =>
    run_succ_of_effect ha rfl .holdHigh fun ha => run_succ_of_effect ha rfl .dirIn fun _ => ?_
  simp [startSignalled, State.enterWait, State.goto, State.emit, setDir, setLvl, delayMs, delayUs]

/-- At budget 0 every wait's budget is used up at once. -/
theorem budL_le_cnt (hb : s.budL = 0#32) : s.budL ≤ s.cnt := hb ▸ BitVec.le_def.mpr (Nat.zero_le _)

/-- The state after the settle delay where the response wait timed out (41_frame_decoder.md R138, R139). -/
def missResponse (s : State) : State :=
  beginByte { delayUs Config.tSettleUs (State.goto Code.sSettle { s with wRespTo := true }) with byteIdx := 0#3 }

/-- A response wait that times out reads nothing and leaves ACC and W_BYTE_TO. -/
theorem missResponse_frame (s : State) :
    (missResponse s).wRespTo = true ∧ (missResponse s).trace = s.trace ++ [.delayUs Config.tSettleUs.toNat] ∧
      (missResponse s).lineIn = s.lineIn ∧ (missResponse s).drawCount = s.drawCount ∧
      (missResponse s).acc = s.acc ∧ (missResponse s).wByteTo = s.wByteTo := by
  simp [missResponse]

theorem run_missResponse (ha : Alone s) (hs : s.fsmState = Code.sRespWait) (hb : s.budL = 0#32) :
    run 2 s = .next (missResponse s) :=
  run_succ_of_effect ha hs (.respTimedOut (budL_le_cnt hb)) fun ha => run_succ_of_effect ha rfl .settle fun _ => rfl

/-- The start of byte `k` at budget 0. -/
structure AtByte (k : BitVec 3) (s : State) : Prop where
  alone : Alone s
  fsmState : s.fsmState = Code.sBitRise
  budL : s.budL = 0#32
  byteIdx : s.byteIdx = k

theorem AtByte.after_missResponse (ha : Alone s) (hb : s.budL = 0#32) : AtByte 0#3 (missResponse s) := by
  obtain ⟨hagenda, hmark⟩ := ha
  constructor <;> simp [missResponse, Alone, *]

/-- The state after a byte other than the last whose first wait timed out (41_frame_decoder.md R140, R144). -/
def missByte (s : State) : State := beginByte { commitByte (abortByte s) with byteIdx := s.byteIdx + 1 }

/-- The state after the last byte's first wait timed out and the results were committed (R140, R144, R146). -/
def missLastByte (s : State) : State := commitResults ((commitByte (abortByte s)).goto Code.sCheck)

@[simp] theorem missByte_byteIdx (s : State) : (missByte s).byteIdx = s.byteIdx + 1 := rfl

/-- The sentinel is stored as the byte, and as no other. -/
@[simp] theorem missByte_work (s : State) :
    (missByte s).w0 = (if s.byteIdx = 0#3 then sentinel else s.w0) ∧
      (missByte s).w1 = (if s.byteIdx = 1#3 then sentinel else s.w1) ∧
      (missByte s).w2 = (if s.byteIdx = 2#3 then sentinel else s.w2) ∧
      (missByte s).w3 = (if s.byteIdx = 3#3 then sentinel else s.w3) :=
  ⟨rfl, rfl, rfl, rfl⟩

@[simp] theorem missByte_wByteTo (s : State) : (missByte s).wByteTo = markByte s.wByteTo s.byteIdx := rfl

@[simp] theorem missByte_acc (s : State) :
    (missByte s).acc = if s.byteIdx < 4#3 then s.acc + sentinel else s.acc := rfl

/-- What the last byte's commit and the checksum's leave. -/
theorem missLastByte_results (hlast : s.byteIdx = 4#3) :
    (missLastByte s).data = dataOf s.w0 s.w1 s.w2 s.w3 ∧ (missLastByte s).sum = s.acc ∧
      (missLastByte s).crc = sentinel ∧ (missLastByte s).outcome = checkOutcome s.acc sentinel ∧
      (missLastByte s).byteTo = markByte s.wByteTo 4#3 := by
  simp [missLastByte, hlast, storedByte]

theorem AtByte.after_missByte {k : BitVec 3} (h : AtByte k s) : AtByte (k + 1) (missByte s) := by
  obtain ⟨⟨hagenda, hmark⟩, _, hbudL, hbyte⟩ := h
  constructor <;> simp [missByte, Alone, *]

theorem AtByte.run_missByte {k : BitVec 3} (h : AtByte k s) (hk : k ≠ 4#3) : run 2 s = .next (missByte s) :=
  run_succ_of_effect h.alone h.fsmState (.riseTimedOut (budL_le_cnt h.budL)) fun ha =>
    run_succ_of_effect ha rfl (.byteNext (h.byteIdx.trans_ne hk)) fun _ => rfl

theorem AtByte.run_missLastByte (h : AtByte 4#3 s) : run 3 s = .next (missLastByte s) :=
  run_succ_of_effect h.alone h.fsmState (.riseTimedOut (budL_le_cnt h.budL)) fun ha =>
    run_succ_of_effect ha rfl (.byteLast h.byteIdx) fun ha => run_succ_of_effect ha rfl .check fun _ => rfl

/-- The state after the five bytes of a frame timed out. -/
def missFrame (s : State) : State := missLastByte (missByte (missByte (missByte (missByte s))))

theorem AtByte.run_missFrame (h : AtByte 0#3 s) : run 11 s = .next (missFrame s) := by
  have h1 : AtByte 1#3 _ := h.after_missByte
  have h2 : AtByte 2#3 _ := h1.after_missByte
  have h3 : AtByte 3#3 _ := h2.after_missByte
  have h4 : AtByte 4#3 _ := h3.after_missByte
  exact run_add (h.run_missByte (by decide)) <| run_add (h1.run_missByte (by decide)) <|
    run_add (h2.run_missByte (by decide)) <| run_add (h3.run_missByte (by decide)) h4.run_missLastByte

/-- Bytes 0 to 3 timed out: four sentinels, which sum to 0xFC, and their flags. -/
theorem missByte_four (hk : s.byteIdx = 0#3) (hacc : s.acc = 0#8) (hflags : s.wByteTo = 0#5) :
    let t := missByte (missByte (missByte (missByte s)))
    t.byteIdx = 4#3 ∧ (t.w0 = sentinel ∧ t.w1 = sentinel ∧ t.w2 = sentinel ∧ t.w3 = sentinel) ∧ t.acc = 0xFC#8 ∧
      t.wByteTo = 0b01111#5 := by
  simp [hk, hacc, hflags, sentinel, markByte]

/-- Five bytes that timed out, as they are committed (41_frame_decoder.md R149, R152). -/
theorem missFrame_results (hk : s.byteIdx = 0#3) (hacc : s.acc = 0#8) (hflags : s.wByteTo = 0#5) :
    (missFrame s).data = 0xFFFFFFFF#32 ∧ (missFrame s).sum = 0xFC#8 ∧ (missFrame s).crc = 0xFF#8 ∧
      (missFrame s).outcome = .checksumMismatch ∧ (missFrame s).byteTo = 0b11111#5 := by
  obtain ⟨hlast, ⟨h0, h1, h2, h3⟩, hacc4, hflags4⟩ := missByte_four hk hacc hflags
  obtain ⟨hdata, hsum, hcrc, houtcome, hbyteTo⟩ := missLastByte_results hlast
  rw [missFrame, hdata, hsum, hcrc, houtcome, hbyteTo, h0, h1, h2, h3, hacc4, hflags4]
  exact ⟨rfl, rfl, rfl, rfl, rfl⟩

/-- Five bytes that time out read nothing and record nothing; the commit shows W_RESP_TO and goes to IDLE. -/
theorem missFrame_frame (s : State) :
    (missFrame s).fsmState = Code.idle ∧ (missFrame s).respTo = s.wRespTo ∧ (missFrame s).trace = s.trace ∧
      (missFrame s).lineIn = s.lineIn ∧ (missFrame s).drawCount = s.drawCount := by
  simp [missFrame, missLastByte, missByte]

/-- Settles O60: the start signal, the response wait and the five bytes end to end. -/
theorem budgetZeroCommitsFiveSentinels : Obligations.BudgetZeroCommitsFiveSentinels := by
  intro s ha hs hb hacc hflags
  have ha' : Alone (startSignalled s) := ha
  have hfirst : AtByte 0#3 (missResponse (startSignalled s)) := .after_missResponse ha' hb
  have hrun : run 19 s = .next (missFrame (missResponse (startSignalled s))) :=
    run_add (run_startSignalled ha hs) (run_add (run_missResponse ha' rfl hb) hfirst.run_missFrame)
  obtain ⟨hresp₀, htrace₀, hline₀, hdraws₀, hacc₀, hflags₀⟩ := missResponse_frame (startSignalled s)
  obtain ⟨hstate, hresp, htrace, hline, hdraws⟩ := missFrame_frame (missResponse (startSignalled s))
  obtain ⟨hdata, hsum, hcrc, houtcome, hbyteTo⟩ :=
    missFrame_results hfirst.byteIdx (hacc₀.trans hacc) (hflags₀.trans hflags)
  refine ⟨_, hrun, hstate, hline.trans hline₀, hdraws.trans hdraws₀, hdata, hsum, hcrc, houtcome, hresp.trans hresp₀,
    hbyteTo, ?_⟩
  rw [htrace, htrace₀, startSignalled, List.append_assoc]
  rfl

end Sys2Proof.Machine
end

section
/-!
PROOFS. The invariant of the SWBB (10_state.md R24, R26, R27, R34, R36; 41_frame_decoder.md R145, R149, R151): what the
effect of an FSM operation and of a host access does to the line port, to the byte being decoded, and to the results.
-/

namespace Sys2Proof.Machine

variable {s t : State} {w : Haw} {c : FsmCode}

/-! ## The line port (41_frame_decoder.md R132 to R137) -/

/-- Two codes between which the line port is to hold the same: driven or not, LOW or not. -/
abbrev SameLine (c c' : FsmCode) : Prop :=
  (Code.sDriveLow ≤ c' ∧ c' ≤ Code.sDirIn ↔ Code.sDriveLow ≤ c ∧ c ≤ Code.sDirIn) ∧
    (Code.sHoldLow ≤ c' ∧ c' ≤ Code.sDriveHigh ↔ Code.sHoldLow ≤ c ∧ c ≤ Code.sDriveHigh)

theorem LineInv.congr (hi : LineInv s) (hdir : t.dir = s.dir) (hout : t.out = s.out)
    (hcode : SameLine s.fsmState t.fsmState) : LineInv t where
  dirIff := by rw [hdir, hcode.1]; exact hi.dirIff
  outIff := by rw [hout, hcode.2]; exact hi.outIff

/-- The operation of the code in STATE keeps the line invariant: the four operations that write DIR or OUT go to the
code from which on that value is due. -/
theorem FsmEffect.lineInv (h : FsmEffect s c t) (hs : s.fsmState = c) (hi : LineInv s) : LineInv t := by
  have keep := hi.congr (t := t)
  have hdir := hi.dirIff
  have hout := hi.outIff
  rw [hs] at keep hdir hout
  cases h
  case dirOut => exact ⟨of_decide_eq_true rfl, hout.trans (of_decide_eq_true rfl)⟩
  case driveLow => exact ⟨hdir.trans (of_decide_eq_true rfl), of_decide_eq_true rfl⟩
  case driveHigh => exact ⟨hdir.trans (of_decide_eq_true rfl), of_decide_eq_true rfl⟩
  case dirIn => exact ⟨of_decide_eq_true rfl, hout.trans (of_decide_eq_true rfl)⟩
  case idle => exact hi
  case respFailed | riseFailed | fallFailed => exact hi.congr (by simp) (by simp) ⟨by simp, by simp⟩
  all_goals exact keep (by simp) (by simp) (of_decide_eq_true rfl)

/-- A host access leaves the line port, and a START goes from one undriven code to another. -/
theorem HostEffect.lineInv (h : HostEffect s w t) (hi : LineInv s) : LineInv t := by
  cases h
  case ctrlStart _ _ hidle => exact hi.congr rfl rfl (by rw [hidle]; exact of_decide_eq_true rfl)
  all_goals exact hi.congr rfl rfl ⟨Iff.rfl, Iff.rfl⟩

/-- Settles O47, by the effect of the step's one move. -/
theorem stepKeepsLineInvariant : Obligations.StepKeepsLineInvariant := by
  intro s t _ hi hstep
  have hi' : LineInv s.popMove := hi.congr rfl rfl ⟨Iff.rfl, Iff.rfl⟩
  obtain ⟨_, rfl⟩ | ⟨w, _, _, he⟩ | ⟨_, _, he⟩ | ⟨_, _, _, rfl⟩ := step_effect hstep
  · exact reset_lineInv.congr rfl rfl ⟨Iff.rfl, Iff.rfl⟩
  · exact he.lineInv hi'
  · exact he.lineInv rfl hi'
  · exact hi'.congr rfl rfl ⟨Iff.rfl, Iff.rfl⟩

/-! ## The byte being decoded (41_frame_decoder.md R139 to R143) -/

/-- Outside the four codes of a bit the decode invariant asks for nothing. -/
theorem DecodeInv.of_outside (h : ¬ (Code.sBitRise ≤ t.fsmState ∧ t.fsmState ≤ Code.sBitFall)) : DecodeInv t where
  shBefore hfirst hlast := absurd ⟨hfirst, BitVec.le_trans hlast (by decide)⟩ h
  shAfter hfall := absurd (by rw [hfall]; decide) h
  notAborted hfirst hlast := absurd ⟨hfirst, hlast⟩ h

/-- The decode invariant speaks of four fields only. -/
theorem DecodeInv.congr (hi : DecodeInv s) (hstate : t.fsmState = s.fsmState) (hsh : t.sh = s.sh)
    (hbit : t.bitIdx = s.bitIdx) (habrt : t.abrt = s.abrt) : DecodeInv t := by
  obtain ⟨shBefore, shAfter, notAborted⟩ := hi
  constructor <;> simpa only [hstate, hsh, hbit, habrt]

/-- From a bit's rise up to its sample SH, BIT_IDX and ABRT stay. -/
theorem DecodeInv.beforeSample (hi : DecodeInv s)
    (hs : Code.sBitRise ≤ s.fsmState ∧ s.fsmState ≤ Code.sBitSample)
    (ht : t.fsmState = Code.sBitDelay ∨ t.fsmState = Code.sBitSample) (hsh : t.sh = s.sh)
    (hbit : t.bitIdx = s.bitIdx) (habrt : t.abrt = s.abrt) : DecodeInv t where
  shBefore _ _ := by rw [hsh, hbit]; exact hi.shBefore hs.1 hs.2
  shAfter hfall := by rw [hfall] at ht; exact absurd ht (by decide)
  notAborted _ _ := habrt.trans (hi.notAborted hs.1 (BitVec.le_trans hs.2 (by decide)))

/-- The sample doubles SH and adds a bit (41_frame_decoder.md R142). -/
theorem shiftIn_toNat_lt {sh : Byte} {n : Nat} (h : sh.toNat < 2 ^ n) (b : Level) :
    (shiftIn sh b).toNat < 2 ^ (n + 1) := by
  have hmod := Nat.mod_le (2 * sh.toNat + if b = .high then 1 else 0) 256
  rw [shiftIn_toNat, Nat.pow_succ]
  cases b <;> simp_all <;> omega

theorem DecodeInv.afterSample (hi : DecodeInv s) (hs : s.fsmState = Code.sBitSample) (l : Level) :
    DecodeInv (State.enterWait Code.sBitFall { lineRead s with sh := shiftIn s.sh l }) where
  shBefore _ hlast := absurd hlast (by decide : ¬ Code.sBitFall ≤ Code.sBitSample)
  shAfter _ := shiftIn_toNat_lt (hi.shBefore (by rw [hs]; decide) (by rw [hs]; decide)) l
  notAborted _ _ := hi.notAborted (by rw [hs]; decide) (by rw [hs]; decide)

/-- Before the eighth bit there is a next bit (10_state.md R34). -/
theorem bitIdx_succ_toNat : ∀ i : BitVec 3, i ≠ 7#3 → (i + 1).toNat = i.toNat + 1 := by
  decide

theorem DecodeInv.afterFall (hi : DecodeInv s) (hs : s.fsmState = Code.sBitFall) (hmore : s.bitIdx ≠ 7#3) :
    DecodeInv (State.enterWait Code.sBitRise { lineRead s with bitIdx := s.bitIdx + 1 }) where
  shBefore _ _ := by
    show s.sh.toNat < 2 ^ (s.bitIdx + 1).toNat
    rw [bitIdx_succ_toNat _ hmore]
    exact hi.shAfter hs
  shAfter hfall := absurd hfall (by decide : Code.sBitRise ≠ Code.sBitFall)
  notAborted _ _ := hi.notAborted (by rw [hs]; decide) (by rw [hs]; decide)

/-- A byte begins with SH = 0, no bit sampled and ABRT clear (41_frame_decoder.md R139, R144). -/
theorem beginByte_decodeInv (s : State) : DecodeInv (beginByte s) where
  shBefore _ _ := (by decide : (0#8).toNat < 2 ^ (0#3).toNat)
  shAfter hfall := absurd hfall (by decide : Code.sBitRise ≠ Code.sBitFall)
  notAborted _ _ := rfl

/-- The operation of the code in STATE keeps the decode invariant. -/
theorem FsmEffect.decodeInv (h : FsmEffect s c t) (hs : s.fsmState = c) (hi : DecodeInv s) : DecodeInv t := by
  cases h
  case idle => exact hi
  case respFailed | riseFailed | fallFailed => exact hi.congr (by simp) (by simp) (by simp) (by simp)
  case settle | byteNext => exact beginByte_decodeInv _
  case riseReached => exact hi.beforeSample (by rw [hs]; decide) (.inl rfl) (by simp) (by simp) (by simp)
  case bitDelay => exact hi.beforeSample (by rw [hs]; decide) (.inr rfl) (by simp) (by simp) (by simp)
  case bitSample => exact hi.afterSample hs _
  case fallNext hmore => exact hi.afterFall hs hmore
  all_goals exact .of_outside (of_decide_eq_false rfl)

/-- A host access keeps the decode invariant: a START goes to a code before the bits. -/
theorem HostEffect.decodeInv (h : HostEffect s w t) (hi : DecodeInv s) : DecodeInv t := by
  cases h
  case ctrlStart => exact .of_outside (of_decide_eq_false rfl)
  all_goals exact hi.congr rfl rfl rfl rfl

/-! ## The byte commit (41_frame_decoder.md R144, R145) -/

/-- The byte commit stores byte BYTE_IDX and no other. -/
theorem workByte_commitByte (s : State) {j : Nat} (hj : j < 5) :
    workByte j (commitByte s) = if j = s.byteIdx.toNat then storedByte s.abrt s.sh else workByte j s := by
  have hidx (k : BitVec 3) : s.byteIdx = k ↔ k.toNat = s.byteIdx.toNat := by rw [BitVec.toNat_eq, eq_comm]
  interval_cases j <;> simp [workByte, hidx]

/-- The byte commit sets the flag of byte BYTE_IDX where the byte was aborted, and no other. -/
theorem commitByte_flag (s : State) {j : Nat} (hj : j < 5) :
    (commitByte s).wByteTo.getLsbD j =
      if j = s.byteIdx.toNat then s.abrt || s.wByteTo.getLsbD j else s.wByteTo.getLsbD j := by
  by_cases hk : j = s.byteIdx.toNat
  · subst hk
    cases habrt : s.abrt <;> simp [habrt, markByte_getLsbD, hj]
  · cases habrt : s.abrt <;> simp [habrt, markByte_getLsbD, hk]

/-- Before byte 4, ACC gains the byte stored: the sum of the bytes before the next one (R145). -/
theorem sumBelow_commitByte (hle : s.byteIdx ≤ 4#3) (hmore : s.byteIdx ≠ 4#3) :
    sumBelow (s.byteIdx + 1) (commitByte s) = sumBelow s.byteIdx s + storedByte s.abrt s.sh := by
  have hdata : ∀ k : BitVec 3, k ≤ 4#3 → k ≠ 4#3 → k = 0#3 ∨ k = 1#3 ∨ k = 2#3 ∨ k = 3#3 := by decide
  obtain hk | hk | hk | hk := hdata _ hle hmore <;> simp [sumBelow, hk]

/-- Byte 4 is the checksum byte: its commit changes no byte of the sum (R145). -/
theorem sumBelow_commitByte_last (hlast : s.byteIdx = 4#3) :
    sumBelow s.byteIdx (commitByte s) = sumBelow s.byteIdx s := by
  simp [sumBelow, hlast]

/-- After byte 4's commit ACC still is the sum of the four data bytes. -/
theorem commitByte_acc_last (hlast : s.byteIdx = 4#3) (hacc : s.acc = sumBelow s.byteIdx s) :
    (commitByte s).acc = sumBelow s.byteIdx (commitByte s) := by
  rw [sumBelow_commitByte_last hlast, ← hacc, commitByte_acc, hlast, if_neg (by decide)]

/-- Before that, ACC becomes the sum of the data bytes up to the one stored. -/
theorem commitByte_acc_next (hle : s.byteIdx ≤ 4#3) (hmore : s.byteIdx ≠ 4#3) (hacc : s.acc = sumBelow s.byteIdx s) :
    (commitByte s).acc = sumBelow (s.byteIdx + 1) (commitByte s) := by
  rw [sumBelow_commitByte hle hmore, ← hacc, commitByte_acc, if_pos (BitVec.lt_of_le_ne hle hmore)]

/-! ## The results (10_state.md R26, R27, R30; 41_frame_decoder.md R149, R151) -/

theorem sumBelow_congr (h : ∀ j < 5, workByte j t = workByte j s) (k : BitVec 3) : sumBelow k t = sumBelow k s := by
  have h0 : t.w0 = s.w0 := h 0 (by decide)
  have h1 : t.w1 = s.w1 := h 1 (by decide)
  have h2 : t.w2 = s.w2 := h 2 (by decide)
  have h3 : t.w3 = s.w3 := h 3 (by decide)
  simp only [sumBelow, h0, h1, h2, h3]

/-- ACC and the sentinels of a transaction in progress: the part of the result invariant the FSM's work changes. -/
structure WorkInv (s : State) : Prop where
  accSum : s.acc = sumBelow s.byteIdx s
  sentinels : ∀ k < 5, s.wByteTo.getLsbD k = true → workByte k s = sentinel

/-- Two states hold the same bytes in work: W, their flags and ACC. -/
structure SameWork (s t : State) : Prop where
  bytes : ∀ j < 5, workByte j t = workByte j s
  flags : t.wByteTo = s.wByteTo
  acc : t.acc = s.acc

theorem WorkInv.congr (hi : WorkInv s) (hwork : SameWork s t) (hbyte : t.byteIdx = s.byteIdx) : WorkInv t where
  accSum := by rw [hwork.acc, hbyte, sumBelow_congr hwork.bytes]; exact hi.accSum
  sentinels k hk := by rw [hwork.flags, hwork.bytes k hk]; exact hi.sentinels k hk

/-- Only the byte commit changes the bytes in work. -/
theorem FsmEffect.sameWork (h : FsmEffect s c t) (hc : c ≠ Code.sByteEnd) : SameWork s t := by
  cases h
  case byteLast | byteNext => exact absurd rfl hc
  all_goals exact ⟨fun j hj => by interval_cases j <;> rfl, by simp, by simp⟩

/-- BYTE_IDX moves at the byte commit only: the settle delay sets it to the 0 it holds. -/
theorem FsmEffect.byteIdx_eq (h : FsmEffect s c t) (hs : s.fsmState = c) (hi : ControlInv s) (hc : c ≠ Code.sByteEnd) :
    t.byteIdx = s.byteIdx := by
  cases h
  case byteLast | byteNext => exact absurd rfl hc
  case settle => exact (hi.firstByte (by rw [hs]; decide) (by rw [hs]; decide)).symm
  all_goals simp

/-- The byte commit keeps the sentinels: where it sets a flag it stores one, and a clear flag of its own byte stays
clear (R149). -/
theorem commitByte_sentinels (hclear : s.wByteTo.getLsbD s.byteIdx.toNat = false)
    (hold : ∀ k < 5, s.wByteTo.getLsbD k = true → workByte k s = sentinel) :
    ∀ k < 5, (commitByte s).wByteTo.getLsbD k = true → workByte k (commitByte s) = sentinel := by
  intro k hk
  rw [commitByte_flag s hk, workByte_commitByte s hk]
  by_cases hthis : k = s.byteIdx.toNat
  · rw [if_pos hthis, if_pos hthis, hthis, hclear, Bool.or_false]
    exact fun habrt => by rw [habrt]; rfl
  · rw [if_neg hthis, if_neg hthis]
    exact hold k hk

theorem WorkInv.byteLast (hi : WorkInv s) (hclear : s.wByteTo.getLsbD s.byteIdx.toNat = false)
    (hlast : s.byteIdx = 4#3) : WorkInv ((commitByte s).goto Code.sCheck) where
  accSum := commitByte_acc_last hlast hi.accSum
  sentinels := commitByte_sentinels hclear hi.sentinels

theorem WorkInv.byteNext (hi : WorkInv s) (hclear : s.wByteTo.getLsbD s.byteIdx.toNat = false)
    (hle : s.byteIdx ≤ 4#3) (hmore : s.byteIdx ≠ 4#3) :
    WorkInv (beginByte { commitByte s with byteIdx := s.byteIdx + 1 }) where
  accSum := commitByte_acc_next hle hmore hi.accSum
  sentinels := commitByte_sentinels hclear hi.sentinels

/-- The operation of the code in STATE keeps ACC and the sentinels. -/
theorem FsmEffect.workInv (h : FsmEffect s c t) (hs : s.fsmState = c) (hi : ControlInv s) (hwork : WorkInv s) :
    WorkInv t := by
  by_cases hc : c = Code.sByteEnd
  · subst hc
    have hclear := hi.laterClear (by rw [hs]; decide) (by rw [hs]; decide) _ le_rfl
    cases h
    case byteLast hlast => exact hwork.byteLast hclear hlast
    case byteNext hmore => exact hwork.byteNext hclear hi.byteIdxLe hmore
  · exact hwork.congr (h.sameWork hc) (h.byteIdx_eq hs hi hc)

theorem ResultInv.work (hi : ResultInv s) (hbusy : s.fsmState ≠ Code.idle) : WorkInv s :=
  ⟨hi.accSum hbusy, hi.workSentinel hbusy⟩

/-- A step that shows the same results keeps the result invariant where it keeps the work's part and, of DONE and BUSY,
what their clauses ask. -/
theorem ResultInv.of_sameResults (hi : ResultInv s) (hres : SameResults s t)
    (hwork : t.fsmState ≠ Code.idle → WorkInv t) (hdone : s.done = false → t.done = false)
    (hbusy : t.busy = true → t.done = false) : ResultInv t := by
  obtain ⟨hdata, hsum, hcrc, houtcome, hrespTo, hbyteTo, hvalid⟩ := hres
  have hbyte (k : Nat) : committedByte k t = committedByte k s := by simp only [committedByte, hdata, hcrc]
  exact {
    accSum := fun h => (hwork h).accSum
    workSentinel := fun h => (hwork h).sentinels
    sumData := by rw [hsum, hdata]; exact hi.sumData
    outcomeCheck := by rw [houtcome, hsum, hcrc]; exact hi.outcomeCheck
    sentinelHeld := fun k hk => by rw [hbyteTo, hbyte]; exact hi.sentinelHeld k hk
    invalidZero := fun h => by
      obtain ⟨hzero, hzero', hresp, hflags, hnotDone⟩ := hi.invalidZero (hvalid ▸ h)
      exact ⟨hdata.trans hzero, hcrc.trans hzero', hrespTo.trans hresp, hbyteTo.trans hflags, hdone hnotDone⟩
    busyNotDone := hbusy }

/-- Between states that agree on STATE, BUSY, DONE, BYTE_IDX, the bytes in work and the results. -/
theorem ResultInv.congr (hi : ResultInv s) (hres : SameResults s t) (hwork : SameWork s t)
    (hstate : t.fsmState = s.fsmState) (hbyte : t.byteIdx = s.byteIdx) (hbusy : t.busy = s.busy)
    (hdone : s.done = false → t.done = false) : ResultInv t :=
  hi.of_sameResults hres (fun h => (hi.work (hstate ▸ h)).congr hwork hbyte) hdone
    fun h => hdone (hi.busyNotDone (hbusy ▸ h))

/-- DATA, CRC and BYTE_TO after the commit are the bytes in work and their flags (41_frame_decoder.md R146). -/
theorem committedByte_commitResults (s : State) (k : Nat) : committedByte k (commitResults s) = workByte k s := by
  obtain ⟨h0, h1, h2, h3⟩ := byteLane_dataOf s.w0 s.w1 s.w2 s.w3
  rcases k with _ | _ | _ | _ | k
  · exact h0
  · exact h1
  · exact h2
  · exact h3
  · rfl

/-- The commit shows what the work's part says of the five bytes: ACC is the sum of DATA's bytes (R145, R151). -/
theorem commitResults_resultInv (hwork : WorkInv s) (hlast : s.byteIdx = 4#3) : ResultInv (commitResults s) where
  accSum hidle := absurd rfl hidle
  workSentinel hidle := absurd rfl hidle
  sumData := by
    obtain ⟨h0, h1, h2, h3⟩ := byteLane_dataOf s.w0 s.w1 s.w2 s.w3
    rw [commitResults_sum, commitResults_data, h0, h1, h2, h3, hwork.accSum, hlast]
    rfl
  outcomeCheck := rfl
  sentinelHeld k hk hflag := (committedByte_commitResults s k).trans (hwork.sentinels k hk hflag)
  invalidZero hvalid := nomatch hvalid
  busyNotDone hbusy := nomatch hbusy

/-- No FSM operation but the commit changes BUSY. -/
theorem FsmEffect.busy_eq (h : FsmEffect s c t) (hc : c ≠ Code.sCheck) : t.busy = s.busy := by
  cases h
  case check => exact absurd rfl hc
  all_goals simp

/-- The operation of the code in STATE keeps the result invariant. -/
theorem FsmEffect.resultInv (h : FsmEffect s c t) (hs : s.fsmState = c) (hc : ControlInv s) (hi : ResultInv s) :
    ResultInv t := by
  by_cases hidle : c = Code.idle
  · subst hidle
    exact h.eq_of_idle ▸ hi
  have hwork : WorkInv s := hi.work (hs ▸ hidle)
  by_cases hcheck : c = Code.sCheck
  · subst hcheck
    cases h
    exact commitResults_resultInv hwork (hc.lastByte hs)
  · have hdone : t.done = s.done := h.done_cases.resolve_right fun hset => hcheck hset.2
    have hbusy : t.busy = s.busy := h.busy_eq hcheck
    exact hi.of_sameResults (h.sameResults hcheck) (fun _ => h.workInv hs hc hwork) (fun h => hdone.trans h)
      fun h => hdone.trans (hi.busyNotDone (hbusy.symm.trans h))

/-- A START clears ACC and the flags, so the work's part holds before the first byte (42_host_interface.md R171). -/
theorem acceptStart_workInv (s : State) : WorkInv (acceptStart s) where
  accSum := rfl
  sentinels _ _ hflag := absurd hflag (by simp)

/-- A host access keeps the result invariant: it shows the same results, and can only clear DONE. -/
theorem HostEffect.resultInv (h : HostEffect s w t) (hi : ResultInv s) : ResultInv t := by
  have hres := h.sameResults
  cases h
  case ctrlStart => exact hi.of_sameResults hres (fun _ => acceptStart_workInv _) (fun _ => rfl) fun _ => rfl
  case status => exact hi.congr hres ⟨fun _ _ => rfl, rfl, rfl⟩ rfl rfl rfl fun h => by simp [h, w1c]
  all_goals exact hi.congr hres ⟨fun _ _ => rfl, rfl, rfl⟩ rfl rfl rfl id

/-! ## The whole invariant -/

theorem Inv.popMove (hi : Inv s) : Inv s.popMove where
  control := hi.control.popMove
  line := hi.line.congr rfl rfl ⟨Iff.rfl, Iff.rfl⟩
  decode := hi.decode.congr rfl rfl rfl rfl
  result := hi.result.congr ⟨rfl, rfl, rfl, rfl, rfl, rfl, rfl⟩ ⟨fun _ _ => rfl, rfl, rfl⟩ rfl rfl rfl id

theorem resetInput_inv (s : State) : Inv (resetInput s) where
  control := resetInput_controlInv s
  line := reset_lineInv.congr rfl rfl ⟨Iff.rfl, Iff.rfl⟩
  decode := reset_decodeInv.congr rfl rfl rfl rfl
  result := reset_resultInv.congr ⟨rfl, rfl, rfl, rfl, rfl, rfl, rfl⟩ ⟨fun _ _ => rfl, rfl, rfl⟩ rfl rfl rfl id

theorem HostEffect.inv (h : HostEffect s w t) (hi : Inv s) : Inv t :=
  ⟨h.controlInv hi.control, h.lineInv hi.line, h.decodeInv hi.decode, h.resultInv hi.result⟩

theorem FsmEffect.inv (h : FsmEffect s c t) (hs : s.fsmState = c) (hi : Inv s) : Inv t :=
  ⟨h.controlInv hs hi.control, h.lineInv hs hi.line, h.decodeInv hs hi.decode, h.resultInv hs hi.control hi.result⟩

/-- Settles O48, by the effect of the step's one move on each part of the invariant. -/
theorem stepKeepsTheInvariant : Obligations.StepKeepsTheInvariant := by
  intro s t hi hstep
  obtain ⟨_, rfl⟩ | ⟨w, _, _, he⟩ | ⟨_, _, he⟩ | ⟨_, _, hillegal, _⟩ := step_effect hstep
  · exact resetInput_inv _
  · exact he.inv hi.popMove
  · exact he.inv rfl hi.popMove
  · exact absurd hillegal hi.control.legal

end Sys2Proof.Machine
end

section
/-!
PROOFS. What follows from the invariant: no fault from a legal state (41_frame_decoder.md R150), the checksum law
(R151, R152), and a transaction that host accesses leave alone (R131; 42_host_interface.md R187).
-/

namespace Sys2Proof.Machine

variable {s t : State} {w : Haw} {c : FsmCode}

/-- A host access in the middle of a transaction can change IE, DONE, SOVR, BUDGET, the refused mark and the returned
words: the one access that writes more is an accepted START. -/
theorem HostEffect.frame (h : HostEffect s w t) (hbusy : s.fsmState ≠ Code.idle) :
    t = { s with
      ie := t.ie, done := t.done, sovr := t.sovr, budget := t.budget, refusedMark := t.refusedMark,
      responses := t.responses } := by
  cases h
  case ctrlStart hidle => exact absurd hidle hbusy
  all_goals rfl

/-- Settles O36, by `HostEffect.frame` at the state with the move taken. -/
theorem hostAccessLeavesTheTransactionAlone : Obligations.HostAccessLeavesTheTransactionAlone := by
  intro s t w hmove hbusy hstep
  obtain ⟨hreset, _⟩ | ⟨v, _, _, he⟩ | ⟨hfsm, _⟩ | ⟨hfsm, _⟩ := step_effect hstep
  · exact nomatch hmove.symm.trans hreset
  · exact he.frame hbusy
  · exact nomatch hmove.symm.trans hfsm
  · exact nomatch hmove.symm.trans hfsm

/-! ## No fault from a legal state (R150) -/

theorem HostEffect.faultMark_eq (h : HostEffect s w t) : t.faultMark = s.faultMark := by
  cases h <;> simp

theorem FsmEffect.faultMark_eq (h : FsmEffect s c t) : t.faultMark = s.faultMark := by
  cases h <;> simp

/-- Settles O49: each move goes on, a reset clears the fault mark, and the other effects leave it. -/
theorem legalStatesNeverFault : Obligations.LegalStatesNeverFault := by
  intro s hi hmark
  cases hmove : nextMove s with
  | reset => exact ⟨_, step_reset hmove, rfl⟩
  | host w =>
    obtain ⟨t, ht⟩ := hostMove_next w s.popMove
    exact ⟨t, (step_host hmove hmark).trans ht, (hostMove_effect ht).faultMark_eq.trans hmark⟩
  | fsm =>
    obtain ⟨t, ht⟩ := exec_decodeFsm_next (s := s.popMove) hi.legal
    exact ⟨t, (step_fsm hmove hmark).trans (fsmMove_of_next ht), (exec_decodeFsm ht).faultMark_eq.trans hmark⟩

/-! ## The checksum law (R151, R152) -/

theorem checkOutcome_eq_success_iff (acc crc : Byte) : checkOutcome acc crc = .success ↔ acc = crc := by
  by_cases h : acc = crc <;> simp [checkOutcome, h]

/-- In every state of the invariant OUTCOME is the comparison of SUM and CRC, and SUM is the sum of DATA's bytes. -/
theorem ResultInv.checksumLaw (hi : ResultInv s) :
    (s.outcome = .success ↔
      byteLane 0 s.data + byteLane 1 s.data + byteLane 2 s.data + byteLane 3 s.data = byteLane 0 (chkWord s)) ∧
    (s.outcome = .success ↔ byteLane 1 (chkWord s) = byteLane 0 (chkWord s)) := by
  obtain ⟨hcrc, hsum⟩ := byteLane_chkWord s
  rw [hcrc, hsum, ← hi.sumData, hi.outcomeCheck, checkOutcome_eq_success_iff]
  exact ⟨Iff.rfl, Iff.rfl⟩

/-- Settles O51: the commit leaves the result invariant, which holds the law. -/
theorem outcomeIsTheChecksumLaw : Obligations.OutcomeIsTheChecksumLaw := by
  intro s t hi hs hexec
  have he : FsmEffect s Code.sCheck t := exec_decodeFsm hexec
  exact (he.resultInv hs hi.control hi.result).checksumLaw

/-- Five bytes that timed out hold five sentinels, which sum to 0xFC (R149, R152). -/
theorem WorkInv.five_sentinels (hi : WorkInv s) (hlast : s.byteIdx = 4#3) (hflags : s.wByteTo = 0b11111#5) :
    (s.w0 = sentinel ∧ s.w1 = sentinel ∧ s.w2 = sentinel ∧ s.w3 = sentinel ∧ s.w4 = sentinel) ∧ s.acc = 0xFC#8 := by
  have hset : ∀ k < 5, (0b11111#5).getLsbD k = true := by decide
  have hbyte (k : Nat) (hk : k < 5) : workByte k s = sentinel := hi.sentinels k hk (hflags ▸ hset k hk)
  have h0 : s.w0 = sentinel := hbyte 0 (by decide)
  have h1 : s.w1 = sentinel := hbyte 1 (by decide)
  have h2 : s.w2 = sentinel := hbyte 2 (by decide)
  have h3 : s.w3 = sentinel := hbyte 3 (by decide)
  have h4 : s.w4 = sentinel := hbyte 4 (by decide)
  refine ⟨⟨h0, h1, h2, h3, h4⟩, ?_⟩
  rw [hi.accSum, hlast]
  show s.w0 + s.w1 + s.w2 + s.w3 = 0xFC#8
  rw [h0, h1, h2, h3]
  rfl

/-- Settles O52: the commit shows the five sentinels and their sum, which no sentinel equals. -/
theorem fiveSentinelsAreAMismatch : Obligations.FiveSentinelsAreAMismatch := by
  intro s t hi hs hflags hexec
  obtain rfl : commitResults s = t := Host.Outcome.next.inj hexec
  have hwork : WorkInv s := hi.result.work (by rw [hs]; decide)
  obtain ⟨⟨h0, h1, h2, h3, h4⟩, hacc⟩ := hwork.five_sentinels (hi.control.lastByte hs) hflags
  simp [hacc, h0, h1, h2, h3, h4, sentinel, checkOutcome, dataOf]

end Sys2Proof.Machine
end

section
/-!
PROOFS. The FSM's operations (41_frame_decoder.md R131 to R147, R150): each answers its effect, and the step runs the
operation of the code in STATE.
-/

namespace Sys2Proof.Machine

variable {s : State}

/-! ## The step (R131) -/

/-- Where the FSM moves, at the head of the agenda or where it is empty (log 1). -/
theorem nextMove_eq_fsm {rest : List Move} (h : s.agenda = .fsm :: rest ∨ (s.agenda = [] ∧ rest = [])) :
    nextMove s = .fsm ∧ s.popMove = { s with agenda := rest } := by
  obtain h | ⟨h, rfl⟩ := h <;> simp [nextMove, State.popMove, h]

/-- Settles O7: what the machine records of the operation of STATE. -/
theorem stepRunsTheFsmState : Obligations.StepRunsTheFsmState := by
  intro s rest hagenda hmark
  obtain ⟨hmove, hpop⟩ := nextMove_eq_fsm hagenda
  have hstep := step_fsm hmove hmark
  rw [hpop] at hstep
  exact ⟨fun t h => hstep.trans (fsmMove_of_next h), fun f h => hstep.trans (fsmMove_of_fault h)⟩

/-- Settles O32: IDLE has no step of its own (R147, log 14). -/
theorem idleChangesNothing : Obligations.IdleChangesNothing := fun _ => rfl

/-- Settles O33: the illegal code answers the fault, of which the step records the mark (R150, log 9). -/
theorem illegalCodeFaults : Obligations.IllegalCodeFaults := by
  intro s
  refine ⟨rfl, fun hs hmove hmark => ?_⟩
  have hfault : exec (decodeFsm s.popMove.fsmState) s.popMove = .fault .illegalState := by
    rw [popMove_fsmState, hs]
    rfl
  exact (step_fsm hmove hmark).trans (fsmMove_of_fault hfault)

/-! ## The start signal and the release (R132 to R137) -/

/-- Every value T_START_MS keeps is at least 18 (00_scope.md R7). -/
theorem keepStart_ge (v : Byte) : 18 ≤ (Config.keepStart v).toNat := by
  unfold Config.keepStart
  split
  case isTrue h => exact BitVec.le_def.mp h
  case isFalse => decide

/-- Every value T_REL_US keeps is from 20 to 30 (00_scope.md R7). -/
theorem keepRel_bounds (v : Byte) : 20 ≤ (Config.keepRel v).toNat ∧ (Config.keepRel v).toNat ≤ 30 := by
  unfold Config.keepRel
  split
  case isTrue h => exact ⟨BitVec.le_def.mp h.1, BitVec.le_def.mp h.2⟩
  case isFalse => decide

/-- Settles O22: the three operations by their definitions, and the constraint of T_START_MS. -/
theorem startSignalDrivesTheLineLow : Obligations.StartSignalDrivesTheLineLow :=
  fun _ => ⟨rfl, rfl, rfl, keepStart_ge _⟩

/-- Settles O23: the three operations by their definitions, and the constraint of T_REL_US. -/
theorem releaseHandsTheLineOver : Obligations.ReleaseHandsTheLineOver :=
  fun _ => ⟨rfl, rfl, rfl, keepRel_bounds _⟩

/-! ## The waits and the sample (R138 to R143) -/

/-- Settles O25, one case of the effect for each clause. -/
theorem respWaitPollsOrProceeds : Obligations.RespWaitPollsOrProceeds :=
  fun _ => ⟨fun hspent => exec_of_fsmEffect (.respTimedOut hspent),
    fun hleft hl => exec_of_fsmEffect (.respReached hleft hl), fun hleft hl => exec_of_fsmEffect (.respFailed hleft hl)⟩

/-- Settles O26: both operations by their definitions. -/
theorem settleAndBitDelayOnlyDelay : Obligations.SettleAndBitDelayOnlyDelay := fun _ => ⟨rfl, rfl⟩

/-- Settles O27, one case of the effect for each clause. -/
theorem bitRisePollsOrAborts : Obligations.BitRisePollsOrAborts :=
  fun _ => ⟨fun hspent => exec_of_fsmEffect (.riseTimedOut hspent),
    fun hleft hl => exec_of_fsmEffect (.riseReached hleft hl), fun hleft hl => exec_of_fsmEffect (.riseFailed hleft hl)⟩

/-- Settles O28: one read, shifted in, by the operation's definition. -/
theorem bitSampleShiftsOneReadIn : Obligations.BitSampleShiftsOneReadIn := fun _ => exec_of_fsmEffect .bitSample

/-- Settles O29, one case of the effect for each clause. -/
theorem bitFallPollsOrAborts : Obligations.BitFallPollsOrAborts :=
  fun _ => ⟨fun hspent => exec_of_fsmEffect (.fallTimedOut hspent),
    fun hleft hl hlast => exec_of_fsmEffect (.fallLast hleft hl hlast),
    fun hleft hl hmore => exec_of_fsmEffect (.fallNext hleft hl hmore),
    fun hleft hl => exec_of_fsmEffect (.fallFailed hleft hl)⟩

/-! ## The commits (R144, R146) -/

/-- Settles O30: the byte commit's writes are `commitByte`'s, and BYTE_IDX = 4 tells the two ways on apart. -/
theorem byteEndStoresAndAccumulates : Obligations.ByteEndStoresAndAccumulates := by
  intro s _
  have hbytes : ∀ j < 5, _ := fun j => workByte_commitByte s (j := j)
  have hflags : ∀ j < 5, _ := fun j => commitByte_flag s (j := j)
  have hacc : (commitByte s).acc = if s.byteIdx.toNat < 4 then s.acc + storedByte s.abrt s.sh else s.acc := by
    simp [BitVec.lt_def]
  by_cases hlast : s.byteIdx = 4#3
  · have hk : s.byteIdx.toNat = 4 := congrArg BitVec.toNat hlast
    exact ⟨_, exec_of_fsmEffect (.byteLast hlast), hbytes, hflags, hacc, (if_pos hk).symm ▸ rfl⟩
  · have hk : s.byteIdx.toNat ≠ 4 := fun h => hlast (BitVec.eq_of_toNat_eq h)
    exact ⟨_, exec_of_fsmEffect (.byteNext hlast), hbytes, hflags, hacc, (if_neg hk).symm ▸ rfl⟩

/-- Settles O31: the atomic commit by its definition. -/
theorem checkCommitsTheResults : Obligations.CheckCommitsTheResults := fun _ => rfl

/-! ## The order of the bits (R148; 30_encoding.md R84) -/

/-- The number that bits spell after `v`, the first the most significant. -/
def spell (v : Nat) (samples : List Level) : Nat :=
  samples.foldl (fun v l => 2 * v + (if l = .high then 1 else 0)) v

/-- While the number fits a byte, shifting the samples in spells it. -/
theorem foldl_shiftIn_toNat (sh : Byte) (samples : List Level)
    (hfit : (sh.toNat + 1) * 2 ^ samples.length ≤ 256) :
    (samples.foldl shiftIn sh).toNat = spell sh.toNat samples := by
  induction samples generalizing sh with
  | nil => rfl
  | cons l rest ih =>
    rw [List.length_cons, Nat.pow_succ', ← Nat.mul_assoc] at hfit
    have hpos : 1 ≤ 2 ^ rest.length := Nat.one_le_two_pow
    have hbit : (if l = .high then 1 else 0) ≤ 1 := by split <;> omega
    have hbyte : (sh.toNat + 1) * 2 ≤ 256 := (Nat.le_mul_of_pos_right _ hpos).trans hfit
    have hshift : (shiftIn sh l).toNat = 2 * sh.toNat + if l = .high then 1 else 0 := by
      rw [shiftIn_toNat, Nat.mod_eq_of_lt (by omega)]
    have hrest : ((shiftIn sh l).toNat + 1) * 2 ^ rest.length ≤ 256 :=
      (Nat.mul_le_mul_right _ (by omega)).trans hfit
    rw [List.foldl_cons, ih _ hrest, hshift]
    rfl

/-- Settles O56: eight samples into SH = 0 fit a byte. -/
theorem firstSampleIsTheMostSignificantBit : Obligations.FirstSampleIsTheMostSignificantBit := by
  intro samples hlen
  refine foldl_shiftIn_toNat 0#8 samples ?_
  calc (0 + 1) * 2 ^ samples.length ≤ 1 * 2 ^ 8 := Nat.mul_le_mul_left _ (Nat.pow_le_pow_right (by decide) hlen)
    _ = 256 := rfl

end Sys2Proof.Machine
end

section
/-!
PROOFS. The response wait's result (41_frame_decoder.md R153): two runs of the FSM that differ in it stay alike.
-/

namespace Sys2Proof.Machine

variable {s t u : State} {c : FsmCode}

/-! ## The FSM alone, one step and many -/

/-- Where the agenda is empty a step is the FSM's: its effect, or the mark of the illegal code. -/
theorem step_effect_alone (hagenda : s.agenda = []) (hstep : step s = .next t) :
    Alone s ∧ (FsmEffect s s.fsmState t ∨ (s.fsmState = Code.reservedF ∧ t = s.markFault .illegalState)) := by
  match hmark : s.faultMark with
  | none => exact ⟨⟨hagenda, hmark⟩, fsmMove_cases (step_alone hagenda hmark ▸ hstep)⟩
  | some f =>
    have hmove : nextMove s ≠ .reset := by simp [nextMove, hagenda]
    exact nomatch (step_marked hmove hmark).symm.trans hstep

theorem step_of_effect (ha : Alone s) (he : FsmEffect s s.fsmState t) : step s = .next t :=
  step_of_alone ha (exec_of_fsmEffect he)

/-- What each step carries over to a second run, a run of any length does. -/
theorem run_simulates {R : State → State → Prop}
    (hR : ∀ {s u t}, R s u → step s = .next t → ∃ v, step u = .next v ∧ R t v) {n : Nat} (h : R s u)
    (hrun : run n s = .next t) : ∃ v, run n u = .next v ∧ R t v := by
  induction n generalizing s u with
  | zero =>
    obtain rfl := Host.Outcome.next.inj hrun
    exact ⟨u, rfl, h⟩
  | succ n ih =>
    obtain ⟨s', hs, hrun⟩ := run_succ_next hrun
    obtain ⟨u', hu, h'⟩ := hR h hs
    obtain ⟨v, hv, ht⟩ := ih h' hrun
    exact ⟨v, (run_succ n hu).trans hv, ht⟩

/-! ## Runs that differ in W_RESP_TO alone -/

/-- The state with other values of W_RESP_TO and RESP_TO. -/
def State.withResp (b r : Bool) (s : State) : State := { s with wRespTo := b, respTo := r }

/-- An operation has the same effect whatever the two hold: it can set W_RESP_TO and show it, and no more. -/
theorem FsmEffect.withResp (h : FsmEffect s c t) (b r : Bool) :
    ∃ b' r', FsmEffect (s.withResp b r) c (t.withResp b' r') := by
  cases h
  case respTimedOut hspent => exact ⟨true, r, .respTimedOut hspent⟩
  case check => exact ⟨b, b, .check⟩
  all_goals exact ⟨b, r, by constructor <;> assumption⟩

/-- The FSM runs alone in both states, which differ in W_RESP_TO and RESP_TO alone. -/
def DifferInResp (s u : State) : Prop := s.agenda = [] ∧ ∃ b r, u = s.withResp b r

theorem DifferInResp.step (h : DifferInResp s u) (hstep : step s = .next t) :
    ∃ v, step u = .next v ∧ DifferInResp t v := by
  obtain ⟨hagenda, b, r, rfl⟩ := h
  obtain ⟨ha, he | ⟨hs, rfl⟩⟩ := step_effect_alone hagenda hstep
  · obtain ⟨b', r', he'⟩ := he.withResp b r
    exact ⟨_, step_of_effect ha he', (he.alone ha).1, b', r', rfl⟩
  · have hfault : exec (decodeFsm s.fsmState) (s.withResp b r) = .fault .illegalState := by
      show exec (decodeFsm s.fsmState) _ = _
      rw [hs]
      rfl
    have hu : Alone (s.withResp b r) := ha
    exact ⟨_, (step_alone hu.1 hu.2).trans (fsmMove_of_fault hfault), hagenda, b, r, rfl⟩

/-! ## Runs from the settle delay on, after two waits -/

/-- What a response wait leaves behind: its flags, its part of the pin trace, and how the line's answers are held. -/
structure WaitSide where
  wRespTo : Bool
  respTo : Bool
  trace : List Event
  lineIn : List Level
  drawCount : Nat

def WaitSide.of (s : State) : WaitSide := ⟨s.wRespTo, s.respTo, s.trace, s.lineIn, s.drawCount⟩

/-- The state with that left behind. -/
def State.withWaitSide (v : WaitSide) (s : State) : State :=
  { s with
    wRespTo := v.wRespTo, respTo := v.respTo, trace := v.trace, lineIn := v.lineIn, drawCount := v.drawCount }

/-- After the settle delay: in the decode of the frame, or done. -/
abbrev AfterSettle (c : FsmCode) : Prop := c = Code.idle ∨ (Code.sSettle < c ∧ c ≤ Code.sCheck)

theorem FsmEffect.afterSettle (h : FsmEffect s c t) (hs : s.fsmState = c) (hc : AfterSettle c) :
    AfterSettle t.fsmState := by
  cases h
  case dirOut | driveLow | holdLow | driveHigh | holdHigh | dirIn | respTimedOut | respReached | respFailed | settle =>
    exact absurd hc (of_decide_eq_false rfl)
  case idle | riseFailed | fallFailed => exact hs.symm ▸ hc
  all_goals exact of_decide_eq_true rfl

/-- Where the line answers the same, it does so after a read. -/
theorem upcoming_lineRead_congr (h : upcoming u = upcoming s) : upcoming (lineRead u) = upcoming (lineRead s) := by
  funext n
  rw [upcoming_lineRead, upcoming_lineRead, h]

theorem drawn_congr (h : upcoming u = upcoming s) : drawn u = drawn s := by
  rw [drawn_eq_upcoming, drawn_eq_upcoming, h]

/-- An operation after the settle delay leaves the same from a state with another wait side `v`, and `v'` of it. -/
structure Alike (s t : State) (v v' : WaitSide) (c : FsmCode) : Prop where
  effect : FsmEffect (s.withWaitSide v) c (t.withWaitSide v')
  upcoming : upcoming (t.withWaitSide v') = upcoming t
  trace : ∃ events, t.trace = s.trace ++ events ∧ v'.trace = v.trace ++ events
  wRespTo : t.wRespTo = s.wRespTo ∧ v'.wRespTo = v.wRespTo
  respTo : if c = Code.sCheck then t.respTo = s.wRespTo ∧ v'.respTo = v.wRespTo
    else t.respTo = s.respTo ∧ v'.respTo = v.respTo

/-- Operations that record nothing. -/
theorem Alike.of_quiet {v : WaitSide} (hup : Machine.upcoming (s.withWaitSide v) = Machine.upcoming s)
    (he : FsmEffect (s.withWaitSide v) c (t.withWaitSide v)) (hc : c ≠ Code.sCheck)
    (hof : WaitSide.of t = WaitSide.of s := by rfl) : Alike s t v v c := by
  obtain ⟨hw, hr, htrace, hline, hdraws⟩ := WaitSide.mk.inj hof
  exact ⟨he, hup.trans (upcoming_congr hline hdraws).symm, ⟨[], by simp [htrace], by simp⟩, ⟨hw, rfl⟩,
    (if_neg hc).symm ▸ ⟨hr, rfl⟩⟩

/-- Operations that read the line. -/
theorem Alike.of_read {v : WaitSide} (hup : Machine.upcoming (s.withWaitSide v) = Machine.upcoming s)
    (he : FsmEffect (s.withWaitSide v) c (t.withWaitSide (.of (lineRead (s.withWaitSide v))))) (hc : c ≠ Code.sCheck)
    (hof : WaitSide.of t = WaitSide.of (lineRead s) := by rfl) :
    Alike s t v (.of (lineRead (s.withWaitSide v))) c := by
  obtain ⟨hw, hr, htrace, hline, hdraws⟩ := WaitSide.mk.inj hof
  refine ⟨he, (upcoming_lineRead_congr hup).trans (upcoming_congr hline hdraws).symm, ⟨[.read (drawn s)], htrace, ?_⟩,
    ⟨hw, rfl⟩, (if_neg hc).symm ▸ ⟨hr, rfl⟩⟩
  rw [← drawn_congr hup]
  rfl

theorem FsmEffect.alike (h : FsmEffect s c t) (hc : AfterSettle c) (v : WaitSide)
    (hup : upcoming (s.withWaitSide v) = upcoming s) : ∃ v', Alike s t v v' c := by
  have hread := drawn_congr hup
  cases h
  case dirOut | driveLow | holdLow | driveHigh | holdHigh | dirIn | respTimedOut | respReached | respFailed | settle =>
    exact absurd hc (of_decide_eq_false rfl)
  case idle => exact ⟨v, .of_quiet hup .idle (by decide)⟩
  case riseTimedOut hspent => exact ⟨v, .of_quiet hup (.riseTimedOut hspent) (by decide)⟩
  case fallTimedOut hspent => exact ⟨v, .of_quiet hup (.fallTimedOut hspent) (by decide)⟩
  case byteLast hlast => exact ⟨v, .of_quiet hup (.byteLast hlast) (by decide)⟩
  case byteNext hmore => exact ⟨v, .of_quiet hup (.byteNext hmore) (by decide)⟩
  case riseReached hleft hl => exact ⟨_, .of_read hup (.riseReached hleft (hread.trans hl)) (by decide)⟩
  case riseFailed hleft hl => exact ⟨_, .of_read hup (.riseFailed hleft (hread.trans hl)) (by decide)⟩
  case fallLast hleft hl hlast => exact ⟨_, .of_read hup (.fallLast hleft (hread.trans hl) hlast) (by decide)⟩
  case fallNext hleft hl hmore => exact ⟨_, .of_read hup (.fallNext hleft (hread.trans hl) hmore) (by decide)⟩
  case fallFailed hleft hl => exact ⟨_, .of_read hup (.fallFailed hleft (hread.trans hl)) (by decide)⟩
  case bitSample => exact ⟨_, .of_read hup (hread ▸ .bitSample) (by decide)⟩
  case bitDelay =>
    exact ⟨.of (delayUs Config.tBitUs (s.withWaitSide v)), .bitDelay, hup, ⟨_, rfl, rfl⟩, ⟨rfl, rfl⟩, rfl, rfl⟩
  case check => exact ⟨{ v with respTo := v.wRespTo }, .check, hup, ⟨[], by simp, by simp⟩, ⟨rfl, rfl⟩, rfl, rfl⟩

/-- After the settle delay: the second state is the first but for its wait side, which holds the second wait's flag `b`
where the first's is `a`, the same events since the traces `before` and `before'`, and, before the commit, the same
RESP_TO. -/
structure DifferInWait (a b : Bool) (before before' : List Event) (s u : State) (v : WaitSide) : Prop where
  agenda : s.agenda = []
  code : AfterSettle s.fsmState
  eq : u = s.withWaitSide v
  upcoming : upcoming u = upcoming s
  trace : ∃ events, s.trace = before ++ events ∧ v.trace = before' ++ events
  flags : s.wRespTo = a ∧ v.wRespTo = b
  respTo : if s.fsmState = Code.idle then s.respTo = a ∧ v.respTo = b else v.respTo = s.respTo

variable {a b : Bool} {before before' : List Event} {v v' : WaitSide}

/-- RESP_TO is each wait's own from the commit on, and the same before it. -/
theorem DifferInWait.respTo_step (h : DifferInWait a b before before' s u v) (he : FsmEffect s s.fsmState t)
    (hlike : Alike s t v v' s.fsmState) :
    if t.fsmState = Code.idle then t.respTo = a ∧ v'.respTo = b else v'.respTo = t.respTo := by
  have hlike := hlike.respTo
  have hstart := h.respTo
  obtain ⟨ha, hb⟩ := h.flags
  by_cases hcheck : s.fsmState = Code.sCheck
  · rw [if_pos hcheck] at hlike
    have hidle : t.fsmState = Code.idle := by
      rw [hcheck] at he
      cases he
      rfl
    rw [if_pos hidle]
    exact ⟨hlike.1.trans ha, hlike.2.trans hb⟩
  rw [if_neg hcheck] at hlike
  by_cases hidle : s.fsmState = Code.idle
  · have heq : t = s := by
      rw [hidle] at he
      exact he.eq_of_idle
    rw [if_pos hidle] at hstart
    rw [heq, if_pos hidle]
    exact ⟨hstart.1, hlike.2.trans hstart.2⟩
  · have hbusy : t.fsmState ≠ Code.idle := fun ht => hcheck (he.code_eq_sCheck rfl hidle ht)
    rw [if_neg hidle] at hstart
    rw [if_neg hbusy, hlike.1, hlike.2]
    exact hstart

theorem DifferInWait.step (h : ∃ v, DifferInWait a b before before' s u v) (hstep : step s = .next t) :
    ∃ t', step u = .next t' ∧ ∃ v', DifferInWait a b before before' t t' v' := by
  obtain ⟨v, h⟩ := h
  obtain ⟨ha, he | ⟨hs, _⟩⟩ := step_effect_alone h.agenda hstep
  case inr => exact absurd h.code (by rw [hs]; decide)
  obtain rfl := h.eq
  obtain ⟨v', hlike⟩ := he.alike h.code v h.upcoming
  have hu : Alone (s.withWaitSide v) := ha
  obtain ⟨events, hbefore, hbefore'⟩ := h.trace
  obtain ⟨more, hmore, hmore'⟩ := hlike.trace
  exact ⟨_, step_of_effect hu hlike.effect, v', {
    agenda := (he.alone ha).1
    code := he.afterSettle rfl h.code
    eq := rfl
    upcoming := hlike.upcoming
    trace := ⟨events ++ more, by rw [hmore, hbefore, List.append_assoc], by rw [hmore', hbefore', List.append_assoc]⟩
    flags := ⟨hlike.wRespTo.1.trans h.flags.1, hlike.wRespTo.2.trans h.flags.2⟩
    respTo := h.respTo_step he hlike }⟩

/-- The state after the settle delay (41_frame_decoder.md R139). -/
def settled (s : State) : State := beginByte { delayUs Config.tSettleUs s with byteIdx := 0#3 }

theorem settle_effect (hs : s.fsmState = Code.sSettle) : FsmEffect s s.fsmState (settled s) := by
  rw [hs]
  exact .settle

/-- The settle delay clears CNT, so that from its end on only the wait side differs (R139). -/
theorem settled_differInWait (hagenda : s.agenda = []) (hup : upcoming u = upcoming s) (hr : u.respTo = s.respTo)
    (heq : settled u = (settled s).withWaitSide (.of (settled u))) :
    DifferInWait s.wRespTo u.wRespTo s.trace u.trace (settled s) (settled u) (.of (settled u)) where
  agenda := hagenda
  code := .inr (of_decide_eq_true rfl)
  eq := heq
  upcoming := hup
  trace := ⟨_, rfl, rfl⟩
  flags := ⟨rfl, rfl⟩
  respTo := (if_neg (by decide : Code.sBitRise ≠ Code.idle)).mpr hr

/-- Settles O53: the first part carries `DifferInResp` along the run, the second `DifferInWait` from its second state
on. -/
theorem responseTimeoutChangesItsFlagOnly : Obligations.ResponseTimeoutChangesItsFlagOnly := by
  refine ⟨fun n s t b ha hrun => ?_, fun n s t b trace cnt lineIn drawCount ha hs => ?_⟩
  · have hstart : DifferInResp s (s.withResp b s.respTo) := ⟨ha.1, b, _, rfl⟩
    obtain ⟨u, hu, _, b', r', rfl⟩ := run_simulates DifferInResp.step hstart hrun
    exact ⟨_, hu, rfl⟩
  · intro s' hup hrun
    cases n with
    | zero =>
      obtain rfl := Host.Outcome.next.inj hrun
      have hbusy : s.fsmState ≠ Code.idle := by rw [hs]; decide
      exact ⟨s', rfl, rfl, ⟨[], by simp, by simp [s']⟩, hup, fun h => absurd h (by decide), (if_neg hbusy).mpr rfl⟩
    | succ n =>
      have ha' : Alone s' := ha
      have hfirst : run (n + 1) s = run n (settled s) := run_succ n (step_of_effect ha (settle_effect hs))
      have hfirst' : run (n + 1) s' = run n (settled s') := run_succ n (step_of_effect ha' (settle_effect hs))
      have hstart := settled_differInWait ha.1 hup rfl rfl
      obtain ⟨u, hu, v, h⟩ := run_simulates DifferInWait.step ⟨_, hstart⟩ (hfirst.symm.trans hrun)
      obtain rfl := h.eq
      obtain ⟨_, rfl⟩ := h.flags
      exact ⟨_, hfirst'.trans hu, rfl, h.trace, h.upcoming, fun _ => rfl, h.respTo⟩

end Sys2Proof.Machine
end

section
/-!
PROOFS. The end of a transaction (41_frame_decoder.md R154): what is left of one, counted in steps and in line reads,
gets less with every FSM step.
-/

namespace Sys2Proof.Machine

variable {s t : State} {c : FsmCode} {e : Nat}

/-- The byte a transaction is at: byte 0 up to the settle delay, which clears BYTE_IDX (41_frame_decoder.md R139). -/
def dueByte (s : State) : BitVec 3 :=
  if Code.sDirOut ≤ s.fsmState ∧ s.fsmState ≤ Code.sSettle then 0#3 else s.byteIdx

/-- A transaction that the FSM runs: in a legal code, at one of the five bytes, and committed once in IDLE. -/
structure Underway (s : State) : Prop where
  legal : s.fsmState ≠ Code.reservedF
  dueLe : dueByte s ≤ 4#3
  committed : s.fsmState = Code.idle → s = commitResults s

/-- Outside the byte commit an operation stays at its byte. -/
theorem FsmEffect.dueByte_eq (h : FsmEffect s c t) (hs : s.fsmState = c) (hc : c ≠ Code.sByteEnd) :
    dueByte t = dueByte s := by
  cases h
  case byteLast | byteNext => exact absurd rfl hc
  all_goals simp [dueByte, hs]

theorem dueByte_of_byteEnd (hs : s.fsmState = Code.sByteEnd) : dueByte s = s.byteIdx := by
  simp [dueByte, hs]

theorem FsmEffect.legal (h : FsmEffect s c t) (hs : s.fsmState = c) : t.fsmState ≠ Code.reservedF := by
  cases h
  case idle | respFailed | riseFailed | fallFailed => exact hs ▸ of_decide_eq_true rfl
  all_goals exact of_decide_eq_true rfl

theorem FsmEffect.dueLe (h : FsmEffect s c t) (hs : s.fsmState = c) (hle : dueByte s ≤ 4#3) : dueByte t ≤ 4#3 := by
  by_cases hc : c = Code.sByteEnd
  · subst hc
    rw [dueByte_of_byteEnd hs] at hle
    cases h
    case byteLast => exact hle
    case byteNext hmore => exact (byteIdx_succ _ hle hmore).1
  · rwa [h.dueByte_eq hs hc]

theorem FsmEffect.underway (h : FsmEffect s c t) (hs : s.fsmState = c) (hc : c ≠ Code.idle) (hu : Underway s) :
    Underway t where
  legal := h.legal hs
  dueLe := h.dueLe hs hu.dueLe
  committed hidle := by
    obtain rfl := h.code_eq_sCheck hs hc hidle
    cases h
    rfl

/-! ## What is left to do (R154) -/

/-- Each code by its name (30_encoding.md R90). -/
@[simp] theorem decodeFsm_codes :
    decodeFsm Code.idle = .idle ∧ decodeFsm Code.sDirOut = .sDirOut ∧ decodeFsm Code.sDriveLow = .sDriveLow ∧
    decodeFsm Code.sHoldLow = .sHoldLow ∧ decodeFsm Code.sDriveHigh = .sDriveHigh ∧
    decodeFsm Code.sHoldHigh = .sHoldHigh ∧ decodeFsm Code.sDirIn = .sDirIn ∧
    decodeFsm Code.sRespWait = .sRespWait ∧ decodeFsm Code.sSettle = .sSettle ∧
    decodeFsm Code.sBitRise = .sBitRise ∧ decodeFsm Code.sBitDelay = .sBitDelay ∧
    decodeFsm Code.sBitSample = .sBitSample ∧ decodeFsm Code.sBitFall = .sBitFall ∧
    decodeFsm Code.sByteEnd = .sByteEnd ∧ decodeFsm Code.sCheck = .sCheck :=
  ⟨rfl, rfl, rfl, rfl, rfl, rfl, rfl, rfl, rfl, rfl, rfl, rfl, rfl, rfl, rfl⟩

@[simp] theorem failPoll_fields (s : State) :
    (failPoll s).fsmState = s.fsmState ∧ (failPoll s).budL = s.budL ∧ (failPoll s).bitIdx = s.bitIdx ∧
      (failPoll s).byteIdx = s.byteIdx ∧ (failPoll s).trace = s.trace ++ [.read (drawn s)] :=
  ⟨rfl, rfl, rfl, rfl, rfl⟩

/-- What `bytes` whole bytes and the checksum can cost, a step with a read counting 1 and one without counting `e`:
eight bits of two waits and a sample each, a timeout and the byte commit. -/
def frameWork (e budget bytes : Nat) : Nat := bytes * (8 * (2 * budget + 1 + e) + 2 * e) + e

/-- What `bits` more bits, a timeout, the byte commit and `bytes` more bytes can cost. -/
def laterWork (e budget bits bytes : Nat) : Nat := bits * (2 * budget + 1 + e) + 2 * e + frameWork e budget bytes

/-- The polls left to a wait. -/
def pollsLeft (s : State) : Nat := s.budL.toNat - s.cnt.toNat

/-- The bits of the byte after the one at hand. -/
def bitsLater (s : State) : Nat := 7 - s.bitIdx.toNat

/-- The bytes of the frame after the one at hand. -/
def bytesLater (s : State) : Nat := 4 - (dueByte s).toNat

/-- What is left of a transaction can cost: with `e = 1` in steps, with `e = 0` in line reads. -/
def workLeft (e : Nat) (s : State) : Nat :=
  let budget := s.budL.toNat
  let later := laterWork e budget (bitsLater s) (bytesLater s)
  match decodeFsm s.fsmState with
  | .sDirOut => budget + 8 * e + frameWork e budget 5
  | .sDriveLow => budget + 7 * e + frameWork e budget 5
  | .sHoldLow => budget + 6 * e + frameWork e budget 5
  | .sDriveHigh => budget + 5 * e + frameWork e budget 5
  | .sHoldHigh => budget + 4 * e + frameWork e budget 5
  | .sDirIn => budget + 3 * e + frameWork e budget 5
  | .sRespWait => pollsLeft s + 2 * e + frameWork e budget 5
  | .sSettle => e + frameWork e budget 5
  | .sBitRise => pollsLeft s + e + 1 + budget + later
  | .sBitDelay => e + 1 + budget + later
  | .sBitSample => 1 + budget + later
  | .sBitFall => pollsLeft s + later
  | .sByteEnd => e + frameWork e budget (bytesLater s)
  | .sCheck => e
  | _ => 0

/-- The steps a transaction still takes at least: every wait may time out at once. -/
def stepsLeast (s : State) : Nat :=
  match decodeFsm s.fsmState with
  | .sDirOut => 19
  | .sDriveLow => 18
  | .sHoldLow => 17
  | .sDriveHigh => 16
  | .sHoldHigh => 15
  | .sDirIn => 14
  | .sRespWait => 13
  | .sSettle => 12
  | .sBitRise => 2 * bytesLater s + 3
  | .sBitDelay => 2 * bytesLater s + 5
  | .sBitSample => 2 * bytesLater s + 4
  | .sBitFall => 2 * bytesLater s + 3
  | .sByteEnd => 2 * bytesLater s + 2
  | .sCheck => 1
  | _ => 0

theorem pollsLeft_of_lt (h : s.cnt < s.budL) : pollsLeft s = pollsLeft (failPoll s) + 1 := by
  have hlt := BitVec.lt_def.mp h
  have hsucc := cnt_succ_toNat h
  simp only [pollsLeft, failPoll, lineRead_budL]
  omega

theorem laterWork_ge (e budget bits bytes : Nat) :
    2 * e + frameWork e budget bytes ≤ laterWork e budget bits bytes := by
  rw [laterWork, Nat.add_assoc]
  exact Nat.le_add_left _ _

theorem laterWork_succ (e budget bits bytes : Nat) :
    laterWork e budget (bits + 1) bytes = laterWork e budget bits bytes + (2 * budget + 1 + e) := by
  rw [laterWork, laterWork, Nat.succ_mul]
  omega

/-- One more byte is a bit and what follows it. -/
theorem frameWork_succ (e budget bytes : Nat) :
    frameWork e budget (bytes + 1) = laterWork e budget 7 bytes + (2 * budget + 1 + e) := by
  rw [laterWork, frameWork, frameWork, Nat.succ_mul]
  omega

/-- Before the eighth bit, a bit less follows the next. -/
theorem bitsLater_next : ∀ i : BitVec 3, i ≠ 7#3 → 7 - i.toNat = 7 - (i + 1).toNat + 1 := by
  decide

/-- Before byte 4, a byte less follows the next. -/
theorem bytesLater_next : ∀ k : BitVec 3, k ≤ 4#3 → k ≠ 4#3 → 4 - k.toNat = 4 - (k + 1).toNat + 1 := by
  decide

@[simp] theorem readCount_append (a b : List Event) : readCount (a ++ b) = readCount a + readCount b := by
  simp [readCount]

/-- Every FSM step outside IDLE leaves less to do, by 1 if it reads the line and by `e` if it does not. -/
theorem FsmEffect.workLeft (h : FsmEffect s c t) (hs : s.fsmState = c) (hc : c ≠ Code.idle) (hu : Underway s) :
    (readCount t.trace = readCount s.trace ∧ ∀ e, Machine.workLeft e t + e ≤ Machine.workLeft e s) ∨
    (readCount t.trace = readCount s.trace + 1 ∧ ∀ e, Machine.workLeft e t + 1 ≤ Machine.workLeft e s) := by
  cases h
  case idle => exact absurd rfl hc
  case dirOut | driveLow | holdLow | driveHigh | holdHigh | dirIn | respTimedOut | settle | bitDelay =>
    refine .inl ⟨by simp [readCount], fun e => ?_⟩
    simp [Machine.workLeft, hs, pollsLeft, bitsLater, bytesLater, dueByte, frameWork_succ]
    omega
  case riseTimedOut | fallTimedOut =>
    refine .inl ⟨by simp [readCount], fun e => ?_⟩
    have hlater := laterWork_ge e s.budL.toNat (bitsLater s) (bytesLater s)
    simp [Machine.workLeft, hs, bytesLater, dueByte] at hlater ⊢
    omega
  case respReached hleft _ | riseReached hleft _ =>
    refine .inr ⟨by simp [readCount], fun e => ?_⟩
    have hpolls := pollsLeft_of_lt hleft
    simp [Machine.workLeft, hs, bitsLater, bytesLater, dueByte]
    omega
  case bitSample =>
    refine .inr ⟨by simp [readCount], fun e => ?_⟩
    simp [Machine.workLeft, hs, pollsLeft, bitsLater, bytesLater, dueByte]
  case fallLast hleft _ _ =>
    refine .inr ⟨by simp [readCount], fun e => ?_⟩
    have hpolls := pollsLeft_of_lt hleft
    have hlater := laterWork_ge e s.budL.toNat (bitsLater s) (bytesLater s)
    simp [Machine.workLeft, hs, bytesLater, dueByte] at hlater ⊢
    omega
  case fallNext hleft _ hmore =>
    refine .inr ⟨by simp [readCount], fun e => ?_⟩
    have hlt : s.cnt.toNat < s.budL.toNat := hleft
    simp [Machine.workLeft, hs, pollsLeft, bitsLater, bitsLater_next _ hmore, bytesLater, dueByte, laterWork_succ]
    omega
  case respFailed hleft _ | riseFailed hleft _ | fallFailed hleft _ =>
    refine .inr ⟨by simp [readCount], fun e => ?_⟩
    have hpolls := pollsLeft_of_lt hleft
    show Machine.workLeft e (failPoll s) + 1 ≤ _
    simp [Machine.workLeft, hs, bitsLater, bytesLater, dueByte]
    omega
  case byteLast =>
    refine .inl ⟨by simp [readCount], fun e => ?_⟩
    simp [Machine.workLeft, hs, frameWork]
  case byteNext hmore =>
    have hle : s.byteIdx ≤ 4#3 := dueByte_of_byteEnd hs ▸ hu.dueLe
    refine .inl ⟨by simp [readCount], fun e => ?_⟩
    simp [Machine.workLeft, hs, pollsLeft, bitsLater, bytesLater, dueByte, bytesLater_next _ hle hmore, frameWork_succ]
    omega
  case check =>
    refine .inl ⟨by simp [readCount], fun e => ?_⟩
    simp [Machine.workLeft, hs]

/-- No FSM step brings the end nearer by more than one of the steps still to take at least. -/
theorem FsmEffect.stepsLeast_le (h : FsmEffect s c t) (hs : s.fsmState = c) (hu : Underway s) :
    stepsLeast s ≤ stepsLeast t + 1 := by
  cases h
  case byteLast hlast => simp [stepsLeast, hs, bytesLater, dueByte, hlast]
  case byteNext hmore =>
    have hle : s.byteIdx ≤ 4#3 := dueByte_of_byteEnd hs ▸ hu.dueLe
    simp [stepsLeast, hs, bytesLater, dueByte, bytesLater_next _ hle hmore]
    omega
  all_goals simp [stepsLeast, hs, bytesLater, dueByte]

theorem stepsLeast_idle (hs : s.fsmState = Code.idle) : stepsLeast s = 0 := by
  simp [stepsLeast, hs]

/-! ## The end of a transaction -/

/-- The FSM alone goes from `s` to IDLE, first at `t`, in `n` steps. -/
structure Completes (n : Nat) (s t : State) : Prop where
  run : run n s = .next t
  busy : ∀ j < n, ∃ u, Machine.run j s = .next u ∧ u.fsmState ≠ Code.idle
  idle : t.fsmState = Code.idle
  committed : t = commitResults t

theorem Completes.of_idle (hidle : s.fsmState = Code.idle) (hu : Underway s) : Completes 0 s s :=
  ⟨rfl, fun _ hj => absurd hj (Nat.not_lt_zero _), hidle, hu.committed hidle⟩

theorem Completes.of_effect {n : Nat} {u : State} (ha : Alone s) (hbusy : s.fsmState ≠ Code.idle)
    (he : FsmEffect s s.fsmState u) (h : Completes n u t) : Completes (n + 1) s t where
  run := run_succ_of_effect ha rfl he fun _ => h.run
  busy j hj := by
    cases j with
    | zero => exact ⟨s, rfl, hbusy⟩
    | succ j =>
      obtain ⟨v, hv, hvbusy⟩ := h.busy j (Nat.lt_of_succ_lt_succ hj)
      exact ⟨v, run_succ_of_effect ha rfl he fun _ => hv, hvbusy⟩
  idle := h.idle
  committed := h.committed

/-- Outside IDLE the FSM goes on, and has less to do. -/
theorem Underway.idle_or_step (hu : Underway s) :
    s.fsmState = Code.idle ∨
      (s.fsmState ≠ Code.idle ∧ ∃ u, FsmEffect s s.fsmState u ∧ workLeft 1 u + 1 ≤ workLeft 1 s) := by
  refine (em _).imp_right fun hbusy => ⟨hbusy, ?_⟩
  obtain ⟨u, hu'⟩ := exec_decodeFsm_next (s := s) hu.legal
  have he := exec_decodeFsm hu'
  obtain ⟨_, hless⟩ | ⟨_, hless⟩ := he.workLeft rfl hbusy hu
  · exact ⟨u, he, hless 1⟩
  · exact ⟨u, he, hless 1⟩

/-- A transaction the FSM runs alone completes within the steps left to it, and what every operation keeps holds at its
end: by induction on those steps. -/
theorem Underway.completes {I : State → Prop} (hu : Underway s) (ha : Alone s) (hI : I s)
    (hkeep : ∀ {s t}, Underway s → s.fsmState ≠ Code.idle → FsmEffect s s.fsmState t → I s → I t) :
    ∃ n t, Completes n s t ∧ stepsLeast s ≤ n ∧ n ≤ workLeft 1 s ∧ I t := by
  induction hm : workLeft 1 s using Nat.strongRecOn generalizing s with
  | ind m ih =>
    obtain hidle | ⟨hbusy, u, he, hless⟩ := hu.idle_or_step
    · exact ⟨0, s, .of_idle hidle hu, (stepsLeast_idle hidle).le, Nat.zero_le _, hI⟩
    · obtain ⟨n, t, hc, hleast, hmost, hIt⟩ :=
        ih _ (by omega) (he.underway rfl hbusy hu) (he.alone ha) (hkeep hu hbusy he hI) rfl
      have hstep := he.stepsLeast_le rfl hu
      exact ⟨n + 1, t, hc.of_effect ha hbusy he, by omega, by omega, hIt⟩

/-- The FSM underway from S_DIR_OUT on, whatever the registers hold. -/
theorem underway_dirOut (hs : s.fsmState = Code.sDirOut) : Underway s where
  legal := by rw [hs]; decide
  dueLe := by simp [dueByte, hs]
  committed hidle := absurd (hs.symm.trans hidle) (by decide)

/-- What a commit shows (R146), of a state that it leaves. -/
theorem committed_fields (h : s = commitResults s) :
    (s.busy = false ∧ s.done = true ∧ s.valid = true) ∧ s.data = dataOf s.w0 s.w1 s.w2 s.w3 ∧ s.sum = s.acc ∧
      s.crc = s.w4 ∧ s.outcome = checkOutcome s.sum s.crc ∧ s.respTo = s.wRespTo ∧ s.byteTo = s.wByteTo := by
  rw [h]
  exact ⟨⟨rfl, rfl, rfl⟩, rfl, rfl, rfl, rfl, rfl, rfl⟩

/-- The reads made since `s₀` and those left to make stay within what `s₀` had left; the pin trace grows. -/
def ReadsWithin (s₀ s : State) : Prop :=
  s₀.trace <+: s.trace ∧ readCount s.trace + workLeft 0 s ≤ readCount s₀.trace + workLeft 0 s₀

theorem ReadsWithin.step {s₀ : State} (hu : Underway s) (hbusy : s.fsmState ≠ Code.idle)
    (he : FsmEffect s s.fsmState t) (h : ReadsWithin s₀ s) : ReadsWithin s₀ t := by
  obtain ⟨hgrown, hreads⟩ := h
  refine ⟨hgrown.trans he.trace_grows, ?_⟩
  obtain ⟨hcount, hless⟩ | ⟨hcount, hless⟩ := he.workLeft rfl hbusy hu
  · have hleft := hless 0
    omega
  · have hleft := hless 0
    omega

/-- Settles O58: from S_DIR_OUT on 81·B + 99 steps and 81·B + 40 reads are left, and 19 steps are still to take. -/
theorem everyTransactionEndsInBound : Obligations.EveryTransactionEndsInBound := by
  intro s ha hs
  have hsteps : workLeft 1 s = 81 * s.budL.toNat + 99 := by
    simp [workLeft, hs, frameWork]
    omega
  have hreads : workLeft 0 s = 81 * s.budL.toNat + 40 := by
    simp [workLeft, hs, frameWork]
    omega
  have hleast : stepsLeast s = 19 := by simp [stepsLeast, hs]
  have hstart : ReadsWithin s s := ⟨⟨[], List.append_nil _⟩, le_rfl⟩
  obtain ⟨n, t, ⟨hrun, hbusy, hidle, hcommitted⟩, hfrom, hto, ⟨events, htrace⟩, hcount⟩ :=
    (underway_dirOut hs).completes ha hstart ReadsWithin.step
  rw [← htrace, readCount_append] at hcount
  obtain ⟨⟨_, hdone, hvalid⟩, _⟩ := committed_fields hcommitted
  exact ⟨n, t, events, hleast ▸ hfrom, hsteps ▸ hto, hrun, hbusy, hidle, hdone, hvalid, htrace.symm, by omega⟩

end Sys2Proof.Machine
end

section
/-!
PROOFS. A transaction run by the FSM is the procedure of 41_frame_decoder.md R130: what is left of the procedure from
any state of the FSM, and that every operation of the FSM does the first part of it.
-/

namespace Sys2Proof.Machine

variable {s t : State} {c : FsmCode} {line : Nat → Level} {pos : Nat} {target l : Level}

/-! ## Where the line stands -/

/-- The next answer is answer `pos` of the line. -/
def At (line : Nat → Level) (pos : Nat) (s : State) : Prop := ∀ k, upcoming s k = line (pos + k)

theorem At.drawn_eq (h : At line pos s) : line pos = drawn s := by
  rw [drawn_eq_upcoming, h 0, Nat.add_zero]

theorem At.lineRead (h : At line pos s) : At line (pos + 1) (lineRead s) := fun k => by
  rw [upcoming_lineRead, h (k + 1), Nat.add_assoc, Nat.add_comm 1 k]

/-! ## What is left of a wait -/

/-- What is left of a wait: `wait_for_level` with the polls left to it. -/
def waitLeft (target : Level) (line : Nat → Level) (pos : Nat) (s : State) : WaitResult :=
  waitForLevel target (pollsLeft s) fun n => line (pos + n)

theorem waitLeft_timedOut (hspent : s.budL ≤ s.cnt) : waitLeft target line pos s = ⟨false, []⟩ := by
  have hnone : pollsLeft s = 0 := Nat.sub_eq_zero_of_le (BitVec.le_def.mp hspent)
  rw [waitLeft, hnone]
  rfl

theorem waitLeft_reached (hat : At line pos s) (hleft : s.cnt < s.budL) (hl : drawn s = target) :
    waitLeft target line pos s = ⟨true, [target]⟩ := by
  have hfirst : line (pos + 0) = target := hat.drawn_eq.trans hl
  rw [waitLeft, pollsLeft_of_lt hleft, waitForLevel_succ_of_eq hfirst, hfirst]

theorem waitLeft_failed (hat : At line pos s) (hleft : s.cnt < s.budL) (hl : drawn s = l) (hne : l ≠ target) :
    waitLeft target line pos s =
      ⟨(waitLeft target line (pos + 1) (failPoll s)).reached,
        l :: (waitLeft target line (pos + 1) (failPoll s)).seen⟩ := by
  have hfirst : line (pos + 0) = l := hat.drawn_eq.trans hl
  have hnext : (fun n => line (pos + (n + 1))) = fun n => line (pos + 1 + n) :=
    funext fun n => by rw [Nat.add_assoc, Nat.add_comm n 1]
  rw [waitLeft, pollsLeft_of_lt hleft, waitForLevel_succ_of_ne (hfirst.trans_ne hne), hfirst, hnext]
  rfl

/-- On entry to a wait the whole budget is left. -/
theorem waitLeft_of_entry (hcnt : s.cnt = 0#32) :
    waitLeft target line pos s = waitForLevel target s.budL.toNat fun n => line (pos + n) := by
  simp [waitLeft, pollsLeft, hcnt]

/-! ## What is left of a byte -/

/-- The same result after some events. -/
def BitsResult.after (events : List Event) (r : BitsResult) : BitsResult := { r with events := events ++ r.events }

/-- What follows a wait of the byte with result `r`: a timeout ends the byte, else the bit goes on by `go`. -/
def afterWait (r : WaitResult) (pos : Nat) (sh : Byte) (go : Nat → BitsResult) : BitsResult :=
  if r.reached then (go (pos + r.seen.length)).after r.events else ⟨sh, true, pos + r.seen.length, r.events⟩

variable {sh : Byte} {go : Nat → BitsResult}

theorem afterWait_timedOut : afterWait ⟨false, []⟩ pos sh go = ⟨sh, true, pos, []⟩ := rfl

theorem afterWait_reached : afterWait ⟨true, [l]⟩ pos sh go = (go (pos + 1)).after [.read l] := rfl

/-- One more failed poll before the end of the wait. -/
theorem afterWait_failed (r : WaitResult) :
    afterWait ⟨r.reached, l :: r.seen⟩ pos sh go = (afterWait r (pos + 1) sh go).after [.read l] := by
  have hlen : pos + (r.seen.length + 1) = pos + 1 + r.seen.length := Nat.add_right_comm pos _ 1
  cases hr : r.reached <;> simp [afterWait, hr, hlen, BitsResult.after, WaitResult.events]

/-- A bit from its sample on, with `bits` bits after it. -/
def sampleLeft (budget : Nat) (line : Nat → Level) (bits pos : Nat) (sh : Byte) : BitsResult :=
  (afterWait (waitForLevel .low budget fun n => line (pos + 1 + n)) (pos + 1) (shiftIn sh (line pos)) fun pos' =>
    decodeBits budget line bits pos' (shiftIn sh (line pos))).after [.read (line pos)]

/-- A bit from the delay before its sample on. -/
def delayLeft (budget : Nat) (line : Nat → Level) (bits pos : Nat) (sh : Byte) : BitsResult :=
  (sampleLeft budget line bits pos sh).after [.delayUs Config.tBitUs.toNat]

/-- The loop over the bits, one bit at a time. -/
theorem decodeBits_succ (budget bits pos : Nat) (sh : Byte) :
    decodeBits budget line (bits + 1) pos sh =
      afterWait (waitForLevel .high budget fun n => line (pos + n)) pos sh fun pos' =>
        delayLeft budget line bits pos' sh := by
  simp only [decodeBits, delayLeft, sampleLeft, afterWait, BitsResult.after]
  split_ifs <;> simp_all

/-- What is left of the byte at hand; at its end, the byte itself. -/
def bitsLeft (line : Nat → Level) (pos : Nat) (s : State) : BitsResult :=
  match decodeFsm s.fsmState with
  | .sBitRise => afterWait (waitLeft .high line pos s) pos s.sh fun pos' =>
      delayLeft s.budL.toNat line (bitsLater s) pos' s.sh
  | .sBitDelay => delayLeft s.budL.toNat line (bitsLater s) pos s.sh
  | .sBitSample => sampleLeft s.budL.toNat line (bitsLater s) pos s.sh
  | .sBitFall => afterWait (waitLeft .low line pos s) pos s.sh fun pos' =>
      decodeBits s.budL.toNat line (bitsLater s) pos' s.sh
  | _ => ⟨s.sh, s.abrt, pos, []⟩

theorem bitsLeft_rise (hs : s.fsmState = Code.sBitRise) :
    bitsLeft line pos s = afterWait (waitLeft .high line pos s) pos s.sh fun pos' =>
      delayLeft s.budL.toNat line (bitsLater s) pos' s.sh := by
  rw [bitsLeft, hs]
  rfl

theorem bitsLeft_delay (hs : s.fsmState = Code.sBitDelay) :
    bitsLeft line pos s = delayLeft s.budL.toNat line (bitsLater s) pos s.sh := by
  rw [bitsLeft, hs]
  rfl

theorem bitsLeft_sample (hs : s.fsmState = Code.sBitSample) :
    bitsLeft line pos s = sampleLeft s.budL.toNat line (bitsLater s) pos s.sh := by
  rw [bitsLeft, hs]
  rfl

theorem bitsLeft_fall (hs : s.fsmState = Code.sBitFall) :
    bitsLeft line pos s = afterWait (waitLeft .low line pos s) pos s.sh fun pos' =>
      decodeBits s.budL.toNat line (bitsLater s) pos' s.sh := by
  rw [bitsLeft, hs]
  rfl

theorem bitsLeft_byteEnd (hs : s.fsmState = Code.sByteEnd) : bitsLeft line pos s = ⟨s.sh, s.abrt, pos, []⟩ := by
  rw [bitsLeft, hs]
  rfl

/-- At a bit's rise the bits of the byte from it on are left. -/
theorem bitsLeft_of_entry (hs : s.fsmState = Code.sBitRise) (hcnt : s.cnt = 0#32) :
    bitsLeft line pos s = decodeBits s.budL.toNat line (bitsLater s + 1) pos s.sh := by
  rw [bitsLeft_rise hs, waitLeft_of_entry hcnt, decodeBits_succ]

/-- The operation of a bit's code does the first part of what is left of the byte. -/
structure DoesBits (line : Nat → Level) (pos : Nat) (s t : State) (pos' : Nat) (events : List Event) : Prop where
  at' : At line pos' t
  trace : t.trace = s.trace ++ events
  left : bitsLeft line pos s = (bitsLeft line pos' t).after events

/-- The four codes of a bit. -/
abbrev InBit (c : FsmCode) : Prop := Code.sBitRise ≤ c ∧ c ≤ Code.sBitFall

theorem FsmEffect.doesBits (h : FsmEffect s c t) (hs : s.fsmState = c) (hc : InBit c) (hat : At line pos s)
    (habrt : s.abrt = false) : ∃ pos' events, DoesBits line pos s t pos' events := by
  cases h
  case idle | dirOut | driveLow | holdLow | driveHigh | holdHigh | dirIn | respTimedOut | respReached | respFailed |
      settle | byteLast | byteNext | check =>
    exact absurd hc (of_decide_eq_false rfl)
  case riseTimedOut hspent =>
    refine ⟨pos, [], hat, (List.append_nil _).symm, ?_⟩
    rw [bitsLeft_rise hs, waitLeft_timedOut hspent, afterWait_timedOut]
    rfl
  case riseReached hleft hl =>
    refine ⟨pos + 1, [.read .high], hat.lineRead, by simp [hl], ?_⟩
    rw [bitsLeft_rise hs, waitLeft_reached hat hleft hl, afterWait_reached]
    rfl
  case riseFailed hleft hl =>
    refine ⟨pos + 1, [.read .low], hat.lineRead, by simp [hl], ?_⟩
    rw [bitsLeft_rise hs, waitLeft_failed hat hleft hl (by decide), afterWait_failed]
    exact congrArg _ (bitsLeft_rise (s := failPoll s) hs).symm
  case bitDelay =>
    refine ⟨pos, [.delayUs Config.tBitUs.toNat], hat, rfl, ?_⟩
    rw [bitsLeft_delay hs]
    rfl
  case bitSample =>
    refine ⟨pos + 1, [.read (drawn s)], hat.lineRead, rfl, ?_⟩
    rw [bitsLeft_sample hs, bitsLeft_fall rfl, waitLeft_of_entry rfl, sampleLeft, hat.drawn_eq]
    rfl
  case fallTimedOut hspent =>
    refine ⟨pos, [], hat, (List.append_nil _).symm, ?_⟩
    rw [bitsLeft_fall hs, waitLeft_timedOut hspent, afterWait_timedOut]
    rfl
  case fallLast hleft hl hlast =>
    refine ⟨pos + 1, [.read .low], hat.lineRead, by simp [hl], ?_⟩
    rw [bitsLeft_fall hs, waitLeft_reached hat hleft hl, afterWait_reached, bitsLeft_byteEnd rfl, bitsLater, hlast,
      goto_abrt, lineRead_abrt, habrt]
    rfl
  case fallNext hleft hl hmore =>
    refine ⟨pos + 1, [.read .low], hat.lineRead, by simp [hl], ?_⟩
    rw [bitsLeft_fall hs, waitLeft_reached hat hleft hl, afterWait_reached, bitsLater, bitsLater_next _ hmore,
      bitsLeft_of_entry rfl rfl]
    rfl
  case fallFailed hleft hl =>
    refine ⟨pos + 1, [.read .high], hat.lineRead, by simp [hl], ?_⟩
    rw [bitsLeft_fall hs, waitLeft_failed hat hleft hl (by decide), afterWait_failed]
    exact congrArg _ (bitsLeft_fall (s := failPoll s) hs).symm

/-! ## What is left of a transaction -/

/-- The first `n` bytes in work, each with its flag. -/
def workBytes (n : Nat) (s : State) : List (Byte × Bool) :=
  (List.range n).map fun k => (workByte k s, s.wByteTo.getLsbD k)

theorem workBytes_congr {n : Nat} (hn : n ≤ 5) (h : SameWork s t) : workBytes n t = workBytes n s :=
  List.map_congr_left fun k hk => by rw [h.bytes k ((List.mem_range.mp hk).trans_le hn), h.flags]

/-- The byte commit adds a byte to those in work, whose flag was clear before it (R144). -/
theorem workBytes_commitByte (hle : s.byteIdx ≤ 4#3) (hclear : s.wByteTo.getLsbD s.byteIdx.toNat = false) :
    workBytes (s.byteIdx.toNat + 1) (commitByte s) =
      workBytes s.byteIdx.toNat s ++ [(storedByte s.abrt s.sh, s.abrt)] := by
  have hk : s.byteIdx.toNat < 5 := Nat.lt_succ_of_le (BitVec.le_def.mp hle)
  have hbefore : workBytes s.byteIdx.toNat (commitByte s) = workBytes s.byteIdx.toNat s :=
    List.map_congr_left fun k hlt => by
      have hne : k ≠ s.byteIdx.toNat := (List.mem_range.mp hlt).ne
      have hk5 : k < 5 := (List.mem_range.mp hlt).trans hk
      rw [workByte_commitByte s hk5, commitByte_flag s hk5, if_neg hne, if_neg hne]
  rw [workBytes, List.range_succ, List.map_append, List.map_singleton, ← workBytes, hbefore,
    workByte_commitByte s hk, commitByte_flag s hk, if_pos rfl, if_pos rfl, hclear, Bool.or_false]

/-- The same result after some events. -/
def TransactionResult.after (events : List Event) (r : TransactionResult) : TransactionResult :=
  { r with events := events ++ r.events }

theorem TransactionResult.after_after (a b : List Event) (r : TransactionResult) :
    (r.after b).after a = r.after (a ++ b) := by
  simp [after]

/-- What is left at the start of a byte, with `bytes` bytes left and `work` those in work. -/
def frameLeft (budget : Nat) (line : Nat → Level) (bytes pos : Nat) (respTo : Bool) (work : List (Byte × Bool)) :
    TransactionResult :=
  let r := decodeFrame budget line bytes pos
  ⟨respTo, work ++ r.bytes, r.next, r.events⟩

theorem frameLeft_zero (budget : Nat) (respTo : Bool) (work : List (Byte × Bool)) :
    frameLeft budget line 0 pos respTo work = ⟨respTo, work, pos, []⟩ := by
  simp [frameLeft, decodeFrame]

/-- The loop over the bytes, one byte at a time. -/
theorem frameLeft_succ (budget bytes : Nat) (respTo : Bool) (work : List (Byte × Bool)) :
    frameLeft budget line (bytes + 1) pos respTo work =
      let b := decodeBits budget line 8 pos 0#8
      (frameLeft budget line bytes b.next respTo (work ++ [(storedByte b.abrt b.sh, b.abrt)])).after b.events := by
  simp [frameLeft, decodeFrame, TransactionResult.after]

/-- What is left where the byte at hand decodes to `b`. -/
def byteLeft (line : Nat → Level) (s : State) (b : BitsResult) : TransactionResult :=
  (frameLeft s.budL.toNat line (bytesLater s) b.next s.wRespTo
    (workBytes (dueByte s).toNat s ++ [(storedByte b.abrt b.sh, b.abrt)])).after b.events

/-- What is left from the settle delay on. -/
def settleLeft (budget : Nat) (line : Nat → Level) (pos : Nat) (respTo : Bool) : TransactionResult :=
  (frameLeft budget line 5 pos respTo []).after [.delayUs Config.tSettleUs.toNat]

/-- What is left from the response wait on, whose result is `r`. -/
def respLeft (budget : Nat) (line : Nat → Level) (pos : Nat) (respTo : Bool) (r : WaitResult) : TransactionResult :=
  (settleLeft budget line (pos + r.seen.length) (respTo || !r.reached)).after r.events

/-- The events of the start signal and release (R132 to R137). -/
def startEvents : List Event :=
  [.dir .output, .lvl .low, .delayMs Config.tStartMs.toNat, .lvl .high, .delayUs Config.tRelUs.toNat, .dir .input]

/-- What is left after the first `n` of those. -/
def startLeft (n : Nat) (line : Nat → Level) (pos : Nat) (s : State) : TransactionResult :=
  (respLeft s.budL.toNat line pos s.wRespTo (waitForLevel .high s.budL.toNat fun k => line (pos + k))).after
    (startEvents.drop n)

/-- What is left of the procedure of R130 where the FSM stands; after the last byte, the bytes in work. -/
def transactionLeft (line : Nat → Level) (pos : Nat) (s : State) : TransactionResult :=
  match decodeFsm s.fsmState with
  | .sDirOut => startLeft 0 line pos s
  | .sDriveLow => startLeft 1 line pos s
  | .sHoldLow => startLeft 2 line pos s
  | .sDriveHigh => startLeft 3 line pos s
  | .sHoldHigh => startLeft 4 line pos s
  | .sDirIn => startLeft 5 line pos s
  | .sRespWait => respLeft s.budL.toNat line pos s.wRespTo (waitLeft .high line pos s)
  | .sSettle => settleLeft s.budL.toNat line pos s.wRespTo
  | .sCheck => ⟨s.wRespTo, workBytes 5 s, pos, []⟩
  | .idle => ⟨s.wRespTo, workBytes 5 s, pos, []⟩
  | _ => byteLeft line s (bitsLeft line pos s)

theorem transactionLeft_resp (hs : s.fsmState = Code.sRespWait) :
    transactionLeft line pos s = respLeft s.budL.toNat line pos s.wRespTo (waitLeft .high line pos s) := by
  rw [transactionLeft, hs]
  rfl

theorem transactionLeft_byte (hs : Code.sBitRise ≤ s.fsmState ∧ s.fsmState ≤ Code.sByteEnd) :
    transactionLeft line pos s = byteLeft line s (bitsLeft line pos s) := by
  have hcodes : ∀ c : FsmCode, Code.sBitRise ≤ c ∧ c ≤ Code.sByteEnd → c = Code.sBitRise ∨ c = Code.sBitDelay ∨
      c = Code.sBitSample ∨ c = Code.sBitFall ∨ c = Code.sByteEnd := by decide
  obtain h | h | h | h | h := hcodes _ hs <;> rw [transactionLeft, h] <;> rfl

theorem transactionLeft_settle (hs : s.fsmState = Code.sSettle) :
    transactionLeft line pos s = settleLeft s.budL.toNat line pos s.wRespTo := by
  rw [transactionLeft, hs]
  rfl

/-- After the last byte nothing is left (R144, R146). -/
theorem transactionLeft_end (hs : s.fsmState = Code.sCheck ∨ s.fsmState = Code.idle) :
    transactionLeft line pos s = ⟨s.wRespTo, workBytes 5 s, pos, []⟩ := by
  obtain hs | hs := hs <;> rw [transactionLeft, hs] <;> rfl

theorem respLeft_failed (budget : Nat) (respTo : Bool) (r : WaitResult) :
    respLeft budget line pos respTo ⟨r.reached, l :: r.seen⟩ =
      (respLeft budget line (pos + 1) respTo r).after [.read l] := by
  have hlen : pos + (r.seen.length + 1) = pos + 1 + r.seen.length := Nat.add_right_comm pos _ 1
  rw [respLeft, respLeft, TransactionResult.after_after, List.length_cons, hlen]
  rfl

/-- At the start of a byte the bytes from it on are left. -/
theorem transactionLeft_beginByte (line : Nat → Level) (pos : Nat) (s : State) :
    transactionLeft line pos (beginByte s) =
      frameLeft s.budL.toNat line (4 - s.byteIdx.toNat + 1) pos s.wRespTo (workBytes s.byteIdx.toNat s) := by
  rw [transactionLeft_byte (of_decide_eq_true rfl), bitsLeft_of_entry rfl rfl, byteLeft, frameLeft_succ]
  rfl

/-- An operation of the FSM does the first part of what is left of the transaction. -/
structure DoesPart (line : Nat → Level) (pos : Nat) (s t : State) (pos' : Nat) (events : List Event) : Prop where
  at' : At line pos' t
  trace : t.trace = s.trace ++ events
  left : transactionLeft line pos s = (transactionLeft line pos' t).after events

/-- Up to the response wait (R132 to R138). -/
theorem FsmEffect.doesStart (h : FsmEffect s c t) (hs : s.fsmState = c) (hidle : c ≠ Code.idle)
    (hc : c ≤ Code.sSettle) (hat : At line pos s) : ∃ pos' events, DoesPart line pos s t pos' events := by
  cases h
  case riseTimedOut | riseReached | riseFailed | bitDelay | bitSample | fallTimedOut | fallLast | fallNext |
      fallFailed | byteLast | byteNext | check =>
    exact absurd hc (of_decide_eq_false rfl)
  case idle => exact absurd rfl hidle
  case dirOut | driveLow | holdLow | driveHigh | holdHigh =>
    refine ⟨pos, [_], hat, rfl, ?_⟩
    simp [transactionLeft, hs, startLeft, startEvents, TransactionResult.after]
  case dirIn =>
    refine ⟨pos, [_], hat, rfl, ?_⟩
    simp [transactionLeft, hs, startLeft, startEvents, TransactionResult.after, waitLeft, pollsLeft]
  case respTimedOut hspent =>
    refine ⟨pos, [], hat, (List.append_nil _).symm, ?_⟩
    rw [transactionLeft_resp hs, waitLeft_timedOut hspent, transactionLeft_settle rfl]
    simp [respLeft, WaitResult.events]
  case respReached hleft hl =>
    refine ⟨pos + 1, [.read .high], hat.lineRead, by simp [hl], ?_⟩
    rw [transactionLeft_resp hs, waitLeft_reached hat hleft hl, transactionLeft_settle rfl]
    simp [respLeft, WaitResult.events]
  case respFailed hleft hl =>
    refine ⟨pos + 1, [.read .low], hat.lineRead, by simp [hl], ?_⟩
    rw [transactionLeft_resp hs, waitLeft_failed hat hleft hl (by decide), respLeft_failed]
    exact congrArg _ (transactionLeft_resp (s := failPoll s) hs).symm
  case settle =>
    refine ⟨pos, [_], hat, rfl, ?_⟩
    rw [transactionLeft_settle hs, transactionLeft_beginByte]
    rfl

theorem FsmEffect.budL_eq (h : FsmEffect s c t) : t.budL = s.budL := by
  cases h <;> simp

/-- W_RESP_TO is the response wait's alone (R138). -/
theorem FsmEffect.wRespTo_eq (h : FsmEffect s c t) (hc : c ≠ Code.sRespWait) : t.wRespTo = s.wRespTo := by
  cases h
  case respTimedOut => exact absurd rfl hc
  all_goals simp

/-- Within a bit the FSM stays with the byte, up to its end. -/
theorem FsmEffect.inByte (h : FsmEffect s c t) (hs : s.fsmState = c) (hc : InBit c) :
    Code.sBitRise ≤ t.fsmState ∧ t.fsmState ≤ Code.sByteEnd := by
  cases h
  case idle | dirOut | driveLow | holdLow | driveHigh | holdHigh | dirIn | respTimedOut | respReached | respFailed |
      settle | byteLast | byteNext | check =>
    exact absurd hc (of_decide_eq_false rfl)
  case riseFailed | fallFailed =>
    refine (?_ : Code.sBitRise ≤ s.fsmState ∧ s.fsmState ≤ Code.sByteEnd)
    rw [hs]
    decide
  all_goals exact of_decide_eq_true rfl

theorem byteLeft_after (b : BitsResult) (events : List Event) :
    byteLeft line s (b.after events) = (byteLeft line s b).after events := by
  simp [byteLeft, BitsResult.after, TransactionResult.after]

/-- The bits of a byte (R140 to R143). -/
theorem FsmEffect.doesBit (h : FsmEffect s c t) (hs : s.fsmState = c) (hc : InBit c) (hle : dueByte s ≤ 4#3)
    (hat : At line pos s) (hd : DecodeInv s) : ∃ pos' events, DoesPart line pos s t pos' events := by
  obtain ⟨hfirst, hlast⟩ := hc
  have hend : c ≠ Code.sByteEnd := fun e => absurd (e ▸ hlast) (by decide)
  have hresp : c ≠ Code.sRespWait := fun e => absurd (e ▸ hfirst) (by decide)
  have habrt : s.abrt = false := hd.notAborted (hs ▸ hfirst) (hs ▸ hlast)
  obtain ⟨pos', events, hat', htrace, hleft⟩ := h.doesBits hs ⟨hfirst, hlast⟩ hat habrt
  have hsame : byteLeft line s (bitsLeft line pos' t) = byteLeft line t (bitsLeft line pos' t) := by
    have hdue := h.dueByte_eq hs hend
    have hbytes := workBytes_congr ((BitVec.le_def.mp hle).trans (by decide)) (h.sameWork hend)
    simp only [byteLeft, bytesLater, hdue, h.budL_eq, h.wRespTo_eq hresp, hbytes]
  have hs' : Code.sBitRise ≤ s.fsmState ∧ s.fsmState ≤ Code.sByteEnd := by
    rw [hs]
    exact ⟨hfirst, BitVec.le_trans hlast (by decide)⟩
  refine ⟨pos', events, hat', htrace, ?_⟩
  rw [transactionLeft_byte hs', transactionLeft_byte (h.inByte hs ⟨hfirst, hlast⟩), hleft, byteLeft_after, hsame]

/-- The byte commit (R144): the byte is in work, and the next byte or nothing is left. -/
theorem FsmEffect.doesByteEnd (h : FsmEffect s Code.sByteEnd t) (hs : s.fsmState = Code.sByteEnd)
    (hle : s.byteIdx ≤ 4#3) (hclear : s.wByteTo.getLsbD s.byteIdx.toNat = false) (hat : At line pos s) :
    ∃ pos' events, DoesPart line pos s t pos' events := by
  have hbytes := workBytes_commitByte hle hclear
  have hleft : transactionLeft line pos s =
      frameLeft s.budL.toNat line (4 - s.byteIdx.toNat) pos s.wRespTo
        (workBytes (s.byteIdx.toNat + 1) (commitByte s)) := by
    rw [transactionLeft_byte (by rw [hs]; decide), bitsLeft_byteEnd hs, hbytes, byteLeft, bytesLater,
      dueByte_of_byteEnd hs]
    rfl
  cases h
  case byteLast hlast =>
    refine ⟨pos, [], hat, (List.append_nil _).symm, ?_⟩
    rw [hleft, hlast, transactionLeft_end (.inl rfl)]
    exact frameLeft_zero ..
  case byteNext hmore =>
    refine ⟨pos, [], hat, (List.append_nil _).symm, ?_⟩
    rw [hleft, transactionLeft_beginByte, bytesLater_next _ hle hmore, ← (byteIdx_succ _ hle hmore).2]
    rfl

/-- The commit reads no line and leaves the bytes in work (R146). -/
theorem commitResults_doesPart (hs : s.fsmState = Code.sCheck) (hat : At line pos s) :
    DoesPart line pos s (commitResults s) pos [] where
  at' := hat
  trace := (List.append_nil _).symm
  left := by
    rw [transactionLeft_end (.inl hs), transactionLeft_end (.inr rfl)]
    rfl

/-! ## The bytes gathered -/

/-- The bytes before the one at hand are in work, with their sum in ACC; no flag of another is set. -/
structure Gathered (s : State) : Prop where
  clear : s.fsmState ≠ Code.idle → s.fsmState ≠ Code.sCheck → ∀ k, (dueByte s).toNat ≤ k → s.wByteTo.getLsbD k = false
  acc : s.acc = sumBelow (dueByte s) s
  last : s.fsmState = Code.idle ∨ s.fsmState = Code.sCheck → s.byteIdx = 4#3

/-- After S_BYTE_END only the commit leaves IDLE or S_CHECK, and it leaves BYTE_IDX. -/
theorem FsmEffect.byteIdx_of_last (h : FsmEffect s c t) (hs : s.fsmState = c) (hidle : c ≠ Code.idle)
    (hend : c ≠ Code.sByteEnd) (ht : t.fsmState = Code.idle ∨ t.fsmState = Code.sCheck) :
    c = Code.sCheck ∧ t.byteIdx = s.byteIdx := by
  cases h
  case idle => exact absurd rfl hidle
  case byteLast | byteNext => exact absurd rfl hend
  case check => exact ⟨rfl, rfl⟩
  case respFailed | riseFailed | fallFailed =>
    replace ht : s.fsmState = Code.idle ∨ s.fsmState = Code.sCheck := ht
    rw [hs] at ht
    exact absurd ht (by decide)
  all_goals exact absurd ht (of_decide_eq_false rfl)

theorem Gathered.byteEnd (hg : Gathered s) (h : FsmEffect s Code.sByteEnd t) (hs : s.fsmState = Code.sByteEnd)
    (hle : s.byteIdx ≤ 4#3) : Gathered t := by
  have hclear := hg.clear (by rw [hs]; decide) (by rw [hs]; decide)
  have hacc := hg.acc
  rw [dueByte_of_byteEnd hs] at hclear hacc
  cases h
  case byteLast hlast =>
    exact ⟨fun _ hcheck => absurd rfl hcheck, commitByte_acc_last hlast hacc, fun _ => hlast⟩
  case byteNext hmore =>
    exact ⟨fun _ _ k hk => commitByte_laterClear hclear ((byteIdx_succ _ hle hmore).2.symm.trans_le hk),
      commitByte_acc_next hle hmore hacc, fun h => absurd h (of_decide_eq_false rfl)⟩

theorem FsmEffect.gathered (h : FsmEffect s c t) (hs : s.fsmState = c) (hidle : c ≠ Code.idle)
    (hle : dueByte s ≤ 4#3) (hg : Gathered s) : Gathered t := by
  by_cases hend : c = Code.sByteEnd
  · subst hend
    exact hg.byteEnd h hs (dueByte_of_byteEnd hs ▸ hle)
  · have hdue := h.dueByte_eq hs hend
    have hwork := h.sameWork hend
    exact {
      clear := fun hbusy _ k hk => by
        have hcheck : c ≠ Code.sCheck := fun e => by
          subst e
          cases h
          exact hbusy rfl
        rw [hwork.flags]
        exact hg.clear (hs ▸ hidle) (hs ▸ hcheck) k (hdue ▸ hk)
      acc := by rw [hwork.acc, hdue, sumBelow_congr hwork.bytes]; exact hg.acc
      last := fun ht => by
        obtain ⟨hcheck, hbyte⟩ := h.byteIdx_of_last hs hidle hend ht
        exact hbyte.trans (hg.last (.inr (hs.trans hcheck))) }

/-! ## The whole transaction -/

/-- Every operation of the FSM outside IDLE does the first part of what is left. -/
theorem FsmEffect.doesPart (h : FsmEffect s c t) (hs : s.fsmState = c) (hidle : c ≠ Code.idle) (hle : dueByte s ≤ 4#3)
    (hat : At line pos s) (hd : DecodeInv s) (hg : Gathered s) : ∃ pos' events, DoesPart line pos s t pos' events := by
  have hphases : ∀ c : FsmCode,
      c ≤ Code.sSettle ∨ InBit c ∨ c = Code.sByteEnd ∨ c = Code.sCheck ∨ c = Code.reservedF := by decide
  obtain hc | hc | rfl | rfl | rfl := hphases c
  · exact h.doesStart hs hidle hc hat
  · exact h.doesBit hs hc hle hat hd
  · have hclear := hg.clear (by rw [hs]; decide) (by rw [hs]; decide) _ le_rfl
    exact h.doesByteEnd hs (dueByte_of_byteEnd hs ▸ hle) (dueByte_of_byteEnd hs ▸ hclear) hat
  · cases h
    exact ⟨_, _, commitResults_doesPart hs hat⟩
  · cases h

/-- The FSM has done part of a transaction: what is left after its pin trace gives `r`. -/
structure Follows (line : Nat → Level) (r : TransactionResult) (s : State) : Prop where
  part : ∃ pos, At line pos s ∧ (transactionLeft line pos s).after s.trace = r
  decode : DecodeInv s
  gathered : Gathered s

theorem Follows.step {r : TransactionResult} (hu : Underway s) (hidle : s.fsmState ≠ Code.idle)
    (he : FsmEffect s s.fsmState t) (h : Follows line r s) : Follows line r t := by
  obtain ⟨⟨pos, hat, rfl⟩, hd, hg⟩ := h
  obtain ⟨pos', events, hat', htrace, hleft⟩ := he.doesPart rfl hidle hu.dueLe hat hd hg
  refine ⟨⟨pos', hat', ?_⟩, he.decodeInv rfl hd, he.gathered rfl hidle hu.dueLe hg⟩
  rw [hleft, TransactionResult.after_after, htrace]

/-- From S_DIR_OUT the whole procedure is left. -/
theorem transactionLeft_dirOut (hs : s.fsmState = Code.sDirOut) (hresp : s.wRespTo = false) :
    transactionLeft line 0 s = transaction s.budL.toNat line := by
  simp [transactionLeft, hs, startLeft, respLeft, settleLeft, frameLeft, transaction, startEvents,
    TransactionResult.after, hresp]

theorem follows_dirOut (hs : s.fsmState = Code.sDirOut) (hacc : s.acc = 0#8) (hresp : s.wRespTo = false)
    (hflags : s.wByteTo = 0#5) :
    Follows (upcoming s) ((transaction s.budL.toNat (upcoming s)).after s.trace) s where
  part := ⟨0, fun k => by rw [Nat.zero_add], by rw [transactionLeft_dirOut hs hresp]⟩
  decode := .of_outside (by rw [hs]; decide)
  gathered := {
    clear := fun _ _ k _ => by rw [hflags, BitVec.getLsbD_zero]
    acc := by simp [dueByte, hs, sumBelow, hacc]
    last := fun h => by
      rw [hs] at h
      exact absurd h (by decide) }

/-- At the end of a transaction the bytes in work are the procedure's, and its reads and events those of the FSM. -/
theorem Follows.at_end {s₀ : State} {r : TransactionResult} (h : Follows line (r.after s₀.trace) t)
    (hidle : t.fsmState = Code.idle) :
    At line r.reads t ∧ t.trace = s₀.trace ++ r.events ∧ t.wRespTo = r.respTo ∧
      (∀ k < 5, workByte k t = r.byte k ∧ t.wByteTo.getLsbD k = r.timedOut k) ∧
      t.acc = r.byte 0 + r.byte 1 + r.byte 2 + r.byte 3 := by
  obtain ⟨⟨pos, hat, hr⟩, _, hg⟩ := h
  rw [transactionLeft_end (.inr hidle)] at hr
  obtain ⟨hresp, hbytes, hreads, hevents⟩ := TransactionResult.mk.inj hr
  have hbyte (k : Nat) (hk : k < 5) : r.bytes.getD k (0#8, false) = (workByte k t, t.wByteTo.getLsbD k) := by
    rw [← hbytes]
    simp [workBytes, hk]
  have hwork : ∀ k < 5, workByte k t = r.byte k ∧ t.wByteTo.getLsbD k = r.timedOut k := fun k hk => by
    rw [TransactionResult.byte, TransactionResult.timedOut, hbyte k hk]
    exact ⟨rfl, rfl⟩
  refine ⟨hreads ▸ hat, (List.append_nil _).symm.trans hevents, hresp, hwork, ?_⟩
  have hdue : dueByte t = 4#3 := by simp [dueByte, hidle, hg.last (.inl hidle)]
  rw [hg.acc, hdue, ← (hwork 0 (by decide)).1, ← (hwork 1 (by decide)).1, ← (hwork 2 (by decide)).1,
    ← (hwork 3 (by decide)).1]
  rfl

/-- Settles O57: the FSM completes, and what is left of the procedure, which each operation does a part of, is then what
the commit shows. -/
theorem transactionIsTheProcedure : Obligations.TransactionIsTheProcedure := by
  intro s ha hs hacc hresp hflags r
  obtain ⟨n, t, ⟨hrun, hbusy, hidle, hcommitted⟩, _, _, hfollows⟩ :=
    (underway_dirOut hs).completes ha (follows_dirOut hs hacc hresp hflags) Follows.step
  obtain ⟨hat, htrace, hrespTo, hbytes, hsum⟩ := hfollows.at_end hidle
  obtain ⟨⟨hnotBusy, hdone, hvalid⟩, hdata, hsum', hcrc, houtcome, hrespTo', hbyteTo⟩ := committed_fields hcommitted
  refine ⟨n, t, hrun, hbusy, hidle, hnotBusy, hdone, hvalid, htrace, hat, ?_, hcrc.trans (hbytes 4 (by decide)).1,
    hsum'.trans hsum, houtcome, hrespTo'.trans hrespTo, fun k hk => hbyteTo ▸ (hbytes k hk).2⟩
  rw [hdata, ← (hbytes 0 (by decide)).1, ← (hbytes 1 (by decide)).1, ← (hbytes 2 (by decide)).1,
    ← (hbytes 3 (by decide)).1]
  rfl

end Sys2Proof.Machine
end

section
/-!
PROOFS. The host interface (42_host_interface.md): the step of a host access, and what each defined read and write
leaves.
-/

namespace Sys2Proof.Machine

variable {s : State} {d : Word} {off : Offset}

/-! ## The step (R170) -/

theorem popMove_of_cons {m : Move} {rest : List Move} (h : s.agenda = m :: rest) :
    s.popMove = { s with agenda := rest } := by
  rw [State.popMove, h, List.tail_cons]

/-- A host access at the head of the agenda is the step (log 1). -/
theorem step_host_of_cons {w : Haw} {rest : List Move} (hagenda : s.agenda = .host w :: rest)
    (hmark : s.faultMark = none) : step s = hostMove w { s with agenda := rest } := by
  have hmove : nextMove s = .host w := nextMove_of_head (congrArg List.head? hagenda)
  rw [step_host hmove hmark, popMove_of_cons hagenda]

/-- Settles O6: what the machine records of the decoded access (R62, log 8). -/
theorem stepRunsTheHostAccess : Obligations.StepRunsTheHostAccess := by
  intro s w rest hagenda hmark
  have hstep := step_host_of_cons hagenda hmark
  exact ⟨fun t h => hstep.trans (hostMove_of_next h), fun h => hstep.trans (hostMove_of_refused h)⟩

/-- A row of the host access format goes to the head of the agenda (log 17). -/
theorem withFetchWord_haw (s : State) (w : Haw) :
    s.withFetchWord 48 w.toNat = { s with agenda := .host w :: s.agenda } := by
  simp [State.withFetchWord, isFsmWidth]

/-- A row of the FSM format goes to STATE, with the FSM's move first (log 17). -/
theorem withFetchWord_fsm (s : State) (c : FsmCode) :
    s.withFetchWord 8 c.toNat = { s with fsmState := c, agenda := .fsm :: s.agenda } := by
  simp [State.withFetchWord, isFsmWidth]

/-- Settles O8: taking the placed move off the agenda leaves the state it was placed in. -/
theorem fetchWordRunsNext : Obligations.FetchWordRunsNext := by
  intro s hmark
  refine ⟨fun w t h => ?_, fun c t h => ?_⟩
  · rw [withFetchWord_haw]
    have hstep := step_host_of_cons (s := { s with agenda := .host w :: s.agenda }) rfl hmark
    exact hstep.trans (hostMove_of_next h)
  · rw [withFetchWord_fsm]
    have hstep := step_fsm (s := { s with fsmState := c, agenda := .fsm :: s.agenda }) rfl hmark
    exact hstep.trans (fsmMove_of_next h)

/-! ## The reads (R172 to R183) -/

theorem outcomeBit_iff (o : ReadOutcome) : o.bit.getLsbD 0 = true ↔ o = .checksumMismatch := by
  cases o <;> decide

/-- A field of a register is what its bits are. -/
theorem extractLsb'_eq_of_bits {r : Word} {lo n : Nat} {v : BitVec n}
    (h : ∀ i < n, r.getLsbD (lo + i) = v.getLsbD i) : r.extractLsb' lo n = v := by
  ext i hi
  rw [BitVec.getElem_extractLsb', h i hi, BitVec.getLsbD_eq_getElem]

/-- Settles O12: RDATA is STATUS, whose bits are `statusWord_getLsbD`. -/
theorem rdStatusReturnsEveryField : Obligations.RdStatusReturnsEveryField := by
  intro s
  have bit := statusWord_getLsbD s
  have hbyteTo : (statusWord s).extractLsb' 5 5 = s.byteTo := extractLsb'_eq_of_bits fun i hi => by
    rw [bit]; interval_cases i <;> rfl
  have hgap : (statusWord s).extractLsb' 11 5 = 0#5 := extractLsb'_eq_of_bits fun i hi => by
    rw [bit]; interval_cases i <;> rfl
  have hstate : (statusWord s).extractLsb' 16 4 = s.fsmState := extractLsb'_eq_of_bits fun i hi => by
    rw [bit]; interval_cases i <;> rfl
  have hhigh : (statusWord s).extractLsb' 20 12 = 0#12 := extractLsb'_eq_of_bits fun i hi => by
    rw [bit]; interval_cases i <;> simp
  exact ⟨statusWord s, rfl, bit 0, bit 1, bit 2, bit 3 ▸ outcomeBit_iff s.outcome, bit 4, hbyteTo, bit 10, hgap, hstate,
    hhigh⟩

/-- Settles O13: each read is the window's one read at its register's offset. -/
theorem readsReturnTheirRegisters : Obligations.ReadsReturnTheirRegisters := fun _ => ⟨rfl, rfl, rfl, rfl, rfl⟩

/-- The reserved offsets, of both rows, are those from 0x18 on (20_memory.md R61). -/
theorem hostRead_reserved (h : 0x18#6 ≤ off) (s : State) :
    hostRead off s = .next { s with responses := s.responses ++ [0#32] } := by
  rw [hostRead, readReg_reserved h, State.respond]

/-- The two rows of reserved offsets lie past the registers (20_memory.md R61). -/
theorem reserved_ge : ∀ off : Offset, off = 0x18#6 ∨ off = 0x1C#6 ∨ 0x20#6 ≤ off → 0x18#6 ≤ off := by decide

/-- Settles O14: no register lies at a reserved offset. -/
theorem reservedReadsReturnZero : Obligations.ReservedReadsReturnZero := fun s off =>
  ⟨fun hlow => hostRead_reserved (reserved_ge off (hlow.imp_right .inl)) s,
    fun hhigh => hostRead_reserved (reserved_ge off (.inr (.inr hhigh.1))) s⟩

/-! ## The writes (R171 to R184) -/

theorem writeCtrl_enable (hbit : d.getLsbD 0 = false) (s : State) : writeCtrl d s = { s with ie := ieBit d } := by
  rw [writeCtrl, startBit, hbit, if_neg Bool.false_ne_true]

theorem writeCtrl_start (hbit : d.getLsbD 0 = true) (hidle : s.fsmState = Code.idle) :
    writeCtrl d s = acceptStart { s with ie := ieBit d } := by
  rw [writeCtrl, startBit, if_pos hbit, requestStart, if_pos hidle]

theorem writeCtrl_overrun (hbit : d.getLsbD 0 = true) (hbusy : s.fsmState ≠ Code.idle) :
    writeCtrl d s = { s with ie := ieBit d, sovr := true } := by
  rw [writeCtrl, startBit, if_pos hbit, requestStart, if_neg hbusy]

/-- Settles O15, one case of the write of CTRL for each clause. -/
theorem wrCtrlSetsEnableAndRequestsStart : Obligations.WrCtrlSetsEnableAndRequestsStart := fun _ s =>
  ⟨fun hbit => congrArg Host.Outcome.next (writeCtrl_enable hbit s),
    fun hbit hidle => congrArg Host.Outcome.next (writeCtrl_start hbit hidle),
    fun hbit hbusy => congrArg Host.Outcome.next (writeCtrl_overrun hbit hbusy)⟩

theorem w1c_eq_ite (b flag : Bool) : w1c b flag = if b then false else flag := by
  cases b <;> simp

/-- Settles O16: both flags are cleared by writing 1. -/
theorem wrStatusClearsByWritingOne : Obligations.WrStatusClearsByWritingOne := by
  intro d s
  rw [← w1c_eq_ite, ← w1c_eq_ite]
  rfl

/-- Settles O17: the write of BUDGET by its definition. -/
theorem wrBudgetSetsTheRegisterOnly : Obligations.WrBudgetSetsTheRegisterOnly := fun _ _ => rfl

theorem hostWrite_reserved (h : 0x18#6 ≤ off) (d : Word) (s : State) : hostWrite off d s = .next s := by
  have hother (k : Offset) (hk : k < 0x18#6) : off ≠ k := fun e => absurd (e ▸ hk) (BitVec.not_lt.mpr h)
  simp [hostWrite, writeReg, hother]

/-- Settles O18: the window's one write reaches CTRL, STATUS and BUDGET only. -/
theorem writesOfReadOnlySpaceAreIgnored : Obligations.WritesOfReadOnlySpaceAreIgnored := fun d s =>
  ⟨rfl, rfl, rfl, fun off hlow => hostWrite_reserved (reserved_ge off (hlow.imp_right .inl)) d s,
    fun off hhigh => hostWrite_reserved (reserved_ge off (.inr (.inr hhigh.1))) d s⟩

end Sys2Proof.Machine
end

section
/-!
PROOFS. A frame whose polls all succeed at once (95_test_vectors.md V-L1-1), read by the host after its START
(42_host_interface.md R171, R185).
-/

namespace Sys2Proof.Machine

variable {s t : State} {c c' : FsmCode} {l : Level} {stored : List Byte} {line line' rest : List Level} {b : Byte}

/-! ## The bits of a byte (41_frame_decoder.md R142, R148) -/

/-- A sample moves every bit of SH up by one and becomes bit 0. -/
theorem shiftIn_getLsbD (sh : Byte) (b : Bool) {i : Nat} (hi : i < 8) :
    (shiftIn sh (if b then .high else .low)).getLsbD i = if i = 0 then b else sh.getLsbD (i - 1) := by
  have hbit : (if b then Level.high else Level.low).bit = BitVec.ofBool b := by cases b <;> rfl
  rw [shiftIn, hbit]
  show BitVec.getLsbD (w := 7 + 1) (sh.extractLsb' 0 7 ++ BitVec.ofBool b) i = _
  rw [BitVec.getLsbD_append]
  cases i with
  | zero => simp
  | succ i =>
    have hin : i < 7 := Nat.lt_of_succ_lt_succ hi
    simp [hin]

/-- Eight shifts leave exactly the bits shifted in (30_encoding.md R84). -/
theorem foldl_shiftIn_bitsMsbFirst (b : Byte) : (bitsMsbFirst b).foldl shiftIn 0#8 = b := by
  refine BitVec.eq_of_getLsbD_eq fun i hi => ?_
  rw [bitsMsbFirst]
  interval_cases i <;>
    simp only [List.map, List.foldl, shiftIn_getLsbD, Nat.reduceLT, Nat.reduceEqDiff, Nat.reduceSub, if_true, if_false]

/-! ## A transaction in which no wait has timed out -/

/-- The FSM alone is in code `c` with no failed poll counted and budget left, no wait has timed out so far, the bytes
`stored` are in work, and the line will answer `line`. -/
structure Clean (c : FsmCode) (stored : List Byte) (line : List Level) (s : State) : Prop where
  alone : Alone s
  fsmState : s.fsmState = c
  budget : 0#32 < s.budL
  cnt : s.cnt = 0#32
  byteLe : s.byteIdx ≤ 4#3
  byteIdx : s.byteIdx.toNat = stored.length
  abrt : s.abrt = false
  respTo : s.wRespTo = false
  byteTo : s.wByteTo = 0#5
  stored : workBytes s.byteIdx.toNat s = stored.map (·, false)
  acc : s.acc = sumBelow s.byteIdx s
  lineIn : s.lineIn = line

theorem Clean.left (h : Clean c stored line s) : s.cnt < s.budL := h.cnt ▸ h.budget

theorem Clean.drawn_eq (h : Clean c stored (l :: rest) s) : drawn s = l := drawn_of_cons h.lineIn

/-- An operation that neither ends a byte nor counts a failed poll nor times out goes on so. -/
theorem Clean.next (h : Clean c stored line s) (he : FsmEffect s c t) (hline : t.lineIn = line')
    (hend : c ≠ Code.sByteEnd := by decide) (hstate : t.fsmState = c' := by rfl)
    (hcnt : t.cnt = 0#32 ∨ t.cnt = s.cnt := by simp) (hbyte : t.byteIdx = s.byteIdx := by simp)
    (habrt : t.abrt = false ∨ t.abrt = s.abrt := by simp) (hresp : t.wRespTo = s.wRespTo := by simp) :
    Clean c' stored line' t := by
  have hwork := he.sameWork hend
  have hlen : s.byteIdx.toNat ≤ 5 := (BitVec.le_def.mp h.byteLe).trans (by decide)
  exact {
    alone := he.alone h.alone
    fsmState := hstate
    budget := he.budL_eq ▸ h.budget
    cnt := hcnt.elim id fun e => e.trans h.cnt
    byteLe := hbyte ▸ h.byteLe
    byteIdx := hbyte ▸ h.byteIdx
    abrt := habrt.elim id fun e => e.trans h.abrt
    respTo := hresp.trans h.respTo
    byteTo := hwork.flags.trans h.byteTo
    stored := by rw [hbyte, workBytes_congr hlen hwork, h.stored]
    acc := by rw [hwork.acc, hbyte, sumBelow_congr hwork.bytes, h.acc]
    lineIn := hline }

/-! ## A bit and a byte (R139 to R144) -/

/-- A bit whose rise is seen at once is sampled in three steps. -/
theorem Clean.run_sample (h : Clean Code.sBitRise stored (.high :: l :: rest) s) :
    ∃ t, run 3 s = .next t ∧ Clean Code.sBitFall stored rest t ∧ t.sh = shiftIn s.sh l ∧ t.bitIdx = s.bitIdx := by
  have hrise := FsmEffect.riseReached h.left h.drawn_eq
  have h1 : Clean Code.sBitDelay stored (l :: rest) _ := h.next hrise (by simp [h.lineIn])
  have h2 : Clean Code.sBitSample stored (l :: rest) _ := h1.next .bitDelay h1.lineIn
  have h3 : Clean Code.sBitFall stored rest _ := h2.next .bitSample (by simp [h.lineIn])
  have hrun : run 3 s = .next _ := run_succ_of_effect h.alone h.fsmState hrise fun ha =>
    run_succ_of_effect ha rfl .bitDelay fun ha => run_succ_of_effect ha rfl .bitSample fun _ => run_zero _
  exact ⟨_, hrun, h3, by simp [h2.drawn_eq], by simp⟩

/-- A bit whose two waits succeed at once takes four steps; the eighth ends the byte. -/
theorem Clean.run_bit (h : Clean Code.sBitRise stored (bitReads l ++ rest) s) :
    ∃ t, run 4 s = .next t ∧ t.sh = shiftIn s.sh l ∧
      ((s.bitIdx = 7#3 ∧ Clean Code.sByteEnd stored rest t) ∨
        (s.bitIdx ≠ 7#3 ∧ Clean Code.sBitRise stored rest t ∧ t.bitIdx = s.bitIdx + 1)) := by
  obtain ⟨u, hrun, hu, hsh, hidx⟩ := Clean.run_sample (rest := .low :: rest) h
  rw [← hidx]
  by_cases hlast : u.bitIdx = 7#3
  · have hfall := FsmEffect.fallLast hu.left hu.drawn_eq hlast
    have hend : run 1 u = .next _ := run_succ_of_effect hu.alone hu.fsmState hfall fun _ => run_zero _
    exact ⟨_, run_add hrun hend, hsh, .inl ⟨hlast, hu.next hfall (by simp [hu.lineIn])⟩⟩
  · have hfall := FsmEffect.fallNext hu.left hu.drawn_eq hlast
    have hend : run 1 u = .next _ := run_succ_of_effect hu.alone hu.fsmState hfall fun _ => run_zero _
    exact ⟨_, run_add hrun hend, hsh, .inr ⟨hlast, hu.next hfall (by simp [hu.lineIn]), rfl⟩⟩

/-- BIT_IDX is 7 exactly where no bit is left after the one at hand. -/
theorem bitIdx_eq_seven_iff {i : BitVec 3} {n : Nat} (hcount : i.toNat + (n + 1) = 8) : i = 7#3 ↔ n = 0 := by
  rw [BitVec.toNat_eq]
  change i.toNat = 7 ↔ n = 0
  omega

/-- The bits of a byte from bit BIT_IDX on are shifted in, four steps a bit: by induction on those bits. -/
theorem Clean.run_bits {bits : List Level} (hne : bits ≠ [])
    (h : Clean Code.sBitRise stored (bits.flatMap bitReads ++ rest) s) (hcount : s.bitIdx.toNat + bits.length = 8) :
    ∃ t, run (4 * bits.length) s = .next t ∧ Clean Code.sByteEnd stored rest t ∧ t.sh = bits.foldl shiftIn s.sh := by
  induction bits generalizing s with
  | nil => exact absurd rfl hne
  | cons l bits ih =>
    rw [List.flatMap_cons, List.append_assoc] at h
    rw [List.length_cons] at hcount
    obtain ⟨u, hrun, hsh, ⟨hseven, hu⟩ | ⟨hmore, hu, hidx⟩⟩ := h.run_bit
    · obtain rfl : bits = [] := List.length_eq_zero_iff.mp ((bitIdx_eq_seven_iff hcount).mp hseven)
      exact ⟨u, hrun, hu, hsh⟩
    · have hsucc := bitIdx_succ_toNat _ hmore
      have hne : bits ≠ [] := fun e => hmore ((bitIdx_eq_seven_iff hcount).mpr (List.length_eq_zero_iff.mpr e))
      obtain ⟨t, hlater, ht, hshifted⟩ := ih hne hu (by rw [hidx]; omega)
      refine ⟨t, ?_, ht, hshifted.trans (congrArg (bits.foldl shiftIn) hsh)⟩
      rw [List.length_cons, Nat.mul_succ, Nat.add_comm]
      exact run_add hrun hlater

/-- The FSM is at the first bit of a byte, after the bytes `stored`. -/
structure CleanByte (stored : List Byte) (line : List Level) (s : State) : Prop
    extends Clean Code.sBitRise stored line s where
  bitIdx : s.bitIdx = 0#3
  sh : s.sh = 0#8

/-- A byte's 32 steps leave its bits in SH. -/
theorem CleanByte.run_bits (h : CleanByte stored (byteReads b ++ rest) s) :
    ∃ t, run 32 s = .next t ∧ Clean Code.sByteEnd stored rest t ∧ t.sh = b := by
  have hcount : s.bitIdx.toNat + (bitsMsbFirst b).length = 8 := by rw [h.bitIdx]; rfl
  obtain ⟨t, hrun, ht, hsh⟩ := h.toClean.run_bits (bits := bitsMsbFirst b) nofun hcount
  rw [h.sh, foldl_shiftIn_bitsMsbFirst] at hsh
  exact ⟨t, hrun, ht, hsh⟩

/-- The byte commit stores SH, and sets no flag. -/
theorem Clean.commit_stores (h : Clean c stored line s) :
    workBytes (s.byteIdx.toNat + 1) (commitByte s) = (stored ++ [s.sh]).map (·, false) ∧
      (commitByte s).wByteTo = 0#5 := by
  have hclear : s.wByteTo.getLsbD s.byteIdx.toNat = false := by rw [h.byteTo, BitVec.getLsbD_zero]
  refine ⟨?_, by simp [h.abrt, h.byteTo]⟩
  rw [workBytes_commitByte h.byteLe hclear, h.stored, storedByte, h.abrt, List.map_append]
  rfl

/-- A byte other than the last is stored and summed in 33 steps. -/
theorem CleanByte.run_byte (h : CleanByte stored (byteReads b ++ rest) s) (hmore : stored.length < 4) :
    ∃ t, run 33 s = .next t ∧ CleanByte (stored ++ [b]) rest t := by
  obtain ⟨u, hrun, hu, rfl⟩ := h.run_bits
  have hidx : u.byteIdx ≠ 4#3 := fun e => by
    have hlen := hu.byteIdx
    rw [e] at hlen
    exact absurd hlen hmore.ne'
  obtain ⟨hle, hsucc⟩ := byteIdx_succ _ hu.byteLe hidx
  obtain ⟨hstored, hflags⟩ := hu.commit_stores
  have he := FsmEffect.byteNext hidx
  have hcommit : run 1 u = .next _ := run_succ_of_effect hu.alone hu.fsmState he fun _ => run_zero _
  exact ⟨_, run_add hrun hcommit, {
    alone := he.alone hu.alone
    fsmState := rfl
    budget := by simp [hu.budget]
    cnt := rfl
    byteLe := hle
    byteIdx := by rw [List.length_append, ← hu.byteIdx]; exact hsucc
    abrt := rfl
    respTo := by simp [hu.respTo]
    byteTo := hflags
    stored := by rw [← hstored, ← hsucc]; rfl
    acc := commitByte_acc_next hu.byteLe hidx hu.acc
    lineIn := by simp [hu.lineIn]
    bitIdx := rfl
    sh := rfl }⟩

/-! ## The start and the end of the transaction (R132 to R139, R146) -/

/-- A response seen at once and the settle delay lead to the first byte in two steps. -/
theorem Clean.run_response (h : Clean Code.sRespWait [] (.high :: line) s) :
    ∃ t, run 2 s = .next t ∧ CleanByte [] line t := by
  have hfirst : s.byteIdx = 0#3 := BitVec.eq_of_toNat_eq h.byteIdx
  have hresp := FsmEffect.respReached h.left h.drawn_eq
  have h1 : Clean Code.sSettle [] line _ := h.next hresp (by simp [h.lineIn])
  have h2 : Clean Code.sBitRise [] line _ := h1.next .settle h1.lineIn (hbyte := by simp [hfirst])
  have hrun : run 2 s = .next _ := run_succ_of_effect h.alone h.fsmState hresp fun ha =>
    run_succ_of_effect ha rfl .settle fun _ => run_zero _
  exact ⟨_, hrun, h2, rfl, rfl⟩

/-- The start signal and release come before the response, in six steps. -/
theorem Clean.run_start (h : Clean Code.sDirOut [] (.high :: line) s) :
    ∃ t, run 8 s = .next t ∧ CleanByte [] line t := by
  have hsignalled : Clean Code.sRespWait [] (.high :: line) (startSignalled s) :=
    { h with fsmState := rfl, cnt := rfl }
  obtain ⟨t, hrun, ht⟩ := hsignalled.run_response
  exact ⟨t, run_add (run_startSignalled h.alone h.fsmState) hrun, ht⟩

/-- The transaction that read `bytes` is committed. -/
structure CleanEnd (bytes : List Byte) (line : List Level) (s : State) : Prop where
  idle : s.fsmState = Code.idle
  committed : s = commitResults s
  respTo : s.wRespTo = false
  byteTo : s.wByteTo = 0#5
  bytes : workBytes 5 s = bytes.map (·, false)
  acc : s.acc = sumBelow 4#3 s
  lineIn : s.lineIn = line

/-- The last byte takes a step more, the commit of the results. -/
theorem CleanByte.run_lastByte (h : CleanByte stored (byteReads b ++ rest) s) (hlast : stored.length = 4) :
    ∃ t, run 34 s = .next t ∧ CleanEnd (stored ++ [b]) rest t := by
  obtain ⟨u, hrun, hu, rfl⟩ := h.run_bits
  have hidx : u.byteIdx = 4#3 := BitVec.eq_of_toNat_eq (hu.byteIdx.trans hlast)
  obtain ⟨hstored, hflags⟩ := hu.commit_stores
  have hacc := commitByte_acc_last hidx hu.acc
  rw [hidx] at hstored hacc
  have hend : run 2 u = .next (commitResults ((commitByte u).goto Code.sCheck)) :=
    run_succ_of_effect hu.alone hu.fsmState (.byteLast hidx) fun ha => run_succ_of_effect ha rfl .check fun _ => rfl
  exact ⟨_, run_add hrun hend, {
    idle := rfl
    committed := rfl
    respTo := by simp [hu.respTo]
    byteTo := by rw [commitResults_wByteTo, goto_wByteTo, hflags]
    bytes := hstored
    acc := hacc
    lineIn := by simp [hu.lineIn] }⟩

/-- Five bytes, read one after the other. -/
theorem CleanByte.run_frame {b0 b1 b2 b3 b4 : Byte}
    (h : CleanByte [] (byteReads b0 ++ (byteReads b1 ++ (byteReads b2 ++ (byteReads b3 ++ (byteReads b4 ++ rest))))) s) :
    ∃ t, run 166 s = .next t ∧ CleanEnd [b0, b1, b2, b3, b4] rest t := by
  obtain ⟨s1, hrun1, h1⟩ := h.run_byte (by decide)
  obtain ⟨s2, hrun2, h2⟩ := h1.run_byte (of_decide_eq_true rfl)
  obtain ⟨s3, hrun3, h3⟩ := h2.run_byte (of_decide_eq_true rfl)
  obtain ⟨s4, hrun4, h4⟩ := h3.run_byte (of_decide_eq_true rfl)
  obtain ⟨t, hrun5, ht⟩ := h4.run_lastByte rfl
  exact ⟨t, run_add hrun1 (run_add hrun2 (run_add hrun3 (run_add hrun4 hrun5))), ht⟩

/-! ## The host's START and READ (42_host_interface.md R171, R185) -/

/-- An accepted START begins a transaction in which nothing has timed out. -/
theorem acceptStart_clean (ha : Alone s) (hbudget : 1#32 ≤ s.budget) (hline : s.lineIn = line) :
    Clean Code.sDirOut [] line (acceptStart s) := by
  have hpos : 0#32 < s.budget := by bv_omega
  exact ⟨ha, rfl, hpos, rfl, of_decide_eq_true rfl, rfl, rfl, rfl, rfl, rfl, rfl, hline⟩

theorem outcomeOf_statusWord (s : State) : outcomeOf (statusWord s) = s.outcome := by
  have hbit : (statusWord s).getLsbD 3 = s.outcome.bit.getLsbD 0 := statusWord_getLsbD s 3
  rw [outcomeOf, hbit]
  cases s.outcome <;> rfl

/-- The host's READ of a committed transaction gives the bytes and the checksum's verdict. -/
theorem CleanEnd.reading {b0 b1 b2 b3 b4 : Byte} (h : CleanEnd [b0, b1, b2, b3, b4] line s) :
    readingOf (readReg offData s) (readReg offChk s) = ⟨b0, b1, b2, b3, b4⟩ ∧
      (outcomeOf (readReg offStatus s) = .success ↔ b4 = b0 + b1 + b2 + b3) := by
  obtain ⟨_, hdata, hsum, hcrc, houtcome, _⟩ := committed_fields h.committed
  have hbytes : s.w0 = b0 ∧ s.w1 = b1 ∧ s.w2 = b2 ∧ s.w3 = b3 ∧ s.w4 = b4 := by
    simpa [workBytes, List.range_succ, workByte, h.byteTo] using h.bytes
  obtain ⟨rfl, rfl, rfl, rfl, rfl⟩ := hbytes
  obtain ⟨h0, h1, h2, h3⟩ := byteLane_dataOf s.w0 s.w1 s.w2 s.w3
  obtain ⟨h4, _⟩ := byteLane_chkWord s
  constructor
  · rw [readReg_data, readReg_chk, readingOf, hdata, h0, h1, h2, h3, h4, hcrc]
  · rw [readReg_status, outcomeOf_statusWord, houtcome, checkOutcome_eq_success_iff, hsum, hcrc, h.acc, eq_comm]
    rfl

/-- Settles O59: the START, the eight steps before the first byte, and the five bytes end to end. -/
theorem cleanFrameIsReadCorrectly : Obligations.CleanFrameIsReadCorrectly := by
  intro s w d b0 b1 b2 b3 b4 rest hmark hidle hbudget hagenda hdecode hbit hline
  have haccepted : exec (decodeHaw w) { s with agenda := [] } =
      .next (acceptStart { s with agenda := [], ie := ieBit d }) := by
    rw [hdecode]
    exact congrArg Host.Outcome.next (writeCtrl_start hbit hidle)
  have hstart := (step_host_of_cons hagenda hmark).trans (hostMove_of_next haccepted)
  simp only [frameReads, List.cons_append, List.append_assoc] at hline
  have hclean := acceptStart_clean (s := { s with agenda := [], ie := ieBit d }) ⟨rfl, hmark⟩ hbudget hline
  obtain ⟨u, hrun, hu⟩ := hclean.run_start
  obtain ⟨t, hrun', ht⟩ := hu.run_frame
  obtain ⟨hreading, houtcome⟩ := ht.reading
  obtain ⟨⟨_, hdone, hvalid⟩, _, _, _, _, hresp, hflags⟩ := committed_fields ht.committed
  exact ⟨t, (run_succ _ hstart).trans (run_add hrun hrun'), ht.idle, hdone, hvalid, ht.lineIn, hreading, houtcome,
    hresp.trans ht.respTo, hflags.trans ht.byteTo⟩

end Sys2Proof.Machine
end

section
/-!
PROOFS. The events and their order (60_exceptions.md): the STATUS bits that report the events, and a host access in the
clock cycle of the commit.
-/

namespace Sys2Proof.Machine

variable {s : State} {w : Haw} {d : Word} {rest : List Move}

/-! ## Event codes (R201) -/

/-- Settles O44, by the bits of STATUS, `statusWord_getLsbD`, at each event's code. -/
theorem statusBitsAreTheEventCodes : Obligations.StatusBitsAreTheEventCodes := by
  intro s
  have bit := statusWord_getLsbD s
  have hbyte (k : Fin 5) : (statusWord s).getLsbD (5 + k.val) = s.byteTo.getLsbD k := by
    rw [bit]
    fin_cases k <;> rfl
  have houtcome : (statusWord s).getLsbD 3 = true ↔ s.outcome = .checksumMismatch :=
    bit 3 ▸ outcomeBit_iff s.outcome
  exact ⟨bit 4, hbyte, houtcome, bit 10⟩

/-! ## A host access in the commit's cycle (R207) -/

/-- A START outside IDLE sets SOVR and starts nothing (42_host_interface.md R171). -/
theorem hostMove_overrun (hd : decodeHaw w = .wrCtrl d) (hbit : d.getLsbD 0 = true) (hbusy : s.fsmState ≠ Code.idle) :
    hostMove w s = .next { s with ie := ieBit d, sovr := true } := by
  have hexec : exec (decodeHaw w) s = .next (writeCtrl d s) := by rw [hd]; rfl
  rw [hostMove_of_next hexec, writeCtrl_overrun hbit hbusy]

/-- An aligned 32-bit read returns the register at its offset (20_memory.md R62, 42_host_interface.md R170). -/
theorem hostMove_read (hsize : hawSize w = size32) (hwe : hawWe w = false)
    (halign : (hawAddr w).extractLsb' 0 2 = 0#2) (s : State) :
    hostMove w s = .next (s.respond (readReg (hawAddr w) s)) := by
  obtain ⟨_, _, e⟩ | ⟨_, hwrite, _⟩ | ⟨hbad, _⟩ := decodeHaw_cases w
  · have hexec : exec (decodeHaw w) s = hostRead (hawAddr w) s := by rw [e, exec_decodeRead]
    exact hostMove_of_next hexec
  · exact absurd (hwe.symm.trans hwrite) Bool.false_ne_true
  · exact absurd ⟨hsize, halign⟩ hbad

/-- The commit's cycle: the access leaves STATE and the fault mark (`HostEffect.frame`), so the FSM's move that follows
it is the commit of what the access left. -/
theorem run_sameCycle_commit {u : State} (hs : s.fsmState = Code.sCheck) (hmark : s.faultMark = none)
    (hagenda : s.agenda = sameCycle w ++ rest) (hu : hostMove w { s with agenda := .fsm :: rest } = .next u) :
    run 2 s = .next (commitResults u.popMove) := by
  have hbusy : s.fsmState ≠ Code.idle := by rw [hs]; decide
  have hframe := (hostMove_effect hu).frame hbusy
  have hstate : u.fsmState = Code.sCheck := (congrArg State.fsmState hframe).trans hs
  have hfault : u.faultMark = none := (congrArg State.faultMark hframe).trans hmark
  have hnext : nextMove u = .fsm := nextMove_of_head (congrArg (fun v => v.agenda.head?) hframe)
  have hcommit : exec (decodeFsm u.popMove.fsmState) u.popMove = .next (commitResults u.popMove) := by
    rw [popMove_fsmState, hstate]; rfl
  have hhost : step s = .next u := (step_host_of_cons hagenda hmark).trans hu
  have hfsm : step u = .next (commitResults u.popMove) := (step_fsm hnext hfault).trans (fsmMove_of_next hcommit)
  exact (run_succ 1 hhost).trans (run_one hfsm)

/-- Settles O42, by `run_sameCycle_commit`: the commit leaves SOVR and the returned words as the access left them
(`hostMove_overrun`, `hostMove_read`). -/
theorem hostAccessPrecedesTheCommit : Obligations.HostAccessPrecedesTheCommit := by
  intro s w rest hs hmark hagenda
  have hbusy : s.fsmState ≠ Code.idle := by rw [hs]; decide
  obtain ⟨u, hu⟩ := hostMove_next w { s with agenda := .fsm :: rest }
  refine ⟨_, run_sameCycle_commit hs hmark hagenda hu, rfl, rfl, fun d hd hbit => ?_, fun hsize hwe halign => ?_⟩
  · obtain rfl := Host.Outcome.next.inj (hu.symm.trans (hostMove_overrun hd hbit hbusy))
    exact ⟨rfl, rfl⟩
  · obtain rfl := Host.Outcome.next.inj (hu.symm.trans (hostMove_read hsize hwe halign _))
    rfl

end Sys2Proof.Machine
end

section
/-!
PROOFS. Reset and hazards (70_reset_and_hazards.md): the reset input (R230, R231).
-/

namespace Sys2Proof.Machine

/-- Settles O10: a reset move at the head of the agenda is a `step_reset`, which looks at no fault mark, and taking it
leaves the moves behind it (`popMove_of_cons`). -/
theorem resetInputAbandonsTheTransaction : Obligations.ResetInputAbandonsTheTransaction := by
  intro s rest hagenda
  have hmove : nextMove s = .reset := nextMove_of_head (congrArg List.head? hagenda)
  rw [step_reset hmove, popMove_of_cons hagenda]
  rfl

end Sys2Proof.Machine
end
